-- ==== Sys2Proof/Word.lean ====
section
/-! DEFINITION. The word types of the moha core (spec/00_scope.md R6, R9; spec/10_state.md R30). -/

namespace Sys2Proof

/-- A byte of memory, 8 bits (R9). -/
abbrev Byte := BitVec 8

/-- The spec's *word*: a 16-bit unit, the size of an instruction word (R9, R15). -/
abbrev Half := BitVec 16

/-- A 32-bit register value, address or long (XLEN of R6). -/
abbrev Word := BitVec 32

/-- A general-register index, 0 to 15 (R30). -/
abbrev Reg := Fin 16

/-- The access widths of spec/20_memory.md R66: 1, 2 or 4 bytes. -/
inductive Width where
  | byte | short | long
  deriving DecidableEq, Repr

end Sys2Proof
end

