-- ==== Sys2Proof/Syntax.lean ====
section
/-! DEFINITION. The instruction syntax: the three encoding formats, the 68 opcodes and the 68
instructions of spec/30_encoding.md R108, one constructor each. -/

namespace Sys2Proof

/-- The three encoding formats (R101). -/
inductive Format where
  | register | shortImm | branch
  deriving DecidableEq, Repr

/-- The closed opcode set of R108: 54 register, 4 short-immediate and 10 branch opcodes. -/
inductive Opcode where
  -- Arithmetic (spec/41_arithmetic.md)
  | add | sub | neg | inc | dec | mul | mulX | umulX | div | udiv | mod | umod
  -- Logic, shifts, extension (spec/42_logic_extend.md)
  | and | or | xor | not | ashl | ashr | lshr | sexB | sexS | zexB | zexS
  -- Compare and branch (spec/43_compare_branch.md)
  | cmp | beq | bne | bge | bgt | ble | blt | bgeu | bgtu | bleu | bltu
  -- Jumps, calls, return (spec/44_jump_call_return.md)
  | jmp | jmpa | jsr | jsra | ret
  -- Stack (spec/45_stack.md)
  | push | pop
  -- Loads and stores (spec/46_load_store.md)
  | ldB | ldS | ldL | stB | stS | stL | ldaB | ldaS | ldaL | staB | staS | staL | ldoB | ldoS | ldoL | stoB | stoS | stoL
  -- Immediates and move (spec/47_immediate_move.md)
  | ldiL | ldiB | ldiS | mov
  -- System (spec/48_system.md)
  | gsr | ssr | swi | brk | nop
  deriving DecidableEq, Repr

/-- The decoded instruction word of R102 (spec/10_state.md R42): the format, the opcode field as a
number, the two register fields and the value. A field that the format omits is 0. -/
structure Record where
  format : Format
  field  : Nat
  a      : Reg
  b      : Reg
  value  : Int
  deriving DecidableEq, Repr

/-- An instruction, with exactly the operands that R110 gives its opcode. `a` and `b` are the
registerA and registerB fields, `imm` of a short-immediate form the unsigned 8-bit value (R104),
`imm` of a 3-word form the 32-bit immediate (R106), `off` the sign-extended 16-bit offset (R107),
`disp` the signed branch displacement in words (R103). -/
inductive Instr where
  -- Arithmetic (spec/41_arithmetic.md)
  | add (a b : Reg)
  | sub (a b : Reg)
  | neg (a b : Reg)
  | inc (a : Reg) (imm : Nat)
  | dec (a : Reg) (imm : Nat)
  | mul (a b : Reg)
  | mulX (a b : Reg)
  | umulX (a b : Reg)
  | div (a b : Reg)
  | udiv (a b : Reg)
  | mod (a b : Reg)
  | umod (a b : Reg)
  -- Logic, shifts, extension (spec/42_logic_extend.md)
  | and (a b : Reg)
  | or (a b : Reg)
  | xor (a b : Reg)
  | not (a b : Reg)
  | ashl (a b : Reg)
  | ashr (a b : Reg)
  | lshr (a b : Reg)
  | sexB (a b : Reg)
  | sexS (a b : Reg)
  | zexB (a b : Reg)
  | zexS (a b : Reg)
  -- Compare and branch (spec/43_compare_branch.md)
  | cmp (a b : Reg)
  | beq (disp : Int)
  | bne (disp : Int)
  | bge (disp : Int)
  | bgt (disp : Int)
  | ble (disp : Int)
  | blt (disp : Int)
  | bgeu (disp : Int)
  | bgtu (disp : Int)
  | bleu (disp : Int)
  | bltu (disp : Int)
  -- Jumps, calls, return (spec/44_jump_call_return.md)
  | jmp (a : Reg)
  | jmpa (imm : Word)
  | jsr (a : Reg)
  | jsra (imm : Word)
  | ret
  -- Stack (spec/45_stack.md)
  | push (a b : Reg)
  | pop (a b : Reg)
  -- Loads and stores (spec/46_load_store.md)
  | ldB (a b : Reg)
  | ldS (a b : Reg)
  | ldL (a b : Reg)
  | stB (a b : Reg)
  | stS (a b : Reg)
  | stL (a b : Reg)
  | ldaB (a : Reg) (imm : Word)
  | ldaS (a : Reg) (imm : Word)
  | ldaL (a : Reg) (imm : Word)
  | staB (a : Reg) (imm : Word)
  | staS (a : Reg) (imm : Word)
  | staL (a : Reg) (imm : Word)
  | ldoB (a b : Reg) (off : Int)
  | ldoS (a b : Reg) (off : Int)
  | ldoL (a b : Reg) (off : Int)
  | stoB (a b : Reg) (off : Int)
  | stoS (a b : Reg) (off : Int)
  | stoL (a b : Reg) (off : Int)
  -- Immediates and move (spec/47_immediate_move.md)
  | ldiL (a : Reg) (imm : Word)
  | ldiB (a : Reg) (imm : Word)
  | ldiS (a : Reg) (imm : Word)
  | mov (a b : Reg)
  -- System (spec/48_system.md)
  | gsr (a : Reg) (imm : Nat)
  | ssr (a : Reg) (imm : Nat)
  | swi (imm : Word)
  | brk
  | nop
  deriving DecidableEq, Repr

/-- An instruction taken apart for its encoding: the opcode, the fields of its word and its extension
(the 32-bit immediate, or the 16-bit offset zero-extended, or 0 where the opcode has none). -/
structure Parts where
  op    : Opcode
  a     : Reg
  b     : Reg
  value : Int
  ext   : Word
  deriving DecidableEq, Repr

end Sys2Proof
end

