-- ==== Sys2Proof/Config.lean ====
section
/-! DEFINITION. The construction parameters of spec/00_scope.md R6 and the model's free values.
A machine carries one `Config` for its whole life (spec/10_state.md R47); log 1 says why it stands in
the state. -/

namespace Sys2Proof

/-- ENDIAN: the byte order of every multi-byte access (spec/20_memory.md R61). -/
inductive Endian where
  | little | big
  deriving DecidableEq, Repr

/-- MODE: which accessor is active (R7). -/
inductive Mode where
  | physical | paged
  deriving DecidableEq, Repr

/-- MOD_OVERFLOW: what INT32_MIN mod -1 does (spec/41_arithmetic.md R170). -/
inductive ModOverflow where
  | fault | zero
  deriving DecidableEq, Repr

/-- SHIFT_OVERSIZE: what a shift amount of 32 or more does (spec/42_logic_extend.md R194). -/
inductive ShiftOversize where
  | fault | mask5
  deriving DecidableEq, Repr

/-- OPCODE_MAP: the numeric value of each opcode's field (spec/30_encoding.md R109). -/
abbrev OpcodeMap := List (Opcode × Nat)

/-- The parameters fixed at construction (R6). -/
structure Config where
  /-- MEM_SIZE in bytes. -/
  memSize       : Nat
  mode          : Mode
  /-- PD_BASE, the physical address of the page directory. -/
  pdBase        : Word
  /-- FRAME_MASK (spec/20_memory.md R72, R83). -/
  frameMask     : Word
  /-- PTE_P_BIT, the Present flag's bit number. -/
  pteP          : Fin 32
  /-- PTE_RW_BIT, the Read/Write flag's bit number. -/
  pteRw         : Fin 32
  /-- PTE_S_BIT, the Supervisor flag's bit number; no rule reads that flag (R82). -/
  pteS          : Fin 32
  endian        : Endian
  opcodeMap     : OpcodeMap
  modOverflow   : ModOverflow
  shiftOversize : ShiftOversize
  /-- Is a TRACE observer attached (spec/40_execution_loop.md R152)? -/
  trace         : Bool
  deriving DecidableEq, Repr

/-- The bounds on MEM_SIZE outside which construction is refused
(R6, spec/70_reset_and_hazards.md R360). -/
abbrev Config.Legal (c : Config) : Prop :=
  c.memSize % 2 = 0 ∧ 4 ≤ c.memSize ∧ c.memSize ≤ 2 ^ 32

/-- FREE VALUE: what the IP holds after a Brk (spec/48_system.md R303) or after a fault
(spec/60_exceptions.md R326). It has no body, so nothing can be proved of it; the step applies it to
a counter of the state, so two draws are unrelated. Log 5. -/
opaque Config.freeIp : Nat → BitVec 31

end Sys2Proof
end

