-- ==== Sys2Proof/WellFormed.lean ====
section
/-! DEFINITION. Well-formed instructions: those whose operands their encoding can hold. Registers
and 32-bit immediates have no ill-formed value (their types hold exactly 16 and 2^32 values). -/

namespace Sys2Proof

/-- A branch displacement fits the signed 10-bit field (R103). -/
def dispFits (d : Int) : Bool := decide (-512 ≤ d) && decide (d ≤ 511)

/-- A short immediate fits the unsigned 8-bit field (R104). -/
def immFits (n : Nat) : Bool := decide (n ≤ 255)

/-- An offset fits the signed 16-bit extension word (R107). -/
def offFits (o : Int) : Bool := decide (-32768 ≤ o) && decide (o ≤ 32767)

/-- The instruction has an encoding. -/
def Instr.wellFormed : Instr → Bool
  | .add _ _ => true
  | .sub _ _ => true
  | .neg _ _ => true
  | .inc _ n => immFits n
  | .dec _ n => immFits n
  | .mul _ _ => true
  | .mulX _ _ => true
  | .umulX _ _ => true
  | .div _ _ => true
  | .udiv _ _ => true
  | .mod _ _ => true
  | .umod _ _ => true
  | .and _ _ => true
  | .or _ _ => true
  | .xor _ _ => true
  | .not _ _ => true
  | .ashl _ _ => true
  | .ashr _ _ => true
  | .lshr _ _ => true
  | .sexB _ _ => true
  | .sexS _ _ => true
  | .zexB _ _ => true
  | .zexS _ _ => true
  | .cmp _ _ => true
  | .beq d => dispFits d
  | .bne d => dispFits d
  | .bge d => dispFits d
  | .bgt d => dispFits d
  | .ble d => dispFits d
  | .blt d => dispFits d
  | .bgeu d => dispFits d
  | .bgtu d => dispFits d
  | .bleu d => dispFits d
  | .bltu d => dispFits d
  | .jmp _ => true
  | .jmpa _ => true
  | .jsr _ => true
  | .jsra _ => true
  | .ret => true
  | .push _ _ => true
  | .pop _ _ => true
  | .ldB _ _ => true
  | .ldS _ _ => true
  | .ldL _ _ => true
  | .stB _ _ => true
  | .stS _ _ => true
  | .stL _ _ => true
  | .ldaB _ _ => true
  | .ldaS _ _ => true
  | .ldaL _ _ => true
  | .staB _ _ => true
  | .staS _ _ => true
  | .staL _ _ => true
  | .ldoB _ _ o => offFits o
  | .ldoS _ _ o => offFits o
  | .ldoL _ _ o => offFits o
  | .stoB _ _ o => offFits o
  | .stoS _ _ o => offFits o
  | .stoL _ _ o => offFits o
  | .ldiL _ _ => true
  | .ldiB _ _ => true
  | .ldiS _ _ => true
  | .mov _ _ => true
  | .gsr _ n => immFits n
  | .ssr _ n => immFits n
  | .swi _ => true
  | .brk => true
  | .nop => true

end Sys2Proof
end

