-- ==== Sys2Proof/Decode.lean ====
section
/-! DEFINITION. The decoder of spec/30_encoding.md, total on any bytes and rejecting by name, and after
it the encoder (R118), both over the parameters ENDIAN and OPCODE_MAP. The byte-order helpers and the
standard parameter values of spec/00_scope.md R6 stand here too. -/

namespace Sys2Proof

/-! ### Byte order (spec/20_memory.md R61) -/

/-- The value of bytes whose first is the least significant. -/
def littleValue : List Byte → Nat
  | [] => 0
  | b :: bs => b.toNat + 256 * littleValue bs

/-- The value of the bytes of one access, lowest address first, in ENDIAN order (R61). -/
def bytesValue (e : Endian) (bs : List Byte) : Nat :=
  match e with
  | .little => littleValue bs
  | .big => littleValue bs.reverse

/-- The low `n` bytes of `v`, least significant first. -/
def littleBytes : Nat → Nat → List Byte
  | 0, _ => []
  | n + 1, v => BitVec.ofNat 8 v :: littleBytes n (v / 256)

/-- The low `n` bytes of `v` as one access lays them out, lowest address first (R61, R63). -/
def valueBytes (e : Endian) (n v : Nat) : List Byte :=
  match e with
  | .little => littleBytes n v
  | .big => (littleBytes n v).reverse

/-- How many bytes an access of this width moves (spec/20_memory.md R66). -/
def Width.bytes : Width → Nat
  | .byte => 1
  | .short => 2
  | .long => 4

/-! ### The opcode set and OPCODE_MAP (R105, R108, R109) -/

/-- The format each opcode uses (R108). -/
def Opcode.format : Opcode → Format
  | .inc | .dec | .gsr | .ssr => .shortImm
  | .beq | .bne | .blt | .bgt | .bltu | .bgtu | .bge | .ble | .bgeu | .bleu => .branch
  | .ldiL | .mov | .jsra | .ret | .add | .push | .pop | .ldaL | .staL | .ldL | .stL | .ldoL | .stoL | .cmp => .register
  | .nop | .sexB | .sexS | .zexB | .zexS | .umulX | .mulX | .jsr | .jmpa | .ldiB | .ldB | .ldaB | .stB | .staB => .register
  | .ldiS | .ldS | .ldaS | .stS | .staS | .jmp | .and | .lshr | .ashl | .sub | .neg | .or | .not | .ashr => .register
  | .xor | .mul | .swi | .div | .udiv | .mod | .umod | .brk | .ldoB | .stoB | .ldoS | .stoS => .register

/-- The extension an opcode has (R105): a 4-byte immediate, a 2-byte offset, or none. -/
def Opcode.ext : Opcode → Option Width
  | .ldiL | .jsra | .ldaL | .staL | .jmpa | .ldiB | .ldaB | .staB | .ldiS | .ldaS | .staS | .swi => some .long
  | .ldoL | .stoL | .ldoB | .stoB | .ldoS | .stoS => some .short
  | .mov | .ret | .add | .push | .pop | .ldL | .stL | .cmp | .nop | .sexB | .sexS | .zexB | .zexS | .umulX => none
  | .mulX | .jsr | .ldB | .stB | .ldS | .stS | .jmp | .and | .lshr | .ashl | .sub | .neg | .or | .not => none
  | .ashr | .xor | .mul | .div | .udiv | .mod | .umod | .brk | .inc | .dec | .gsr | .ssr | .beq | .bne => none
  | .blt | .bgt | .bltu | .bgtu | .bge | .ble | .bgeu | .bleu => none

/-- The bytes of an extension. -/
def extBytes : Option Width → Nat
  | none => 0
  | some w => w.bytes

/-- The instruction length in 16-bit words: 1, 2 or 3 (R105). -/
def Opcode.words (op : Opcode) : Nat := 1 + extBytes op.ext / 2

/-- The 68 opcodes. -/
def Opcode.all : List Opcode :=
  ([.add, .sub, .neg, .inc, .dec, .mul, .mulX, .umulX, .div, .udiv, .mod, .umod] : List Opcode) ++
  ([.and, .or, .xor, .not, .ashl, .ashr, .lshr, .sexB, .sexS, .zexB, .zexS] : List Opcode) ++
  ([.cmp, .beq, .bne, .bge, .bgt, .ble, .blt, .bgeu, .bgtu, .bleu, .bltu] : List Opcode) ++
  ([.jmp, .jmpa, .jsr, .jsra, .ret] : List Opcode) ++
  ([.push, .pop] : List Opcode) ++
  ([.ldB, .ldS, .ldL, .stB, .stS, .stL, .ldaB, .ldaS, .ldaL, .staB, .staS, .staL, .ldoB, .ldoS, .ldoL, .stoB, .stoS, .stoL] : List Opcode) ++
  ([.ldiL, .ldiB, .ldiS, .mov] : List Opcode) ++
  ([.gsr, .ssr, .swi, .brk, .nop] : List Opcode)

/-- The values an opcode field of this format can hold: the top bits of the word select the format
and belong to the field (R101). -/
def Format.admits : Format → Nat → Bool
  | .register, v => decide (v < 0x80)
  | .shortImm, v => decide (0x8 ≤ v) && decide (v < 0xC)
  | .branch, v => decide (0x30 ≤ v) && decide (v < 0x40)

/-- The opcode with this format and field value, if the map has one (R101, R133: an opcode is
identified by the pair). -/
def OpcodeMap.find (m : OpcodeMap) (f : Format) (v : Nat) : Option Opcode :=
  match m with
  | [] => none
  | (op, k) :: rest => if op.format = f ∧ k = v then some op else OpcodeMap.find rest f v

/-- The field value of an opcode (0, which R112 makes illegal, where the map lacks it). -/
def OpcodeMap.valueOf (m : OpcodeMap) (op : Opcode) : Nat :=
  match m with
  | [] => 0
  | (o, k) :: rest => if o = op then k else OpcodeMap.valueOf rest op

/-- An assignment of values to opcodes: every opcode of the closed set has one entry (R108, R133),
no two share a format and a value, and each value fits its format's field (R101). -/
abbrev OpcodeMap.Lawful (m : OpcodeMap) : Prop :=
  (∀ op ∈ Opcode.all, op ∈ m.map Prod.fst) ∧
  m.Pairwise (fun p q => p.1 ≠ q.1 ∧ ¬ (p.1.format = q.1.format ∧ p.2 = q.2)) ∧
  ∀ p ∈ m, p.1.format.admits p.2 = true

/-- The default OPCODE_MAP, from the tables of R109 (log 10): register format, `w[15:8]`. -/
def standardRegisterMap : OpcodeMap :=
  ([(.ldiL, 0x01), (.mov, 0x02), (.jsra, 0x03), (.ret, 0x04), (.add, 0x05), (.push, 0x06)] : OpcodeMap) ++
  ([(.pop, 0x07), (.ldaL, 0x08), (.staL, 0x09), (.ldL, 0x0A), (.stL, 0x0B), (.ldoL, 0x0C)] : OpcodeMap) ++
  ([(.stoL, 0x0D), (.cmp, 0x0E), (.nop, 0x0F), (.sexB, 0x10), (.sexS, 0x11), (.zexB, 0x12)] : OpcodeMap) ++
  ([(.zexS, 0x13), (.umulX, 0x14), (.mulX, 0x15), (.jsr, 0x19), (.jmpa, 0x1A), (.ldiB, 0x1B)] : OpcodeMap) ++
  ([(.ldB, 0x1C), (.ldaB, 0x1D), (.stB, 0x1E), (.staB, 0x1F), (.ldiS, 0x20), (.ldS, 0x21)] : OpcodeMap) ++
  ([(.ldaS, 0x22), (.stS, 0x23), (.staS, 0x24), (.jmp, 0x25), (.and, 0x26), (.lshr, 0x27)] : OpcodeMap) ++
  ([(.ashl, 0x28), (.sub, 0x29), (.neg, 0x2A), (.or, 0x2B), (.not, 0x2C), (.ashr, 0x2D)] : OpcodeMap) ++
  ([(.xor, 0x2E), (.mul, 0x2F), (.swi, 0x30), (.div, 0x31), (.udiv, 0x32), (.mod, 0x33)] : OpcodeMap) ++
  ([(.umod, 0x34), (.brk, 0x35), (.ldoB, 0x36), (.stoB, 0x37), (.ldoS, 0x38), (.stoS, 0x39)] : OpcodeMap)

/-- The default OPCODE_MAP: short-immediate format, `w[15:12]` (R109). -/
def standardShortMap : OpcodeMap :=
  ([(.inc, 0x08), (.dec, 0x09), (.gsr, 0x0A), (.ssr, 0x0B)] : OpcodeMap)

/-- The default OPCODE_MAP: branch format, `w[15:10]` (R109). -/
def standardBranchMap : OpcodeMap :=
  ([(.beq, 0x30), (.bne, 0x31), (.blt, 0x32), (.bgt, 0x33), (.bltu, 0x34), (.bgtu, 0x35)] : OpcodeMap) ++
  ([(.bge, 0x36), (.ble, 0x37), (.bgeu, 0x38), (.bleu, 0x39)] : OpcodeMap)

/-- The default OPCODE_MAP (R109). -/
def OpcodeMap.standard : OpcodeMap :=
  standardRegisterMap ++ standardShortMap ++ standardBranchMap

/-! ### The instruction word (R101 to R104) -/

/-- `w[hi:lo]` as an unsigned integer (spec/00_scope.md R8). -/
def bits (w : Half) (hi lo : Nat) : Nat := w.toNat / 2 ^ lo % 2 ^ (hi + 1 - lo)

/-- An `n`-bit field read as two's complement: `v` below `2^(n-1)`, else `v - 2^n` (R103, R107). -/
def signedField (n v : Nat) : Int := if v < 2 ^ (n - 1) then (v : Int) else (v : Int) - 2 ^ n

/-- `decode(w)` of R102: total and pure (R114). The format is chosen by `w[15:14]` (R101). -/
def decodeRecord (w : Half) : Record :=
  if bits w 15 14 = 3 then
    ⟨.branch, bits w 15 10, 0, 0, signedField 10 (bits w 9 0)⟩
  else if bits w 15 14 = 2 then
    ⟨.shortImm, bits w 15 12, Fin.ofNat 16 (bits w 11 8), 0, (bits w 7 0 : Nat)⟩
  else
    ⟨.register, bits w 15 8, Fin.ofNat 16 (bits w 7 4), Fin.ofNat 16 (bits w 3 0), 0⟩

/-- The instruction that an opcode, its word's fields and its extension make. Fields the opcode does
not use are dropped: they are don't-care bits (R111). -/
def Parts.build (p : Parts) : Instr :=
  match p.op with
  | .add => .add p.a p.b
  | .sub => .sub p.a p.b
  | .neg => .neg p.a p.b
  | .inc => .inc p.a p.value.toNat
  | .dec => .dec p.a p.value.toNat
  | .mul => .mul p.a p.b
  | .mulX => .mulX p.a p.b
  | .umulX => .umulX p.a p.b
  | .div => .div p.a p.b
  | .udiv => .udiv p.a p.b
  | .mod => .mod p.a p.b
  | .umod => .umod p.a p.b
  | .and => .and p.a p.b
  | .or => .or p.a p.b
  | .xor => .xor p.a p.b
  | .not => .not p.a p.b
  | .ashl => .ashl p.a p.b
  | .ashr => .ashr p.a p.b
  | .lshr => .lshr p.a p.b
  | .sexB => .sexB p.a p.b
  | .sexS => .sexS p.a p.b
  | .zexB => .zexB p.a p.b
  | .zexS => .zexS p.a p.b
  | .cmp => .cmp p.a p.b
  | .beq => .beq p.value
  | .bne => .bne p.value
  | .bge => .bge p.value
  | .bgt => .bgt p.value
  | .ble => .ble p.value
  | .blt => .blt p.value
  | .bgeu => .bgeu p.value
  | .bgtu => .bgtu p.value
  | .bleu => .bleu p.value
  | .bltu => .bltu p.value
  | .jmp => .jmp p.a
  | .jmpa => .jmpa p.ext
  | .jsr => .jsr p.a
  | .jsra => .jsra p.ext
  | .ret => .ret
  | .push => .push p.a p.b
  | .pop => .pop p.a p.b
  | .ldB => .ldB p.a p.b
  | .ldS => .ldS p.a p.b
  | .ldL => .ldL p.a p.b
  | .stB => .stB p.a p.b
  | .stS => .stS p.a p.b
  | .stL => .stL p.a p.b
  | .ldaB => .ldaB p.a p.ext
  | .ldaS => .ldaS p.a p.ext
  | .ldaL => .ldaL p.a p.ext
  | .staB => .staB p.a p.ext
  | .staS => .staS p.a p.ext
  | .staL => .staL p.a p.ext
  | .ldoB => .ldoB p.a p.b (signedField 16 (p.ext.toNat % 65536))
  | .ldoS => .ldoS p.a p.b (signedField 16 (p.ext.toNat % 65536))
  | .ldoL => .ldoL p.a p.b (signedField 16 (p.ext.toNat % 65536))
  | .stoB => .stoB p.a p.b (signedField 16 (p.ext.toNat % 65536))
  | .stoS => .stoS p.a p.b (signedField 16 (p.ext.toNat % 65536))
  | .stoL => .stoL p.a p.b (signedField 16 (p.ext.toNat % 65536))
  | .ldiL => .ldiL p.a p.ext
  | .ldiB => .ldiB p.a p.ext
  | .ldiS => .ldiS p.a p.ext
  | .mov => .mov p.a p.b
  | .gsr => .gsr p.a p.value.toNat
  | .ssr => .ssr p.a p.value.toNat
  | .swi => .swi p.ext
  | .brk => .brk
  | .nop => .nop

/-- Why bytes are no instruction. -/
inductive DecodeError where
  /-- Fewer bytes than the instruction word, or than its extension words. -/
  | truncated
  /-- The opcode field's value is not in OPCODE_MAP (R112, spec/48_system.md R305). -/
  | illegalOpcode (format : Format) (value : Nat)
  deriving DecidableEq, Repr

/-- The extension of an instruction from the bytes after its word, with the bytes left over
(R105 to R107). -/
def takeExt (e : Endian) (n : Nat) (bytes : List Byte) : Option (Word × List Byte) :=
  if n ≤ bytes.length then
    some (BitVec.ofNat 32 (bytesValue e (bytes.take n)), bytes.drop n)
  else none

/-- The decoder: the first instruction of a list of bytes and the bytes after it. -/
def decode (m : OpcodeMap) (e : Endian) (bytes : List Byte) :
    Except DecodeError (Instr × List Byte) :=
  match bytes with
  | b0 :: b1 :: rest =>
    let r := decodeRecord (BitVec.ofNat 16 (bytesValue e [b0, b1]))
    match m.find r.format r.field with
    | none => .error (.illegalOpcode r.format r.field)
    | some op =>
      match takeExt e (extBytes op.ext) rest with
      | none => .error .truncated
      | some (x, rest') => .ok (Parts.build ⟨op, r.a, r.b, r.value, x⟩, rest')
  | _ => .error .truncated

/-! ### The encoder (R118) -/

/-- An instruction taken apart; fields it does not use are 0. -/
def Instr.parts : Instr → Parts
  | .add a b => ⟨.add, a, b, 0, 0⟩
  | .sub a b => ⟨.sub, a, b, 0, 0⟩
  | .neg a b => ⟨.neg, a, b, 0, 0⟩
  | .inc a n => ⟨.inc, a, 0, (n : Int), 0⟩
  | .dec a n => ⟨.dec, a, 0, (n : Int), 0⟩
  | .mul a b => ⟨.mul, a, b, 0, 0⟩
  | .mulX a b => ⟨.mulX, a, b, 0, 0⟩
  | .umulX a b => ⟨.umulX, a, b, 0, 0⟩
  | .div a b => ⟨.div, a, b, 0, 0⟩
  | .udiv a b => ⟨.udiv, a, b, 0, 0⟩
  | .mod a b => ⟨.mod, a, b, 0, 0⟩
  | .umod a b => ⟨.umod, a, b, 0, 0⟩
  | .and a b => ⟨.and, a, b, 0, 0⟩
  | .or a b => ⟨.or, a, b, 0, 0⟩
  | .xor a b => ⟨.xor, a, b, 0, 0⟩
  | .not a b => ⟨.not, a, b, 0, 0⟩
  | .ashl a b => ⟨.ashl, a, b, 0, 0⟩
  | .ashr a b => ⟨.ashr, a, b, 0, 0⟩
  | .lshr a b => ⟨.lshr, a, b, 0, 0⟩
  | .sexB a b => ⟨.sexB, a, b, 0, 0⟩
  | .sexS a b => ⟨.sexS, a, b, 0, 0⟩
  | .zexB a b => ⟨.zexB, a, b, 0, 0⟩
  | .zexS a b => ⟨.zexS, a, b, 0, 0⟩
  | .cmp a b => ⟨.cmp, a, b, 0, 0⟩
  | .beq d => ⟨.beq, 0, 0, d, 0⟩
  | .bne d => ⟨.bne, 0, 0, d, 0⟩
  | .bge d => ⟨.bge, 0, 0, d, 0⟩
  | .bgt d => ⟨.bgt, 0, 0, d, 0⟩
  | .ble d => ⟨.ble, 0, 0, d, 0⟩
  | .blt d => ⟨.blt, 0, 0, d, 0⟩
  | .bgeu d => ⟨.bgeu, 0, 0, d, 0⟩
  | .bgtu d => ⟨.bgtu, 0, 0, d, 0⟩
  | .bleu d => ⟨.bleu, 0, 0, d, 0⟩
  | .bltu d => ⟨.bltu, 0, 0, d, 0⟩
  | .jmp a => ⟨.jmp, a, 0, 0, 0⟩
  | .jmpa v => ⟨.jmpa, 0, 0, 0, v⟩
  | .jsr a => ⟨.jsr, a, 0, 0, 0⟩
  | .jsra v => ⟨.jsra, 0, 0, 0, v⟩
  | .ret => ⟨.ret, 0, 0, 0, 0⟩
  | .push a b => ⟨.push, a, b, 0, 0⟩
  | .pop a b => ⟨.pop, a, b, 0, 0⟩
  | .ldB a b => ⟨.ldB, a, b, 0, 0⟩
  | .ldS a b => ⟨.ldS, a, b, 0, 0⟩
  | .ldL a b => ⟨.ldL, a, b, 0, 0⟩
  | .stB a b => ⟨.stB, a, b, 0, 0⟩
  | .stS a b => ⟨.stS, a, b, 0, 0⟩
  | .stL a b => ⟨.stL, a, b, 0, 0⟩
  | .ldaB a v => ⟨.ldaB, a, 0, 0, v⟩
  | .ldaS a v => ⟨.ldaS, a, 0, 0, v⟩
  | .ldaL a v => ⟨.ldaL, a, 0, 0, v⟩
  | .staB a v => ⟨.staB, a, 0, 0, v⟩
  | .staS a v => ⟨.staS, a, 0, 0, v⟩
  | .staL a v => ⟨.staL, a, 0, 0, v⟩
  | .ldoB a b o => ⟨.ldoB, a, b, 0, BitVec.ofNat 32 (o % 65536).toNat⟩
  | .ldoS a b o => ⟨.ldoS, a, b, 0, BitVec.ofNat 32 (o % 65536).toNat⟩
  | .ldoL a b o => ⟨.ldoL, a, b, 0, BitVec.ofNat 32 (o % 65536).toNat⟩
  | .stoB a b o => ⟨.stoB, a, b, 0, BitVec.ofNat 32 (o % 65536).toNat⟩
  | .stoS a b o => ⟨.stoS, a, b, 0, BitVec.ofNat 32 (o % 65536).toNat⟩
  | .stoL a b o => ⟨.stoL, a, b, 0, BitVec.ofNat 32 (o % 65536).toNat⟩
  | .ldiL a v => ⟨.ldiL, a, 0, 0, v⟩
  | .ldiB a v => ⟨.ldiB, a, 0, 0, v⟩
  | .ldiS a v => ⟨.ldiS, a, 0, 0, v⟩
  | .mov a b => ⟨.mov, a, b, 0, 0⟩
  | .gsr a n => ⟨.gsr, a, 0, (n : Int), 0⟩
  | .ssr a n => ⟨.ssr, a, 0, (n : Int), 0⟩
  | .swi v => ⟨.swi, 0, 0, 0, v⟩
  | .brk => ⟨.brk, 0, 0, 0, 0⟩
  | .nop => ⟨.nop, 0, 0, 0, 0⟩

/-- The opcode of an instruction. -/
def Instr.opcode (i : Instr) : Opcode := i.parts.op

/-- The instruction word of R118 from its fields. -/
def encodeRecord (r : Record) : Half :=
  BitVec.ofNat 16 <|
    match r.format with
    | .register => r.field * 2 ^ 8 + r.a.val * 2 ^ 4 + r.b.val
    | .shortImm => r.field * 2 ^ 12 + r.a.val * 2 ^ 8 + (r.value % 256).toNat
    | .branch => r.field * 2 ^ 10 + (r.value % 1024).toNat

/-- The record whose word encodes an instruction under an opcode map. -/
def Parts.record (m : OpcodeMap) (p : Parts) : Record :=
  ⟨p.op.format, m.valueOf p.op, p.a, p.b, p.value⟩

/-- The bytes of an instruction: its word, then its extension words (R106, R107, R118). -/
def encode (m : OpcodeMap) (e : Endian) (i : Instr) : List Byte :=
  valueBytes e 2 (encodeRecord (i.parts.record m)).toNat ++
    valueBytes e (extBytes i.opcode.ext) i.parts.ext.toNat

/-! ### The standard parameters and the host's reading of the opcode table -/

/-- The parameters of the machine at reset: R6's defaults, ENDIAN = little as in the test vectors, and
for what R6 gives no default for: the largest MEM_SIZE, physical mode, PD_BASE 0, no TRACE observer
(log 2). -/
def Config.standard : Config where
  memSize := 2 ^ 32
  mode := .physical
  pdBase := 0
  frameMask := 0xFFFFFC00#32
  pteP := 0
  pteRw := 1
  pteS := 2
  endian := .little
  opcodeMap := OpcodeMap.standard
  modOverflow := .fault
  shiftOversize := .fault
  trace := false

/-- The longest instruction's bytes as the hardware stores them: three 16-bit words, the first at the
lowest address, each in ENDIAN order; bit 0 of `w` is bit 0 of the first word. -/
def tableBytes (e : Endian) (nbits w : Nat) : List Byte :=
  let v := w % 2 ^ nbits
  valueBytes e 2 (v % 2 ^ 16) ++ valueBytes e 2 (v / 2 ^ 16 % 2 ^ 16) ++
    valueBytes e 2 (v / 2 ^ 32 % 2 ^ 16)

/-- The instruction the decoder reads from bits numbered as the opcode table numbers them, under the
standard parameters. -/
def decodeTableWord (nbits w : Nat) : Option Instr :=
  match decode OpcodeMap.standard Endian.little (tableBytes Endian.little nbits w) with
  | .ok (i, _) => some i
  | .error _ => none

end Sys2Proof
end

