-- ==== Sys2Proof/Machine/State.lean ====
section
/-! DEFINITION. The machine's state, spec/10_state.md R49, as plain data, with the state right after
construction (spec/70_reset_and_hazards.md R361) and the two ways a step can fail to give a next
state. -/

namespace Sys2Proof.Machine

/-- A three-way comparison result, -1, 0 or +1 (spec/00_scope.md R13, spec/10_state.md R39). -/
inductive Cmp3 where
  | less | equal | greater
  deriving DecidableEq, Repr

/-- The comparison status `CS` (R39): `signed` is `CS.s`, `unsigned` is `CS.u`. -/
structure CompareStatus where
  signed   : Cmp3
  unsigned : Cmp3
  deriving DecidableEq, Repr

/-- The run state (R45). -/
inductive RunState where
  | running | halted
  deriving DecidableEq, Repr

/-- The fault kinds of spec/60_exceptions.md R320. -/
inductive FaultKind where
  /-- Any word whose opcode is not in OPCODE_MAP. -/
  | illegalOpcode
  /-- Div, Udiv, Mod, Umod with a zero divisor. -/
  | divisionByZero
  /-- A jump or call target that is odd; `execute` with an odd start. -/
  | jumpToUnalignedAddress
  /-- A physical access that does not fit; a register+offset address outside 32 bits. -/
  | memoryOutOfRange
  /-- A walk whose directory entry's Present bit is clear. -/
  | pageDirectoryEntryNotPresent
  /-- A walk whose table entry's Present bit is clear. -/
  | pageNotPresent
  /-- A write whose resolved entry's Read/Write bit is clear. -/
  | pageReadOnly
  /-- A walk whose table entry's frame is at least MEM_SIZE. -/
  | physicalAddressOutOfRange
  /-- Swi. -/
  | softwareInterrupt
  /-- Gsr or Ssr with an index of 10 or more. -/
  | specialRegisterIndexInvalid
  /-- Mod of INT32_MIN by -1 with MOD_OVERFLOW = fault. -/
  | remainderOverflow
  /-- A shift amount of 32 or more with SHIFT_OVERSIZE = fault. -/
  | shiftAmountOutOfRange
  /-- A next IP outside `[0, 2^31)`. -/
  | ipOutOfRange
  deriving DecidableEq, Repr

/-- The two results of an `execute` call (spec/70_reset_and_hazards.md R363). -/
inductive RunResult where
  | halted
  | faulted (kind : FaultKind)
  deriving DecidableEq, Repr

/-- A TLB slot (R44). -/
structure TlbEntry where
  tag : Word
  pte : Word
  deriving DecidableEq, Repr

/-- An empty slot: tag SENTINEL, payload 0 (R44, spec/20_memory.md R76). -/
def TlbEntry.empty : TlbEntry := ⟨0xFFFFFFFF#32, 0#32⟩

/-- A call of the TRACE observer (spec/40_execution_loop.md R152). -/
inductive TraceEvent where
  /-- `TRACE.instruction(ins, a)`. -/
  | instruction (ins : Record) (address : Nat)
  /-- `TRACE.immediate(v)` after an Imm32 fetch. -/
  | immediate32 (v : Word)
  /-- `TRACE.immediate(v)` after an Off16 fetch, before sign extension. -/
  | immediate16 (v : Half)
  deriving DecidableEq, Repr

/-- Physical memory: the bytes that are not 0, by rising address (spec/20_memory.md R60, log 3). -/
abbrev Memory := List Host.Cell

/-- The TLB: the slots that are not empty, by rising index (spec/10_state.md R44). -/
abbrev Tlb := List (Nat × TlbEntry)

/-- The whole state (R49), the result of the `execute` call (log 4), the construction parameters
(log 1), and the model's own two fields `free` (log 5) and `trace` (log 19). -/
structure State where
  /-- `x[0..15]`: FP, SP, R0 to R13 (R30, R31). -/
  regs   : Vector Word 16
  /-- `sr[0..9]` (R35). -/
  sregs  : Vector Word 10
  /-- `CS` (R39). -/
  cs     : CompareStatus
  /-- `IP`, a word index (R40). -/
  ip     : BitVec 31
  /-- The run state (R45). -/
  run    : RunState
  /-- `ICOUNT` (R46). -/
  icount : BitVec 64
  /-- `M` (R43). -/
  mem    : Memory
  /-- `TLB[0..1023]` (R44). -/
  tlb    : Tlb
  /-- The result the current `execute` call has returned, if it has (log 4). -/
  result : Option RunResult
  /-- The construction parameters, which no step changes (R47, log 1). -/
  cfg    : Config
  /-- How many free values have been drawn (log 5). -/
  free   : Nat
  /-- The TRACE calls so far, oldest first (R152, log 19). -/
  trace  : List TraceEvent
  deriving DecidableEq, Repr

/-- The state at construction (spec/70_reset_and_hazards.md R361) from parameters and from initial
memory contents MEM_INIT in canonical form. -/
def State.initial (cfg : Config) (memInit : Memory) : State where
  regs := Vector.replicate 16 0#32
  sregs := Vector.replicate 10 0#32
  cs := ⟨.equal, .equal⟩
  ip := 0#31
  run := .running
  icount := 0#64
  mem := memInit
  tlb := []
  result := none
  cfg := cfg
  free := 0
  trace := []

/-- The machine right after reset: the CORE's reset is its construction (R360), here from the standard
parameters (log 2) with every byte of memory 0 (log 3). -/
def State.reset : State := State.initial Config.standard []

/-- Why a step gives no next state. Every fault of the spec is a NEXT state (log 4); these are the
stuck states of spec/40_execution_loop.md R146. -/
inductive Fault where
  /-- Raised by `step` on a state whose run state is Halted: it has no step until the host calls
  `execute` again (R146). Safe: the machine does not step there either. -/
  | halted
  /-- Raised by `step` after a fault has ended the `execute` call: no further step runs until the
  host calls `execute` again (spec/60_exceptions.md R327). Safe: the machine does not step there
  either. -/
  | runEnded
  deriving DecidableEq, Repr

/-- Why the model gives an instruction no meaning. -/
inductive Refusal where
  /-- Raised by an arm of `exec` whose instruction has no meaning yet. Safe: nothing follows. -/
  | notModelled (mnemonic : String)
  deriving DecidableEq, Repr

end Sys2Proof.Machine
end

