-- ==== Sys2Proof/Machine/Memory.lean ====
section
/-! DEFINITION. Sparse tables by rising key, and over them the byte array of spec/20_memory.md R60 to
R67 and the TLB's slots (spec/10_state.md R44). -/

namespace Sys2Proof.Machine

/-! ### Tables: what a key not listed holds is `d`, and no listed entry holds `d` -/

/-- The value at a key. -/
def sparseGet {α : Type} (d : α) (m : List (Nat × α)) (k : Nat) : α :=
  match m with
  | [] => d
  | (j, v) :: rest => if j = k then v else sparseGet d rest k

/-- A new entry in its place by rising key. -/
def sparseInsert {α : Type} (m : List (Nat × α)) (k : Nat) (v : α) : List (Nat × α) :=
  match m with
  | [] => [(k, v)]
  | (j, w) :: rest => if k < j then (k, v) :: (j, w) :: rest else (j, w) :: sparseInsert rest k v

/-- The table without the entries of a key. -/
def sparseErase {α : Type} (m : List (Nat × α)) (k : Nat) : List (Nat × α) :=
  match m with
  | [] => []
  | (j, w) :: rest => if j = k then sparseErase rest k else (j, w) :: sparseErase rest k

/-- The table with a new value at a key; writing `d` removes the entry. -/
def sparseSet {α : Type} [DecidableEq α] (d : α) (m : List (Nat × α)) (k : Nat) (v : α) :
    List (Nat × α) :=
  if v = d then sparseErase m k else sparseInsert (sparseErase m k) k v

/-- The canonical form: keys strictly rising, no entry equal to what an unlisted key holds. -/
abbrev sparseCanonical {α : Type} (d : α) (m : List (Nat × α)) : Prop :=
  m.Pairwise (fun p q => p.1 < q.1) ∧ ∀ p ∈ m, p.2 ≠ d

/-! ### Physical memory -/

/-- What a byte of memory that is not listed reads as: the test vectors' MEM_INIT (log 3). -/
def unwrittenByte : Byte := 0#8

/-- The memory is in canonical form. -/
abbrev Memory.wf (m : Memory) : Prop := sparseCanonical unwrittenByte m

/-- `M[a]` (spec/10_state.md R43). -/
def Memory.read (m : Memory) (a : Nat) : Byte := sparseGet unwrittenByte m a

/-- `M[a] <- b`. -/
def Memory.write (m : Memory) (a : Nat) (b : Byte) : Memory := sparseSet unwrittenByte m a b

/-- `M[a], M[a+1], …`, `n` bytes. -/
def Memory.readBytes (m : Memory) (a : Nat) : Nat → List Byte
  | 0 => []
  | n + 1 => m.read a :: m.readBytes (a + 1) n

/-- `M[a], M[a+1], … <- bs`. -/
def Memory.writeBytes (m : Memory) (a : Nat) : List Byte → Memory
  | [] => m
  | b :: bs => (m.write a b).writeBytes (a + 1) bs

/-- The `n`-byte value at `a`, in ENDIAN order, zero-extended to 32 bits (R61). -/
def Memory.load (m : Memory) (e : Endian) (a : Nat) (w : Width) : Word :=
  BitVec.ofNat 32 (bytesValue e (m.readBytes a w.bytes))

/-- The low `8n` bits of `v` written at `a`, in ENDIAN order (R63). -/
def Memory.store (m : Memory) (e : Endian) (a : Nat) (w : Width) (v : Word) : Memory :=
  m.writeBytes a (valueBytes e w.bytes v.toNat)

/-! ### The TLB's slots -/

/-- The TLB is in canonical form. -/
abbrev Tlb.wf (t : Tlb) : Prop := sparseCanonical TlbEntry.empty t

/-- `TLB[i]` (spec/10_state.md R44). -/
def Tlb.slot (t : Tlb) (i : Nat) : TlbEntry := sparseGet TlbEntry.empty t i

/-- `TLB[i] <- e`, an unconditional replacement (spec/20_memory.md R78). -/
def Tlb.fill (t : Tlb) (i : Nat) (e : TlbEntry) : Tlb := sparseSet TlbEntry.empty t i e

end Sys2Proof.Machine
end

