-- ==== Sys2Proof/Machine/Ops.lean ====
section
/-! DEFINITION. The named operations over registers and physical memory, how an operation can end, and
the one way to take a fault (spec/60_exceptions.md R326) and to complete an instruction
(spec/40_execution_loop.md R137, R138). -/

namespace Sys2Proof.Machine

/-! ### Integers and words (spec/00_scope.md R9) -/

/-- `s32(v)`: the signed reading of a word. -/
def s32 (v : Word) : Int := v.toInt

/-- `u32(i)`: the word of an integer, modulo 2^32. -/
def u32 (i : Int) : Word := BitVec.ofInt 32 i

/-- `sext_n(v)` of the low `n` bits. -/
def sext (n : Nat) (v : Word) : Word := (v.setWidth n).signExtend 32

/-- `zext_n(v)` of the low `n` bits. -/
def zext (n : Nat) (v : Word) : Word := (v.setWidth n).setWidth 32

/-! ### Registers (spec/10_state.md R30 to R40) -/

/-- FP is register 0 (R31). -/
def fp : Reg := 0

/-- SP is register 1 (R31). -/
def sp : Reg := 1

/-- `x[i]`. No register is hardwired (R30). -/
def State.x (s : State) (i : Reg) : Word := s.regs[i.val]

/-- `x[i] <- v`. -/
def State.setX (s : State) (i : Reg) (v : Word) : State :=
  { s with regs := s.regs.set i.val v }

/-- `sr[i]`: plain storage (R36). -/
def State.sr (s : State) (i : Fin 10) : Word := s.sregs[i.val]

/-- `sr[i] <- v`: plain storage, no other effect (R36, R38). -/
def State.setSr (s : State) (i : Fin 10) (v : Word) : State :=
  { s with sregs := s.sregs.set i.val v }

/-- `CS <- c`. -/
def State.setCs (s : State) (c : CompareStatus) : State := { s with cs := c }

/-- `M <- m`. -/
def State.setMem (s : State) (m : Memory) : State := { s with mem := m }

/-- `M[a]` of the state. -/
def State.byte (s : State) (a : Nat) : Byte := s.mem.read a

/-- `TLB[i]` of the state. -/
def State.slot (s : State) (i : Nat) : TlbEntry := s.tlb.slot i

/-- A TRACE call, which does nothing where there is no observer (spec/40_execution_loop.md R152). -/
def State.emit (s : State) (e : TraceEvent) : State :=
  { s with trace := if s.cfg.trace then s.trace ++ [e] else s.trace }

/-! ### How an operation ends (spec/00_scope.md R12) -/

/-- An operation gives a value and the state after it, or raises a fault: then the instruction stops
at that point, with the writes made before it (`s`). -/
inductive Res (α : Type) where
  | ok (a : α) (s : State)
  | raise (k : FaultKind) (s : State)
  deriving DecidableEq, Repr

/-- One operation after another; a raise stops the rest. -/
def Res.andThen {α β : Type} (r : Res α) (f : α → State → Res β) : Res β :=
  match r with
  | .ok a s => f a s
  | .raise k s => .raise k s

/-- What an instruction's step answers. -/
abbrev StepResult := Host.Outcome State Fault Refusal

/-- TAKING A FAULT (spec/60_exceptions.md R326, R327, R330): the writes made before it persist (they
are in `s`), ICOUNT does not count the instruction, the run state does not become Halted, the
`execute` call returns `Faulted(k)`, and the IP is unspecified: a free value. No register is saved, no
handler address is read, no mode changes. There is no trap return (R331). -/
def State.takeFault (s : State) (k : FaultKind) : State :=
  { s with
    result := some (.faulted k)
    ip := Config.freeIp s.free
    free := s.free + 1 }

/-- `IP <- nip` and `ICOUNT <- ICOUNT + 1` (R138). -/
def State.advance (s : State) (nip : Int) : State :=
  { s with ip := BitVec.ofInt 31 nip, icount := s.icount + 1 }

/-- COMPLETING AN INSTRUCTION with next IP `nip`: IpOutOfRange outside `[0, 2^31)`, after all the
instruction's other writes (R137); else `IP <- nip` and `ICOUNT <- ICOUNT + 1` (R138). -/
def State.complete (s : State) (nip : Int) : State :=
  if 0 ≤ nip ∧ nip < 2 ^ 31 then s.advance nip else s.takeFault .ipOutOfRange

/-- HALTING (spec/48_system.md R303, spec/10_state.md R45): the run state is Halted, the `execute` call
returns normally, the instruction counts, and the IP is unspecified: a free value (log 5). -/
def State.halt (s : State) : State :=
  { s with
    run := .halted
    result := some .halted
    icount := s.icount + 1
    ip := Config.freeIp s.free
    free := s.free + 1 }

/-- The end of an instruction that computed its next IP or raised a fault. -/
def finish (r : Res Int) : StepResult :=
  match r with
  | .ok nip s => .next (s.complete nip)
  | .raise k s => .next (s.takeFault k)

/-- `IP + n` as an integer: the default next IP of an instruction of `n` words (R139). -/
def State.seqIp (s : State) (n : Nat) : Int := (s.ip.toNat + n : Nat)

/-! ### Physical memory accessors (spec/20_memory.md R62 to R64) -/

/-- `PhysRead(a, n)`: the bound is compared on integers, with no wrap. -/
def State.physRead (s : State) (a : Nat) (w : Width) : Res Word :=
  if s.cfg.memSize < a + w.bytes then .raise .memoryOutOfRange s
  else .ok (s.mem.load s.cfg.endian a w) s

/-- `PhysWrite(a, n, v)`: checked before any byte is written. -/
def State.physWrite (s : State) (a : Nat) (w : Width) (v : Word) : Res Unit :=
  if s.cfg.memSize < a + w.bytes then .raise .memoryOutOfRange s
  else .ok () (s.setMem (s.mem.store s.cfg.endian a w v))

end Sys2Proof.Machine
end

