-- ==== Sys2Proof/Machine/Paging.lean ====
section
/-! DEFINITION. The active accessor (spec/00_scope.md R7, spec/20_memory.md R70) and the paged translation
(R71 to R83). -/

namespace Sys2Proof.Machine

/-- The kind of an access (R75, R88): fetches, loads and pops are reads, stores and pushes writes. -/
inductive AccessKind where
  | read | write
  deriving DecidableEq, Repr

/-- The tag of a virtual address, `V >> 12` (R73). -/
def vTag (v : Word) : Word := v >>> 12

/-- The TLB index of a virtual address, `tag & 1023` (R73). -/
def vIndex (v : Word) : Nat := (vTag v &&& 1023#32).toNat

/-- The byte offset in the page, `V & 4095` (R71). -/
def vOffset (v : Word) : Nat := (v &&& 4095#32).toNat

/-- The directory index, `V[31:22]` (R71). -/
def vDirectory (v : Word) : Nat := (v >>> 22).toNat

/-- The table index, `(V >> 12) & 1023` (R71). -/
def vTable (v : Word) : Nat := (v >>> 12 &&& 1023#32).toNat

/-- The frame of a page-directory or page-table entry, `e & FRAME_MASK` (R72). -/
def Config.frame (c : Config) (e : Word) : Nat := (e &&& c.frameMask).toNat

/-- The Present bit of an entry (R72). -/
def Config.present (c : Config) (e : Word) : Bool := e.getLsbD c.pteP.val

/-- The Read/Write bit of an entry (R72). -/
def Config.writable (c : Config) (e : Word) : Bool := e.getLsbD c.pteRw.val

/-- The Supervisor bit of an entry (R72). No rule checks it (R82). -/
def Config.supervisor (c : Config) (e : Word) : Bool := e.getLsbD c.pteS.val

/-- `TLB[index] <- {tag, pte}` (R78). -/
def State.fillTlb (s : State) (i : Nat) (e : TlbEntry) : State :=
  { s with tlb := s.tlb.fill i e }

/-- The two-level walk of R75 on a miss: two physical reads, bounds-checked like any (R77); the TLB is
filled only when the walk completes (R78). -/
def State.walk (s : State) (v : Word) : Res Word :=
  (s.physRead (s.cfg.pdBase.toNat + vDirectory v * 4) .long).andThen fun pde s1 =>
    if Config.present s1.cfg pde = false then .raise .pageDirectoryEntryNotPresent s1
    else
      (s1.physRead (Config.frame s1.cfg pde + vTable v * 4) .long).andThen fun pte s2 =>
        if Config.present s2.cfg pte = false then .raise .pageNotPresent s2
        else if s2.cfg.memSize ≤ Config.frame s2.cfg pte then .raise .physicalAddressOutOfRange s2
        else .ok pte (s2.fillTlb (vIndex v) ⟨vTag v, pte⟩)

/-- The page-table entry of a virtual address: the cached one on a hit, with no read of memory (R74),
else the walk's. -/
def State.resolvePte (s : State) (v : Word) : Res Word :=
  if (s.slot (vIndex v)).tag = vTag v then .ok (s.slot (vIndex v)).pte s else s.walk v

/-- `Translate(V, kind)` (R75). The write check comes after the fill, on hit and miss (R78, R79); the
target is the sum `frame + offset`, not wrapped (R80, R83). -/
def State.translate (s : State) (v : Word) (kind : AccessKind) : Res Nat :=
  (s.resolvePte v).andThen fun e s1 =>
    if kind = .write ∧ Config.writable s1.cfg e = false then .raise .pageReadOnly s1
    else .ok (Config.frame s1.cfg e + vOffset v) s1

/-- The physical address an access at `a` goes to through the active accessor (R7, R70). `a` is an
integer (R64): in paged mode one outside 32 bits is no virtual address (log 6). -/
def State.target (s : State) (a : Nat) (kind : AccessKind) : Res Nat :=
  match s.cfg.mode with
  | .physical => .ok a s
  | .paged =>
    if 2 ^ 32 ≤ a then .raise .memoryOutOfRange s else s.translate (BitVec.ofNat 32 a) kind

/-- `MemRead(a, n)` (R70), zero-extended to 32 bits. A multi-byte access is translated once, at its
first byte (R81), and checked again at its physical target (R80). -/
def State.memRead (s : State) (a : Nat) (w : Width) : Res Word :=
  (s.target a .read).andThen fun p s1 => s1.physRead p w

/-- `MemWrite(a, n, v)` (R70). -/
def State.memWrite (s : State) (a : Nat) (w : Width) (v : Word) : Res Unit :=
  (s.target a .write).andThen fun p s1 => s1.physWrite p w v

end Sys2Proof.Machine
end

