-- ==== Sys2Proof/Machine/Operands.lean ====
section
/-! DEFINITION. Every operand form: extension words (spec/40_execution_loop.md R135, R136), effective
addresses (spec/46_load_store.md R263), jump targets (spec/44_jump_call_return.md R230), the special
register index (spec/48_system.md R300), and the shared ends of instructions that write one register,
load or store. -/

namespace Sys2Proof.Machine

/-! ### Extension words -/

/-- The byte address of the first extension word, `2·(IP + 1)`, an integer (R64, R135). -/
def State.extAddress (s : State) : Nat := 2 * (s.ip.toNat + 1)

/-- `Imm32()`: one 4-byte read, then the TRACE call (R135). -/
def State.imm32 (s : State) : Res Word :=
  (s.memRead s.extAddress .long).andThen fun v s1 => .ok v (s1.emit (.immediate32 v))

/-- `Off16()` before its sign extension: one 2-byte read, then the TRACE call (R136). -/
def State.off16 (s : State) : Res Word :=
  (s.memRead s.extAddress .short).andThen fun v s1 =>
    .ok v (s1.emit (.immediate16 (v.setWidth 16)))

/-- The extension of an opcode (R105, R147 point 4); 0 where it has none. -/
def State.fetchExt (s : State) (ext : Option Width) : Res Word :=
  match ext with
  | none => .ok 0#32 s
  | some .long => s.imm32
  | some _ => s.off16

/-! ### Effective addresses (R263) -/

/-- Register-indirect: `ea = x[r]`. -/
def State.eaIndirect (s : State) (r : Reg) : Nat := (s.x r).toNat

/-- Register+offset: the integer sum `x[r] + off`; outside 32 bits it is no address and the
instruction raises MemoryOutOfRange without any access. -/
def State.eaOffset (s : State) (r : Reg) (off : Int) : Res Nat :=
  let ea := ((s.x r).toNat : Int) + off
  if 0 ≤ ea ∧ ea < 2 ^ 32 then .ok ea.toNat s else .raise .memoryOutOfRange s

/-! ### Shared ends -/

/-- Write one register and go on to the next instruction. -/
def State.writeReg (s : State) (a : Reg) (v : Word) (words : Nat) : StepResult :=
  .next ((s.setX a v).complete (s.seqIp words))

/-- Write the register an operation computed, or take the fault it raised with nothing written. -/
def State.writeRegOr (s : State) (a : Reg) (r : Except FaultKind Word) (words : Nat) : StepResult :=
  match r with
  | .ok v => s.writeReg a v words
  | .error k => .next (s.takeFault k)

/-- A load (R260): read at `ea`, write `x[a]` with the value zero-extended. -/
def State.loadReg (s : State) (a : Reg) (ea : Nat) (w : Width) (words : Nat) : Res Int :=
  (s.memRead ea w).andThen fun v s1 => .ok (s.seqIp words) (s1.setX a v)

/-- A store (R261): the low bytes of `v` at `ea`. -/
def State.storeVal (s : State) (ea : Nat) (w : Width) (v : Word) (words : Nat) : Res Int :=
  (s.memWrite ea w v).andThen fun _ s1 => .ok (s.seqIp words) s1

/-- `JumpTo(t)` (spec/44_jump_call_return.md R230): the next IP is `t / 2`; an odd target faults. -/
def jumpTo (t : Word) (s : State) : Res Int :=
  if t.toNat % 2 = 1 then .raise .jumpToUnalignedAddress s else .ok ((t.toNat / 2 : Nat) : Int) s

/-- The special register an immediate names (spec/10_state.md R37): 0 to 9 are valid. -/
def specialIndex (imm : Nat) : Option (Fin 10) := if h : imm < 10 then some ⟨imm, h⟩ else none

end Sys2Proof.Machine
end

