-- ==== Sys2Proof/Machine/Alu.lean ====
section
/-! DEFINITION. The arithmetic unit's results on register values (spec/41_arithmetic.md,
spec/42_logic_extend.md). Operands are taken to integers, computed exactly and narrowed once, as the
pseudocode does. -/

namespace Sys2Proof.Machine

/-- INT32_MIN. -/
def int32Min : Word := 0x80000000#32

/-- The word of -1. -/
def minusOne : Word := 0xFFFFFFFF#32

/-- R160: `u32(a + b)`. -/
def aluAdd (a b : Word) : Word := u32 ((a.toNat : Int) + b.toNat)

/-- R161: `u32(a - b)`. -/
def aluSub (a b : Word) : Word := u32 ((a.toNat : Int) - b.toNat)

/-- R165: the low half of the signed product. -/
def aluMul (a b : Word) : Word := u32 (s32 a * s32 b)

/-- R166: `⌊p / 2^32⌋ mod 2^32` of the signed product. -/
def aluMulX (a b : Word) : Word := u32 (s32 a * s32 b / 2 ^ 32)

/-- R167: the high half of the unsigned product. -/
def aluUmulX (a b : Word) : Word := BitVec.ofNat 32 (a.toNat * b.toNat / 2 ^ 32)

/-- R168: signed quotient, truncated toward zero (spec/00_scope.md R14). -/
def aluDiv (a b : Word) : Except FaultKind Word :=
  if b = 0#32 then .error .divisionByZero
  else if a = int32Min ∧ b = minusOne then .ok int32Min
  else .ok (u32 ((s32 a).tdiv (s32 b)))

/-- R169: unsigned quotient. -/
def aluUdiv (a b : Word) : Except FaultKind Word :=
  if b = 0#32 then .error .divisionByZero else .ok (BitVec.ofNat 32 (a.toNat / b.toNat))

/-- R170: signed remainder, with the sign of the dividend (spec/00_scope.md R14). -/
def aluMod (o : ModOverflow) (a b : Word) : Except FaultKind Word :=
  if b = 0#32 then .error .divisionByZero
  else if a = int32Min ∧ b = minusOne then
    match o with
    | .fault => .error .remainderOverflow
    | .zero => .ok 0#32
  else .ok (u32 ((s32 a).tmod (s32 b)))

/-- R171: unsigned remainder. -/
def aluUmod (a b : Word) : Except FaultKind Word :=
  if b = 0#32 then .error .divisionByZero else .ok (BitVec.ofNat 32 (a.toNat % b.toNat))

/-- `ShiftAmount()` of R194. -/
def shiftAmount (o : ShiftOversize) (b : Word) : Except FaultKind Nat :=
  if 32 ≤ b.toNat then
    match o with
    | .fault => .error .shiftAmountOutOfRange
    | .mask5 => .ok (b &&& 31#32).toNat
  else .ok b.toNat

/-- A shift by the amount of R194, or its fault. -/
def aluShift (o : ShiftOversize) (f : Nat → Word) (b : Word) : Except FaultKind Word :=
  match shiftAmount o b with
  | .error k => .error k
  | .ok n => .ok (f n)

/-- R195: `u32(a · 2^n)`. -/
def aluAshl (o : ShiftOversize) (a b : Word) : Except FaultKind Word :=
  aluShift o (fun n => u32 ((a.toNat : Int) * 2 ^ n)) b

/-- R196: `u32(⌊s32(a) / 2^n⌋)`, rounding toward minus infinity. -/
def aluAshr (o : ShiftOversize) (a b : Word) : Except FaultKind Word :=
  aluShift o (fun n => u32 (s32 a / 2 ^ n)) b

/-- R197: `⌊a / 2^n⌋`. -/
def aluLshr (o : ShiftOversize) (a b : Word) : Except FaultKind Word :=
  aluShift o (fun n => BitVec.ofNat 32 (a.toNat / 2 ^ n)) b

end Sys2Proof.Machine
end

