-- ==== Sys2Proof/Machine/Arithmetic.lean ====
section
/-! DEFINITION. The arithmetic instructions (spec/41_arithmetic.md R160 to R171). -/

namespace Sys2Proof.Machine

/-- R160 Add. -/
def execAdd (a b : Reg) (s : State) : StepResult := s.writeReg a (aluAdd (s.x a) (s.x b)) 1

/-- R161 Sub. -/
def execSub (a b : Reg) (s : State) : StepResult := s.writeReg a (aluSub (s.x a) (s.x b)) 1

/-- R162 Neg: the source is B. -/
def execNeg (a b : Reg) (s : State) : StepResult := s.writeReg a (aluSub 0#32 (s.x b)) 1

/-- R163 Inc: the immediate is unsigned. -/
def execInc (a : Reg) (imm : Nat) (s : State) : StepResult :=
  s.writeReg a (u32 (((s.x a).toNat : Int) + imm)) 1

/-- R164 Dec: the immediate is unsigned. -/
def execDec (a : Reg) (imm : Nat) (s : State) : StepResult :=
  s.writeReg a (u32 (((s.x a).toNat : Int) - imm)) 1

/-- R165 Mul. -/
def execMul (a b : Reg) (s : State) : StepResult := s.writeReg a (aluMul (s.x a) (s.x b)) 1

/-- R166 MulX. -/
def execMulX (a b : Reg) (s : State) : StepResult := s.writeReg a (aluMulX (s.x a) (s.x b)) 1

/-- R167 UmulX. -/
def execUmulX (a b : Reg) (s : State) : StepResult := s.writeReg a (aluUmulX (s.x a) (s.x b)) 1

/-- R168 Div. -/
def execDiv (a b : Reg) (s : State) : StepResult := s.writeRegOr a (aluDiv (s.x a) (s.x b)) 1

/-- R169 Udiv. -/
def execUdiv (a b : Reg) (s : State) : StepResult := s.writeRegOr a (aluUdiv (s.x a) (s.x b)) 1

/-- R170 Mod. -/
def execMod (a b : Reg) (s : State) : StepResult :=
  s.writeRegOr a (aluMod s.cfg.modOverflow (s.x a) (s.x b)) 1

/-- R171 Umod. -/
def execUmod (a b : Reg) (s : State) : StepResult := s.writeRegOr a (aluUmod (s.x a) (s.x b)) 1

end Sys2Proof.Machine
end

