-- ==== Sys2Proof/Machine/Flags.lean ====
section
/-! DEFINITION. The comparison status (spec/10_state.md R39): how Cmp computes it and what each branch
tests (spec/43_compare_branch.md R210 to R221). The CORE has no other flag (spec/41_arithmetic.md R172). -/

namespace Sys2Proof.Machine

/-- `cmp3(a, b)` on integers (spec/00_scope.md R13). -/
def cmp3 (a b : Int) : Cmp3 := if a < b then .less else if a = b then .equal else .greater

/-- A three-way result as the number the source gives it: -1, 0 or +1. -/
def Cmp3.toInt : Cmp3 → Int
  | .less => -1
  | .equal => 0
  | .greater => 1

/-- The comparison status of two words: once signed, once unsigned (R210). -/
def compareStatus (a b : Word) : CompareStatus :=
  ⟨cmp3 (s32 a) (s32 b), cmp3 (a.toNat : Int) (b.toNat : Int)⟩

/-- Beq: `CS.s == 0` (R212). -/
def condEq (c : CompareStatus) : Bool := decide (c.signed.toInt = 0)

/-- Bne: `CS.s ≠ 0` (R213). -/
def condNe (c : CompareStatus) : Bool := decide (c.signed.toInt ≠ 0)

/-- Bge: `CS.s ≥ 0` (R214). -/
def condGe (c : CompareStatus) : Bool := decide (c.signed.toInt ≥ 0)

/-- Bgt: `CS.s > 0` (R215). -/
def condGt (c : CompareStatus) : Bool := decide (c.signed.toInt > 0)

/-- Ble: `CS.s ≤ 0` (R216). -/
def condLe (c : CompareStatus) : Bool := decide (c.signed.toInt ≤ 0)

/-- Blt: `CS.s < 0` (R217). -/
def condLt (c : CompareStatus) : Bool := decide (c.signed.toInt < 0)

/-- Bgeu: `CS.u ≥ 0` (R218). -/
def condGeu (c : CompareStatus) : Bool := decide (c.unsigned.toInt ≥ 0)

/-- Bgtu: `CS.u > 0` (R219). -/
def condGtu (c : CompareStatus) : Bool := decide (c.unsigned.toInt > 0)

/-- Bleu: `CS.u ≤ 0` (R220). -/
def condLeu (c : CompareStatus) : Bool := decide (c.unsigned.toInt ≤ 0)

/-- Bltu: `CS.u < 0` (R221). -/
def condLtu (c : CompareStatus) : Bool := decide (c.unsigned.toInt < 0)

/-- A conditional branch (R211): taken, the next IP is `IP + 1 + disp`; else `IP + 1`. -/
def State.branchIf (s : State) (cond : Bool) (disp : Int) : StepResult :=
  .next (s.complete (if cond then s.seqIp 1 + disp else s.seqIp 1))

end Sys2Proof.Machine
end

