-- ==== Sys2Proof/Machine/Branch.lean ====
section
/-! DEFINITION. Compare and the ten conditional branches (spec/43_compare_branch.md R210 to R221). -/

namespace Sys2Proof.Machine

/-- R210 Cmp: writes all of the comparison status and no register. -/
def execCmp (a b : Reg) (s : State) : StepResult :=
  .next ((s.setCs (compareStatus (s.x a) (s.x b))).complete (s.seqIp 1))

/-- R212 Beq. -/
def execBeq (disp : Int) (s : State) : StepResult := s.branchIf (condEq s.cs) disp

/-- R213 Bne. -/
def execBne (disp : Int) (s : State) : StepResult := s.branchIf (condNe s.cs) disp

/-- R214 Bge. -/
def execBge (disp : Int) (s : State) : StepResult := s.branchIf (condGe s.cs) disp

/-- R215 Bgt. -/
def execBgt (disp : Int) (s : State) : StepResult := s.branchIf (condGt s.cs) disp

/-- R216 Ble. -/
def execBle (disp : Int) (s : State) : StepResult := s.branchIf (condLe s.cs) disp

/-- R217 Blt. -/
def execBlt (disp : Int) (s : State) : StepResult := s.branchIf (condLt s.cs) disp

/-- R218 Bgeu. -/
def execBgeu (disp : Int) (s : State) : StepResult := s.branchIf (condGeu s.cs) disp

/-- R219 Bgtu. -/
def execBgtu (disp : Int) (s : State) : StepResult := s.branchIf (condGtu s.cs) disp

/-- R220 Bleu. -/
def execBleu (disp : Int) (s : State) : StepResult := s.branchIf (condLeu s.cs) disp

/-- R221 Bltu. -/
def execBltu (disp : Int) (s : State) : StepResult := s.branchIf (condLtu s.cs) disp

end Sys2Proof.Machine
end

