-- ==== Sys2Proof/Machine/Immediate.lean ====
section
/-! DEFINITION. Load immediate and move (spec/47_immediate_move.md R290 to R293). The 32-bit immediate has
been fetched before the meaning runs (spec/40_execution_loop.md R135, R147; log 8). -/

namespace Sys2Proof.Machine

/-- R290 LdiL. -/
def execLdiL (a : Reg) (imm : Word) (s : State) : StepResult := s.writeReg a imm 3

/-- R291 LdiB: the low 8 bits of the immediate. -/
def execLdiB (a : Reg) (imm : Word) (s : State) : StepResult := s.writeReg a (imm &&& 0xFF#32) 3

/-- R292 LdiS: the low 16 bits of the immediate. -/
def execLdiS (a : Reg) (imm : Word) (s : State) : StepResult := s.writeReg a (imm &&& 0xFFFF#32) 3

/-- R293 Mov. -/
def execMov (a b : Reg) (s : State) : StepResult := s.writeReg a (s.x b) 1

end Sys2Proof.Machine
end

