-- ==== Sys2Proof/Machine/Stack.lean ====
section
/-! DEFINITION. Push and Pop (spec/45_stack.md R250, R251), the internal push and pop of calls and returns
(spec/40_execution_loop.md R141, R142) and the call frame (spec/44_jump_call_return.md R233). -/

namespace Sys2Proof.Machine

/-- R250 Push: the pointer is the register in the A field and is written before the store; the value
is the old `x[B]`. -/
def execPush (a b : Reg) (s : State) : StepResult :=
  let p := u32 (((s.x a).toNat : Int) - 4)
  finish ((s.setX a p).storeVal p.toNat .long (s.x b) 1)

/-- R251 Pop: `x[B]` is written first and `x[A]` second, so the pointer wins when A = B. -/
def execPop (a b : Reg) (s : State) : StepResult :=
  let p := s.x a
  finish ((s.memRead p.toNat .long).andThen fun v s1 =>
    .ok (s.seqIp 1) ((s1.setX b v).setX a (u32 ((p.toNat : Int) + 4))))

/-- `Push32(v)` (R141): SP is written first and stays decremented if the store faults. -/
def State.push32 (s : State) (v : Word) : Res Unit :=
  let s1 := s.setX sp (u32 (((s.x sp).toNat : Int) - 4))
  s1.memWrite (s1.x sp).toNat .long v

/-- `Pop32()` (R142): on a fault SP is unchanged. -/
def State.pop32 (s : State) : Res Word :=
  (s.memRead (s.x sp).toNat .long).andThen fun v s1 =>
    .ok v (s1.setX sp (u32 (((s1.x sp).toNat : Int) + 4)))

/-- `CallFrame(r)` (R233): a zero placeholder, the return IP (a word index), the FP at the start of
the instruction; then FP = SP. -/
def State.callFrame (s : State) (r : Nat) : Res Unit :=
  let fp0 := s.x fp
  (s.push32 0#32).andThen fun _ s1 =>
    (s1.push32 (BitVec.ofNat 32 r)).andThen fun _ s2 =>
      (s2.push32 fp0).andThen fun _ s3 => .ok () (s3.setX fp (s3.x sp))

end Sys2Proof.Machine
end

