-- ==== Sys2Proof/Machine/Jump.lean ====
section
/-! DEFINITION. Jumps, calls and return (spec/44_jump_call_return.md R231 to R236). -/

namespace Sys2Proof.Machine

/-- R231 Jmp. -/
def execJmp (a : Reg) (s : State) : StepResult := finish (jumpTo (s.x a) s)

/-- R232 Jmpa. -/
def execJmpa (imm : Word) (s : State) : StepResult := finish (jumpTo imm s)

/-- R234 Jsr: the target is the old `x[A]`; the frame is pushed before the target is checked. -/
def execJsr (a : Reg) (s : State) : StepResult :=
  finish ((s.callFrame (s.ip.toNat + 1)).andThen fun _ s1 => jumpTo (s.x a) s1)

/-- R235 Jsra: the frame is pushed before the target is checked. -/
def execJsra (imm : Word) (s : State) : StepResult :=
  finish ((s.callFrame (s.ip.toNat + 3)).andThen fun _ s1 => jumpTo imm s1)

/-- R236 Ret: SP = FP; FP = pop; IP = pop, a word index with no alignment test; pop and discard. -/
def execRet (s : State) : StepResult :=
  finish (((s.setX sp (s.x fp)).pop32).andThen fun f s1 =>
    ((s1.setX fp f).pop32).andThen fun r s2 =>
      s2.pop32.andThen fun _ s3 => .ok (r.toNat : Int) s3)

end Sys2Proof.Machine
end

