-- ==== Sys2Proof/Machine/LoadStore.lean ====
section
/-! DEFINITION. The eighteen loads and stores (spec/46_load_store.md R264 to R281). -/

namespace Sys2Proof.Machine

/-- R264 LdB: `x[A] <- MemRead(x[B])`, 1 byte. -/
def execLdB (a b : Reg) (s : State) : StepResult := finish (s.loadReg a (s.eaIndirect b) .byte 1)

/-- R265 LdS: `x[A] <- MemRead(x[B])`, 2 bytes. -/
def execLdS (a b : Reg) (s : State) : StepResult := finish (s.loadReg a (s.eaIndirect b) .short 1)

/-- R266 LdL: `x[A] <- MemRead(x[B])`, 4 bytes. -/
def execLdL (a b : Reg) (s : State) : StepResult := finish (s.loadReg a (s.eaIndirect b) .long 1)

/-- R267 StB: `MemWrite(x[A], x[B])`, 1 byte. -/
def execStB (a b : Reg) (s : State) : StepResult :=
  finish (s.storeVal (s.eaIndirect a) .byte (s.x b) 1)

/-- R268 StS: `MemWrite(x[A], x[B])`, 2 bytes. -/
def execStS (a b : Reg) (s : State) : StepResult :=
  finish (s.storeVal (s.eaIndirect a) .short (s.x b) 1)

/-- R269 StL: `MemWrite(x[A], x[B])`, 4 bytes. -/
def execStL (a b : Reg) (s : State) : StepResult :=
  finish (s.storeVal (s.eaIndirect a) .long (s.x b) 1)

/-- R270 LdaB: `x[A] <- MemRead(imm32)`, 1 byte. -/
def execLdaB (a : Reg) (imm : Word) (s : State) : StepResult :=
  finish (s.loadReg a imm.toNat .byte 3)

/-- R271 LdaS: `x[A] <- MemRead(imm32)`, 2 bytes. -/
def execLdaS (a : Reg) (imm : Word) (s : State) : StepResult :=
  finish (s.loadReg a imm.toNat .short 3)

/-- R272 LdaL: `x[A] <- MemRead(imm32)`, 4 bytes. -/
def execLdaL (a : Reg) (imm : Word) (s : State) : StepResult :=
  finish (s.loadReg a imm.toNat .long 3)

/-- R273 StaB: `MemWrite(imm32, x[A])`, 1 byte. -/
def execStaB (a : Reg) (imm : Word) (s : State) : StepResult :=
  finish (s.storeVal imm.toNat .byte (s.x a) 3)

/-- R274 StaS: `MemWrite(imm32, x[A])`, 2 bytes. -/
def execStaS (a : Reg) (imm : Word) (s : State) : StepResult :=
  finish (s.storeVal imm.toNat .short (s.x a) 3)

/-- R275 StaL: `MemWrite(imm32, x[A])`, 4 bytes. -/
def execStaL (a : Reg) (imm : Word) (s : State) : StepResult :=
  finish (s.storeVal imm.toNat .long (s.x a) 3)

/-- R276 LdoB: `x[A] <- MemRead(x[B] + off)`, 1 byte. -/
def execLdoB (a b : Reg) (off : Int) (s : State) : StepResult :=
  finish ((s.eaOffset b off).andThen fun ea s1 => s1.loadReg a ea .byte 2)

/-- R277 LdoS: `x[A] <- MemRead(x[B] + off)`, 2 bytes. -/
def execLdoS (a b : Reg) (off : Int) (s : State) : StepResult :=
  finish ((s.eaOffset b off).andThen fun ea s1 => s1.loadReg a ea .short 2)

/-- R278 LdoL: `x[A] <- MemRead(x[B] + off)`, 4 bytes. -/
def execLdoL (a b : Reg) (off : Int) (s : State) : StepResult :=
  finish ((s.eaOffset b off).andThen fun ea s1 => s1.loadReg a ea .long 2)

/-- R279 StoB: `MemWrite(x[A] + off, x[B])`, 1 byte. -/
def execStoB (a b : Reg) (off : Int) (s : State) : StepResult :=
  finish ((s.eaOffset a off).andThen fun ea s1 => s1.storeVal ea .byte (s.x b) 2)

/-- R280 StoS: `MemWrite(x[A] + off, x[B])`, 2 bytes. -/
def execStoS (a b : Reg) (off : Int) (s : State) : StepResult :=
  finish ((s.eaOffset a off).andThen fun ea s1 => s1.storeVal ea .short (s.x b) 2)

/-- R281 StoL: `MemWrite(x[A] + off, x[B])`, 4 bytes. -/
def execStoL (a b : Reg) (off : Int) (s : State) : StepResult :=
  finish ((s.eaOffset a off).andThen fun ea s1 => s1.storeVal ea .long (s.x b) 2)

end Sys2Proof.Machine
end

