-- ==== Sys2Proof/Machine/Logic.lean ====
section
/-! DEFINITION. The logic, shift and extension instructions (spec/42_logic_extend.md R190 to R201). -/

namespace Sys2Proof.Machine

/-- R190 And. -/
def execAnd (a b : Reg) (s : State) : StepResult := s.writeReg a (s.x a &&& s.x b) 1

/-- R191 Or. -/
def execOr (a b : Reg) (s : State) : StepResult := s.writeReg a (s.x a ||| s.x b) 1

/-- R192 Xor. -/
def execXor (a b : Reg) (s : State) : StepResult := s.writeReg a (s.x a ^^^ s.x b) 1

/-- R193 Not: the source is B. -/
def execNot (a b : Reg) (s : State) : StepResult := s.writeReg a (~~~ (s.x b)) 1

/-- R195 Ashl. -/
def execAshl (a b : Reg) (s : State) : StepResult :=
  s.writeRegOr a (aluAshl s.cfg.shiftOversize (s.x a) (s.x b)) 1

/-- R196 Ashr. -/
def execAshr (a b : Reg) (s : State) : StepResult :=
  s.writeRegOr a (aluAshr s.cfg.shiftOversize (s.x a) (s.x b)) 1

/-- R197 Lshr. -/
def execLshr (a b : Reg) (s : State) : StepResult :=
  s.writeRegOr a (aluLshr s.cfg.shiftOversize (s.x a) (s.x b)) 1

/-- R198 SexB. -/
def execSexB (a b : Reg) (s : State) : StepResult := s.writeReg a (sext 8 (s.x b)) 1

/-- R199 SexS. -/
def execSexS (a b : Reg) (s : State) : StepResult := s.writeReg a (sext 16 (s.x b)) 1

/-- R200 ZexB. -/
def execZexB (a b : Reg) (s : State) : StepResult := s.writeReg a (zext 8 (s.x b)) 1

/-- R201 ZexS. -/
def execZexS (a b : Reg) (s : State) : StepResult := s.writeReg a (zext 16 (s.x b)) 1

end Sys2Proof.Machine
end

