-- ==== Sys2Proof/Machine/System.lean ====
section
/-! DEFINITION. Special-register access and system instructions (spec/48_system.md R300 to R304). -/

namespace Sys2Proof.Machine

/-- R300 Gsr: an index of 10 or more faults with `x[A]` unchanged. -/
def execGsr (a : Reg) (imm : Nat) (s : State) : StepResult :=
  match specialIndex imm with
  | some i => s.writeReg a (s.sr i) 1
  | none => .next (s.takeFault .specialRegisterIndexInvalid)

/-- R301 Ssr: plain storage; an index of 10 or more faults with no state written. -/
def execSsr (a : Reg) (imm : Nat) (s : State) : StepResult :=
  match specialIndex imm with
  | some i => .next ((s.setSr i (s.x a)).complete (s.seqIp 1))
  | none => .next (s.takeFault .specialRegisterIndexInvalid)

/-- The software-interrupt request number is special register 3 (spec/10_state.md R35). -/
def srSwi : Fin 10 := 3

/-- R302 Swi: the store comes before the raise, so it persists; Swi never completes. -/
def execSwi (imm : Word) (s : State) : StepResult :=
  .next ((s.setSr srSwi imm).takeFault .softwareInterrupt)

/-- R303 Brk: it completes and halts. -/
def execBrk (s : State) : StepResult := .next s.halt

/-- R304 Nop: only the IP advances. -/
def execNop (s : State) : StepResult := .next (s.complete (s.seqIp 1))

end Sys2Proof.Machine
end

