-- ==== Sys2Proof/Machine/Dispatch.lean ====
section
/-! DEFINITION. Dispatch (spec/40_execution_loop.md R133): one meaning for each instruction. -/

namespace Sys2Proof.Machine

def exec (i : Instr) (s : State) : Host.Outcome State Fault Refusal :=
  match i with
  -- Arithmetic (spec/41_arithmetic.md)
  | .add a b => Sys2Proof.Machine.execAdd a b s
  | .sub a b => Sys2Proof.Machine.execSub a b s
  | .neg a b => Sys2Proof.Machine.execNeg a b s
  | .inc a imm => Sys2Proof.Machine.execInc a imm s
  | .dec a imm => Sys2Proof.Machine.execDec a imm s
  | .mul a b => Sys2Proof.Machine.execMul a b s
  | .mulX a b => Sys2Proof.Machine.execMulX a b s
  | .umulX a b => Sys2Proof.Machine.execUmulX a b s
  | .div a b => Sys2Proof.Machine.execDiv a b s
  | .udiv a b => Sys2Proof.Machine.execUdiv a b s
  | .mod a b => Sys2Proof.Machine.execMod a b s
  | .umod a b => Sys2Proof.Machine.execUmod a b s
  -- Logic, shifts, extension (spec/42_logic_extend.md)
  | .and a b => Sys2Proof.Machine.execAnd a b s
  | .or a b => Sys2Proof.Machine.execOr a b s
  | .xor a b => Sys2Proof.Machine.execXor a b s
  | .not a b => Sys2Proof.Machine.execNot a b s
  | .ashl a b => Sys2Proof.Machine.execAshl a b s
  | .ashr a b => Sys2Proof.Machine.execAshr a b s
  | .lshr a b => Sys2Proof.Machine.execLshr a b s
  | .sexB a b => Sys2Proof.Machine.execSexB a b s
  | .sexS a b => Sys2Proof.Machine.execSexS a b s
  | .zexB a b => Sys2Proof.Machine.execZexB a b s
  | .zexS a b => Sys2Proof.Machine.execZexS a b s
  -- Compare and branch (spec/43_compare_branch.md)
  | .cmp a b => Sys2Proof.Machine.execCmp a b s
  | .beq disp => Sys2Proof.Machine.execBeq disp s
  | .bne disp => Sys2Proof.Machine.execBne disp s
  | .bge disp => Sys2Proof.Machine.execBge disp s
  | .bgt disp => Sys2Proof.Machine.execBgt disp s
  | .ble disp => Sys2Proof.Machine.execBle disp s
  | .blt disp => Sys2Proof.Machine.execBlt disp s
  | .bgeu disp => Sys2Proof.Machine.execBgeu disp s
  | .bgtu disp => Sys2Proof.Machine.execBgtu disp s
  | .bleu disp => Sys2Proof.Machine.execBleu disp s
  | .bltu disp => Sys2Proof.Machine.execBltu disp s
  -- Jumps, calls, return (spec/44_jump_call_return.md)
  | .jmp a => Sys2Proof.Machine.execJmp a s
  | .jmpa imm => Sys2Proof.Machine.execJmpa imm s
  | .jsr a => Sys2Proof.Machine.execJsr a s
  | .jsra imm => Sys2Proof.Machine.execJsra imm s
  | .ret => Sys2Proof.Machine.execRet s
  -- Stack (spec/45_stack.md)
  | .push a b => Sys2Proof.Machine.execPush a b s
  | .pop a b => Sys2Proof.Machine.execPop a b s
  -- Loads and stores (spec/46_load_store.md)
  | .ldB a b => Sys2Proof.Machine.execLdB a b s
  | .ldS a b => Sys2Proof.Machine.execLdS a b s
  | .ldL a b => Sys2Proof.Machine.execLdL a b s
  | .stB a b => Sys2Proof.Machine.execStB a b s
  | .stS a b => Sys2Proof.Machine.execStS a b s
  | .stL a b => Sys2Proof.Machine.execStL a b s
  | .ldaB a imm => Sys2Proof.Machine.execLdaB a imm s
  | .ldaS a imm => Sys2Proof.Machine.execLdaS a imm s
  | .ldaL a imm => Sys2Proof.Machine.execLdaL a imm s
  | .staB a imm => Sys2Proof.Machine.execStaB a imm s
  | .staS a imm => Sys2Proof.Machine.execStaS a imm s
  | .staL a imm => Sys2Proof.Machine.execStaL a imm s
  | .ldoB a b off => Sys2Proof.Machine.execLdoB a b off s
  | .ldoS a b off => Sys2Proof.Machine.execLdoS a b off s
  | .ldoL a b off => Sys2Proof.Machine.execLdoL a b off s
  | .stoB a b off => Sys2Proof.Machine.execStoB a b off s
  | .stoS a b off => Sys2Proof.Machine.execStoS a b off s
  | .stoL a b off => Sys2Proof.Machine.execStoL a b off s
  -- Immediates and move (spec/47_immediate_move.md)
  | .ldiL a imm => Sys2Proof.Machine.execLdiL a imm s
  | .ldiB a imm => Sys2Proof.Machine.execLdiB a imm s
  | .ldiS a imm => Sys2Proof.Machine.execLdiS a imm s
  | .mov a b => Sys2Proof.Machine.execMov a b s
  -- System (spec/48_system.md)
  | .gsr a imm => Sys2Proof.Machine.execGsr a imm s
  | .ssr a imm => Sys2Proof.Machine.execSsr a imm s
  | .swi imm => Sys2Proof.Machine.execSwi imm s
  | .brk => Sys2Proof.Machine.execBrk s
  | .nop => Sys2Proof.Machine.execNop s

end Sys2Proof.Machine
end

