-- ==== Sys2Proof/Machine/Fetch.lean ====
section
/-! DEFINITION. Fetching and decoding one instruction (spec/40_execution_loop.md R131 to R136, R147 points
1 to 4), and placing a word where the next fetch reads. -/

namespace Sys2Proof.Machine

/-- The byte address of the instruction at IP, `2·IP` (spec/10_state.md R40). -/
def State.fetchAddress (s : State) : Nat := 2 * s.ip.toNat

/-- Fetch the word at IP through the active accessor, decode it, make the TRACE call, raise
IllegalOpcode if OPCODE_MAP has no such opcode, then read the extension words (R131 to R136). -/
def State.fetch (s : State) : Res Instr :=
  (s.memRead s.fetchAddress .short).andThen fun w s1 =>
    let r := decodeRecord (w.setWidth 16)
    let s2 := s1.emit (.instruction r s.fetchAddress)
    match s2.cfg.opcodeMap.find r.format r.field with
    | none => .raise .illegalOpcode s2
    | some op =>
      (s2.fetchExt op.ext).andThen fun x s3 => .ok (Parts.build ⟨op, r.a, r.b, r.value, x⟩) s3

/-- Bytes stored where a read at `a` finds them, if such a read has a place in memory. -/
def State.place (s : State) (a : Nat) (bs : List Byte) : State :=
  match s.target a .read with
  | .ok p _ => if p + bs.length ≤ s.cfg.memSize then s.setMem (s.mem.writeBytes p bs) else s
  | .raise _ _ => s

/-- The machine ready to run its next step: running, with no result returned yet. -/
def State.ready (s : State) : State := { s with run := .running, result := none }

/-- An instruction's bytes stored where the next step fetches its word and its extension words. -/
def State.placeInstruction (s : State) (bytes : List Byte) : State :=
  (s.ready.place s.fetchAddress (bytes.take 2)).place s.extAddress (bytes.drop 2)

end Sys2Proof.Machine
end

