-- ==== Sys2Proof/Machine/Step.lean ====
section
/-! DEFINITION. One step of the machine (spec/40_execution_loop.md R130, R140). -/

namespace Sys2Proof.Machine

/-- One whole instruction: fetch, decode, run. A state that is Halted, or whose `execute` call has
returned, has no step (R146, spec/60_exceptions.md R327). -/
def step (s : State) : Host.Outcome State Fault Refusal :=
  match s.run, s.result with
  | .halted, _ => .fault .halted
  | .running, some _ => .fault .runEnded
  | .running, none =>
    match s.fetch with
    | .ok i s1 => exec i s1
    | .raise k s1 => .next (s1.takeFault k)

/-- The state with an instruction, its bits numbered as the opcode table numbers them, stored where
`step` fetches next, and ready to step (log 9). -/
def State.withFetchWord (s : State) (nbits w : Nat) : State :=
  s.placeInstruction (tableBytes s.cfg.endian nbits w)

end Sys2Proof.Machine
end

