-- ==== Sys2Proof/Machine/Assembler.lean ====
section
/-! DEFINITION. The assembler notation of spec/30_encoding.md R116: register names, mnemonics and operand
forms, and the displacement a branch to a label encodes. Notation only: no rule of the machine
depends on it. -/

namespace Sys2Proof.Machine

/-- The register names of spec/10_state.md R31. -/
def regName (r : Reg) : String :=
  if r.val = 0 then "$fp" else if r.val = 1 then "$sp" else "$r" ++ toString (r.val - 2)

/-- The mnemonic of each opcode (R109, R116). -/
def mnemonic : Opcode → String
  | .add => "add"
  | .sub => "sub"
  | .neg => "neg"
  | .inc => "inc"
  | .dec => "dec"
  | .mul => "mul"
  | .mulX => "mul.x"
  | .umulX => "umul.x"
  | .div => "div"
  | .udiv => "udiv"
  | .mod => "mod"
  | .umod => "umod"
  | .and => "and"
  | .or => "or"
  | .xor => "xor"
  | .not => "not"
  | .ashl => "ashl"
  | .ashr => "ashr"
  | .lshr => "lshr"
  | .sexB => "sex.b"
  | .sexS => "sex.s"
  | .zexB => "zex.b"
  | .zexS => "zex.s"
  | .cmp => "cmp"
  | .beq => "beq"
  | .bne => "bne"
  | .bge => "bge"
  | .bgt => "bgt"
  | .ble => "ble"
  | .blt => "blt"
  | .bgeu => "bgeu"
  | .bgtu => "bgtu"
  | .bleu => "bleu"
  | .bltu => "bltu"
  | .jmp => "jmp"
  | .jmpa => "jmpa"
  | .jsr => "jsr"
  | .jsra => "jsra"
  | .ret => "ret"
  | .push => "push"
  | .pop => "pop"
  | .ldB => "ld.b"
  | .ldS => "ld.s"
  | .ldL => "ld.l"
  | .stB => "st.b"
  | .stS => "st.s"
  | .stL => "st.l"
  | .ldaB => "lda.b"
  | .ldaS => "lda.s"
  | .ldaL => "lda.l"
  | .staB => "sta.b"
  | .staS => "sta.s"
  | .staL => "sta.l"
  | .ldoB => "ldo.b"
  | .ldoS => "ldo.s"
  | .ldoL => "ldo.l"
  | .stoB => "sto.b"
  | .stoS => "sto.s"
  | .stoL => "sto.l"
  | .ldiL => "ldi.l"
  | .ldiB => "ldi.b"
  | .ldiS => "ldi.s"
  | .mov => "mov"
  | .gsr => "gsr"
  | .ssr => "ssr"
  | .swi => "swi"
  | .brk => "brk"
  | .nop => "nop"

/-- The displacement an assembler encodes for a branch at byte address `at` to a label's byte address:
`(label - (at + 2)) / 2` (R116). -/
def branchDisp (label branchAt : Nat) : Int := ((label : Int) - (branchAt + 2)) / 2

/-- Two register operands. -/
def asmRR (op : Opcode) (a b : Reg) : String :=
  mnemonic op ++ " " ++ regName a ++ ", " ++ regName b

/-- A register and a number. -/
def asmRN (op : Opcode) (a : Reg) (n : Nat) : String :=
  mnemonic op ++ " " ++ regName a ++ ", " ++ toString n

/-- A branch, its target written as the displacement from the next word. -/
def asmB (op : Opcode) (disp : Int) : String := mnemonic op ++ " " ++ toString disp

/-- The text of an instruction, with the operand orders of R109. -/
def Instr.asm (i : Instr) : String :=
  match i with
  | .add a b => asmRR .add a b
  | .sub a b => asmRR .sub a b
  | .neg a b => asmRR .neg a b
  | .inc a n => asmRN .inc a n
  | .dec a n => asmRN .dec a n
  | .mul a b => asmRR .mul a b
  | .mulX a b => asmRR .mulX a b
  | .umulX a b => asmRR .umulX a b
  | .div a b => asmRR .div a b
  | .udiv a b => asmRR .udiv a b
  | .mod a b => asmRR .mod a b
  | .umod a b => asmRR .umod a b
  | .and a b => asmRR .and a b
  | .or a b => asmRR .or a b
  | .xor a b => asmRR .xor a b
  | .not a b => asmRR .not a b
  | .ashl a b => asmRR .ashl a b
  | .ashr a b => asmRR .ashr a b
  | .lshr a b => asmRR .lshr a b
  | .sexB a b => asmRR .sexB a b
  | .sexS a b => asmRR .sexS a b
  | .zexB a b => asmRR .zexB a b
  | .zexS a b => asmRR .zexS a b
  | .cmp a b => asmRR .cmp a b
  | .beq d => asmB .beq d
  | .bne d => asmB .bne d
  | .bge d => asmB .bge d
  | .bgt d => asmB .bgt d
  | .ble d => asmB .ble d
  | .blt d => asmB .blt d
  | .bgeu d => asmB .bgeu d
  | .bgtu d => asmB .bgtu d
  | .bleu d => asmB .bleu d
  | .bltu d => asmB .bltu d
  | .jmp a => mnemonic .jmp ++ " " ++ regName a
  | .jmpa v => mnemonic .jmpa ++ " " ++ toString v.toNat
  | .jsr a => mnemonic .jsr ++ " " ++ regName a
  | .jsra v => mnemonic .jsra ++ " " ++ toString v.toNat
  | .ret => mnemonic .ret
  | .push a b => asmRR .push a b
  | .pop a b => asmRR .pop a b
  | .ldB a b => mnemonic .ldB ++ " " ++ regName a ++ ", (" ++ regName b ++ ")"
  | .ldS a b => mnemonic .ldS ++ " " ++ regName a ++ ", (" ++ regName b ++ ")"
  | .ldL a b => mnemonic .ldL ++ " " ++ regName a ++ ", (" ++ regName b ++ ")"
  | .stB a b => mnemonic .stB ++ " (" ++ regName a ++ "), " ++ regName b
  | .stS a b => mnemonic .stS ++ " (" ++ regName a ++ "), " ++ regName b
  | .stL a b => mnemonic .stL ++ " (" ++ regName a ++ "), " ++ regName b
  | .ldaB a v => asmRN .ldaB a v.toNat
  | .ldaS a v => asmRN .ldaS a v.toNat
  | .ldaL a v => asmRN .ldaL a v.toNat
  | .staB a v => mnemonic .staB ++ " " ++ toString v.toNat ++ ", " ++ regName a
  | .staS a v => mnemonic .staS ++ " " ++ toString v.toNat ++ ", " ++ regName a
  | .staL a v => mnemonic .staL ++ " " ++ toString v.toNat ++ ", " ++ regName a
  | .ldoB a b o => mnemonic .ldoB ++ " " ++ regName a ++ ", " ++ toString o ++ "(" ++ regName b ++ ")"
  | .ldoS a b o => mnemonic .ldoS ++ " " ++ regName a ++ ", " ++ toString o ++ "(" ++ regName b ++ ")"
  | .ldoL a b o => mnemonic .ldoL ++ " " ++ regName a ++ ", " ++ toString o ++ "(" ++ regName b ++ ")"
  | .stoB a b o => mnemonic .stoB ++ " " ++ toString o ++ "(" ++ regName a ++ "), " ++ regName b
  | .stoS a b o => mnemonic .stoS ++ " " ++ toString o ++ "(" ++ regName a ++ "), " ++ regName b
  | .stoL a b o => mnemonic .stoL ++ " " ++ toString o ++ "(" ++ regName a ++ "), " ++ regName b
  | .ldiL a v => asmRN .ldiL a v.toNat
  | .ldiB a v => asmRN .ldiB a v.toNat
  | .ldiS a v => asmRN .ldiS a v.toNat
  | .mov a b => asmRR .mov a b
  | .gsr a n => asmRN .gsr a n
  | .ssr a n => asmRN .ssr a n
  | .swi v => mnemonic .swi ++ " " ++ toString v.toNat
  | .brk => mnemonic .brk
  | .nop => mnemonic .nop

end Sys2Proof.Machine
end

