-- ==== Sys2Proof/Machine/HostActs.lean ====
section
/-! DEFINITION. The host interface (spec/70_reset_and_hazards.md R360 to R369): what the host can do to the
machine between runs. None of it happens inside a step (R369, log 18). -/

namespace Sys2Proof.Machine

/-- MEM_INIT as bytes at addresses, the later of two at one address winning, in canonical form;
addresses outside the memory are no part of it. -/
def memoryOf (size : Nat) (cells : List Host.Cell) : Memory :=
  cells.foldl (fun m c => if c.1 < size then m.write c.1 c.2 else m) []

/-- Construction (R360, R361): refused for a MEM_SIZE that is odd, below 4 or above 2^32. A MODE other
than the two cannot be written. -/
def State.construct (cfg : Config) (memInit : List Host.Cell) : Option State :=
  if cfg.Legal then some (State.initial cfg (memoryOf cfg.memSize memInit)) else none

/-- What `copy_in` answers. -/
inductive CopyAnswer where
  /-- The bytes are in memory. -/
  | done (s : State)
  /-- An odd offset or length: refused with no state change (R366). -/
  | refused
  /-- MemoryOutOfRange: the bytes do not fit and none is written (R366). -/
  | faulted (kind : FaultKind)
  deriving DecidableEq, Repr

/-- `copy_in(offset, bytes)` (R366): physical in both modes, and the TLB is not touched
(spec/20_memory.md R89). -/
def State.copyIn (s : State) (offset : Nat) (bytes : List Byte) : CopyAnswer :=
  if offset % 2 = 1 ∨ bytes.length % 2 = 1 then .refused
  else if s.cfg.memSize < offset + bytes.length then .faulted .memoryOutOfRange
  else .done (s.setMem (s.mem.writeBytes offset bytes))

/-- The entry of `execute(start)` (R362): SP = MEM_SIZE - 4, FP = SP, IP = start / 2, Running, no
result yet; nothing else is reset. An odd start returns Faulted(JumpToUnalignedAddress) with nothing
written (log 17). -/
def State.enter (s : State) (start : Word) : State :=
  if start.toNat % 2 = 1 then { s with result := some (.faulted .jumpToUnalignedAddress) }
  else
    { (s.setX sp (u32 ((s.cfg.memSize : Int) - 4))).setX fp (u32 ((s.cfg.memSize : Int) - 4)) with
      ip := BitVec.ofNat 31 (start.toNat / 2)
      run := .running
      result := none }

/-- The loop of R362 under fuel: the state in which the call returned, or none if the fuel ran out,
which is no end of a run (spec/40_execution_loop.md R144). -/
def State.runLoop : Nat → State → Option State
  | 0, s => if s.result = none then none else some s
  | n + 1, s =>
    match s.result with
    | some _ => some s
    | none =>
      match step s with
      | .next s1 => State.runLoop n s1
      | .fault _ => none
      | .refused _ => none

/-- `execute(start)` (R362) with at most `fuel` instructions. -/
def State.execute (s : State) (start : Word) (fuel : Nat) : Option State :=
  State.runLoop fuel (s.enter start)

/-- The host's reading of ICOUNT (R367). -/
def State.readIcount (s : State) : BitVec 64 := s.icount

/-- The host's reset of ICOUNT (R367). -/
def State.resetIcount (s : State) : State := { s with icount := 0#64 }

/-- `flush_tlb()` (R368): every tag SENTINEL, every `pte` 0. -/
def State.flushTlb (s : State) : State := { s with tlb := [] }

/-- The code of a fault kind (spec/60_exceptions.md R320). -/
def FaultKind.code : FaultKind → Nat
  | .illegalOpcode => 1
  | .divisionByZero => 2
  | .jumpToUnalignedAddress => 3
  | .memoryOutOfRange => 4
  | .pageDirectoryEntryNotPresent => 5
  | .pageNotPresent => 6
  | .pageReadOnly => 7
  | .physicalAddressOutOfRange => 8
  | .softwareInterrupt => 9
  | .specialRegisterIndexInvalid => 16
  | .remainderOverflow => 17
  | .shiftAmountOutOfRange => 18
  | .ipOutOfRange => 19

end Sys2Proof.Machine
end

