-- ==== Sys2Proof/Safety.lean ====
section
/-! DEFINITION. The machine's invariant, and the terms the statements use for what an instruction leaves
unchanged. -/

namespace Sys2Proof.Machine

/-- A slot that a completed walk can have filled: in its own place (spec/20_memory.md R73), its tag at
most 0xFFFFF (R76), present and with a frame inside memory (R75). -/
abbrev TlbEntry.Filled (c : Config) (i : Nat) (e : TlbEntry) : Prop :=
  i < 1024 ∧ e.tag.toNat < 2 ^ 20 ∧ e.tag.toNat % 1024 = i ∧
  Config.present c e.pte = true ∧ Config.frame c e.pte < c.memSize

/-- The machine's invariant. -/
structure State.Inv (s : State) : Prop where
  /-- MEM_SIZE is within the bounds of spec/70_reset_and_hazards.md R360. -/
  legal : s.cfg.Legal
  /-- Memory is in canonical form. -/
  memWf : s.mem.wf
  /-- Memory has no byte at or above MEM_SIZE (spec/10_state.md R43). -/
  memInside : ∀ c ∈ s.mem, c.1 < s.cfg.memSize
  /-- The TLB is in canonical form. -/
  tlbWf : s.tlb.wf
  /-- Every slot that is not empty is one a walk filled. -/
  tlbFilled : ∀ e ∈ s.tlb, TlbEntry.Filled s.cfg e.1 e.2
  /-- The TLB exists only in paged mode (spec/10_state.md R44). -/
  tlbPaged : s.cfg.mode = .physical → s.tlb = []
  /-- A Halted machine's `execute` call has returned (spec/10_state.md R45). -/
  haltedReturned : s.run = .halted → s.result ≠ none
  /-- Without an observer there is no trace (spec/40_execution_loop.md R152). -/
  traceOff : s.cfg.trace = false → s.trace = []

/-- No general register changes except those listed. -/
def KeepsRegs (s t : State) (changed : List Reg) : Prop := ∀ r, r ∉ changed → t.x r = s.x r

/-- No special register changes. -/
def KeepsSpecials (s t : State) : Prop := ∀ i, t.sr i = s.sr i

/-- Every byte of memory reads as before. -/
def KeepsMemory (s t : State) : Prop := ∀ a, t.byte a = s.byte a

/-- Every byte of memory outside the `n` bytes at `p` reads as before. -/
def KeepsMemoryOutside (s t : State) (p n : Nat) : Prop :=
  ∀ a, a < p ∨ p + n ≤ a → t.byte a = s.byte a

/-- The run state, the result, the parameters, the free-value counter and the trace do not change. -/
def KeepsControl (s t : State) : Prop :=
  t.run = s.run ∧ t.result = s.result ∧ t.cfg = s.cfg ∧ t.free = s.free ∧ t.trace = s.trace

/-- The instruction completed: the IP is the word index `n` and ICOUNT counted it
(spec/40_execution_loop.md R138). -/
def Completes (s t : State) (n : Nat) : Prop := t.ip.toNat = n ∧ t.icount = s.icount + 1

/-- Only the general registers listed, the IP and ICOUNT change. -/
def OnlyRegs (s t : State) (changed : List Reg) : Prop :=
  KeepsRegs s t changed ∧ KeepsSpecials s t ∧ t.cs = s.cs ∧ KeepsMemory s t ∧ t.tlb = s.tlb ∧
  KeepsControl s t

/-- The step ended in a fault (spec/60_exceptions.md R326): the `execute` call returned the kind, the run
state and ICOUNT are as before, and so are the parameters and the trace. Nothing is said of the IP. -/
def Faulted (s t : State) (k : FaultKind) : Prop :=
  t.result = some (.faulted k) ∧ t.run = s.run ∧ t.icount = s.icount ∧ t.cfg = s.cfg ∧
  t.trace = s.trace

/-- Nothing was written before the fault. -/
def NothingWritten (s t : State) : Prop :=
  KeepsRegs s t [] ∧ KeepsSpecials s t ∧ t.cs = s.cs ∧ KeepsMemory s t ∧ t.tlb = s.tlb

/-! ### How instructions end -/

/-- The instruction writes `v` to `x[a]` and changes no other register, flag, byte or slot; it completes
at the next instruction, or, at the top of the word-index range, raises IpOutOfRange after its write
(spec/40_execution_loop.md R137 to R139). -/
def WritesRegister (i : Instr) (s : State) (a : Reg) (v : Word) (words : Nat) : Prop :=
  (s.ip.toNat + words < 2 ^ 31 →
    ∃ t, exec i s = .next t ∧ t.x a = v ∧ OnlyRegs s t [a] ∧ Completes s t (s.ip.toNat + words)) ∧
  (2 ^ 31 ≤ s.ip.toNat + words →
    ∃ t, exec i s = .next t ∧ t.x a = v ∧ KeepsRegs s t [a] ∧ KeepsSpecials s t ∧ t.cs = s.cs ∧
      KeepsMemory s t ∧ t.tlb = s.tlb ∧ Faulted s t .ipOutOfRange)

/-- The instruction ends the run with a fault and nothing written. -/
def StopsWith (i : Instr) (s : State) (k : FaultKind) : Prop :=
  ∃ t, exec i s = .next t ∧ NothingWritten s t ∧ Faulted s t k

/-- The instruction only moves the IP to `n`, or raises IpOutOfRange where `n` is outside
`[0, 2^31)` (spec/40_execution_loop.md R137). -/
def GoesTo (i : Instr) (s : State) (n : Int) : Prop :=
  (0 ≤ n ∧ n < 2 ^ 31 →
    ∃ t, exec i s = .next t ∧ OnlyRegs s t [] ∧ Completes s t n.toNat) ∧
  (n < 0 ∨ 2 ^ 31 ≤ n → StopsWith i s .ipOutOfRange)

/-! ### Values in memory (spec/20_memory.md R61) -/

/-- The value of the `n` bytes at `p`, written as R61's sums. -/
def assembled (s : State) (p n : Nat) : Nat :=
  match s.cfg.endian with
  | .little => ∑ k ∈ Finset.range n, (s.byte (p + k)).toNat * 2 ^ (8 * k)
  | .big => ∑ k ∈ Finset.range n, (s.byte (p + k)).toNat * 2 ^ (8 * (n - 1 - k))

/-- Byte `k` of an `n`-byte access that holds `v`, as R61's sums place it. -/
def placedByte (e : Endian) (n v k : Nat) : Byte :=
  match e with
  | .little => BitVec.ofNat 8 (v / 2 ^ (8 * k))
  | .big => BitVec.ofNat 8 (v / 2 ^ (8 * (n - 1 - k)))

/-- The `n` bytes at `p` hold the low bytes of `v`, and every other byte is as before. -/
def StoresAt (s t : State) (p n : Nat) (v : Word) : Prop :=
  (∀ k < n, t.byte (p + k) = placedByte s.cfg.endian n v.toNat k) ∧ KeepsMemoryOutside s t p n

/-- The instruction loads `x[a]` from `ea` (spec/46_load_store.md R260): wherever the accessor finds the
address and the access fits, it writes the zero-extended value and completes, or raises IpOutOfRange
after that write at the top of the word-index range; where the access faults, it
writes no register and no byte (only translation may have filled a slot). -/
def LoadsFrom (i : Instr) (s : State) (a : Reg) (ea : Nat) (w : Width) (words : Nat) : Prop :=
  (∀ p s1, s.target ea .read = .ok p s1 → p + w.bytes ≤ s.cfg.memSize →
    ∃ t, exec i s = .next t ∧ (t.x a).toNat = assembled s p w.bytes ∧ KeepsRegs s t [a] ∧
      KeepsSpecials s t ∧ t.cs = s.cs ∧ KeepsMemory s t ∧ t.tlb = s1.tlb ∧
      (s.ip.toNat + words < 2 ^ 31 → KeepsControl s t ∧ Completes s t (s.ip.toNat + words)) ∧
      (2 ^ 31 ≤ s.ip.toNat + words → Faulted s t .ipOutOfRange)) ∧
  (∀ k s1, s.memRead ea w = .raise k s1 →
    ∃ t, exec i s = .next t ∧ KeepsRegs s t [] ∧ KeepsSpecials s t ∧ t.cs = s.cs ∧
      KeepsMemory s t ∧ t.tlb = s1.tlb ∧ Faulted s t k)

/-- The instruction stores the low bytes of `v` at `ea` (spec/46_load_store.md R261): wherever the
accessor finds the address and the access fits, exactly those bytes change and it completes, or raises
IpOutOfRange after the store at the top of the word-index range; where
the access faults, no byte and no register changes (only translation may have filled a slot). -/
def StoresTo (i : Instr) (s : State) (ea : Nat) (w : Width) (v : Word) (words : Nat) : Prop :=
  (∀ p s1, s.target ea .write = .ok p s1 → p + w.bytes ≤ s.cfg.memSize →
    ∃ t, exec i s = .next t ∧ StoresAt s t p w.bytes v ∧ KeepsRegs s t [] ∧ KeepsSpecials s t ∧
      t.cs = s.cs ∧ t.tlb = s1.tlb ∧
      (s.ip.toNat + words < 2 ^ 31 → KeepsControl s t ∧ Completes s t (s.ip.toNat + words)) ∧
      (2 ^ 31 ≤ s.ip.toNat + words → Faulted s t .ipOutOfRange)) ∧
  (∀ k s1, s.memWrite ea w v = .raise k s1 →
    ∃ t, exec i s = .next t ∧ KeepsRegs s t [] ∧ KeepsSpecials s t ∧ t.cs = s.cs ∧
      KeepsMemory s t ∧ t.tlb = s1.tlb ∧ Faulted s t k)

/-! ### Words of the default opcode map (spec/30_encoding.md R109), the first word in bits 15..0 and the
extension words above it -/

/-- Register format, one word: every pair of register fields. -/
def DecodesRR (op : Nat) (f : Reg → Reg → Instr) : Prop :=
  ∀ a b : Reg, decodeTableWord 16 (op * 2 ^ 8 + a.val * 2 ^ 4 + b.val) = some (f a b)

/-- Register format, three words: every pair of register fields and every 32-bit immediate. -/
def DecodesImm (op : Nat) (f : Reg → Reg → Word → Instr) : Prop :=
  ∀ (a b : Reg) (v : Word),
    decodeTableWord 48 (op * 2 ^ 8 + a.val * 2 ^ 4 + b.val + 2 ^ 16 * v.toNat) = some (f a b v)

/-- Register format, two words: every pair of register fields and every 16-bit offset, signed. -/
def DecodesOff (op : Nat) (f : Reg → Reg → Int → Instr) : Prop :=
  ∀ (a b : Reg) (o : Half),
    decodeTableWord 32 (op * 2 ^ 8 + a.val * 2 ^ 4 + b.val + 2 ^ 16 * o.toNat) =
      some (f a b o.toInt)

/-- Short-immediate format: every register and every unsigned 8-bit value. -/
def DecodesShort (op : Nat) (f : Reg → Nat → Instr) : Prop :=
  ∀ (a : Reg) (n : BitVec 8),
    decodeTableWord 16 (op * 2 ^ 12 + a.val * 2 ^ 8 + n.toNat) = some (f a n.toNat)

/-- Branch format: every 10-bit displacement, signed. -/
def DecodesBranch (op : Nat) (f : Int → Instr) : Prop :=
  ∀ d : BitVec 10, decodeTableWord 16 (op * 2 ^ 10 + d.toNat) = some (f d.toInt)

/-! ### The step -/

/-- The TRACE calls of fetching an instruction: its record and address, then its extension
(spec/40_execution_loop.md R152). -/
def fetchEvents (s : State) (w : Half) (ext : Option Width) (x : Word) : List TraceEvent :=
  if s.cfg.trace then
    .instruction (decodeRecord w) s.fetchAddress ::
      (match ext with
        | none => []
        | some .long => [.immediate32 x]
        | some _ => [.immediate16 (x.setWidth 16)])
  else []

/-- The same machine with no TRACE observer and no record of its calls. -/
def State.untraced (s : State) : State :=
  { s with cfg := { s.cfg with trace := false }, trace := [] }

/-- The next state of an answer that has one. -/
def nextState (o : StepResult) : Option State :=
  match o with
  | .next s => some s
  | .fault _ => none
  | .refused _ => none

end Sys2Proof.Machine
end

