-- ==== Sys2Proof/Certificates/Slice0/Obligations.lean ====
section
/-! DEFINITION. The statements for the provers, each a rule of spec/ or what follows from several. D<n> is a
decision of spec/92_eei_decisions.md, which the model follows (log 15). `WritesRegister`, `LoadsFrom`,
`StoresTo`, `GoesTo`, `StopsWith` and the other terms stand in Sys2Proof/Safety.lean. -/

open Sys2Proof Sys2Proof.Machine

/-! ### Encoding -/

/-- Decoding what the encoder wrote gives the instruction back and leaves the bytes after it, under
every lawful opcode map and both byte orders (R118). The assembly of extension words is D12, the role of
each register field D3 (logs 11, 15). -/
def Obligations.EncodedInstructionsDecodeToThemselves : Prop :=
  ∀ (m : OpcodeMap) (e : Endian) (i : Instr) (rest : List Byte), m.Lawful → i.wellFormed = true →
    decode m e (encode m e i ++ rest) = .ok (i, rest)

/-- Whatever the decoder accepts is well-formed, and it consumes exactly the words R105 gives the
opcode: 3, 2 or 1. -/
def Obligations.DecodedInstructionsAreWellFormedAndExact : Prop :=
  (∀ (m : OpcodeMap) (e : Endian) (bytes rest : List Byte) (i : Instr),
    decode m e bytes = .ok (i, rest) →
      i.wellFormed = true ∧ 2 * i.opcode.words ≤ bytes.length ∧
      rest = bytes.drop (2 * i.opcode.words)) ∧
  (∀ op : Opcode,
    op.words =
      if op ∈ [.ldiL, .ldiB, .ldiS, .ldaL, .ldaB, .ldaS, .staL, .staB, .staS, .jmpa, .jsra, .swi]
      then 3
      else if op ∈ [.ldoL, .ldoB, .ldoS, .stoL, .stoB, .stoS] then 2 else 1)

/-- The fields of every word (R101 to R103), on its value as a number. -/
def Obligations.EveryWordSplitsIntoItsFields : Prop :=
  ∀ w : Half,
    (0xC000 ≤ w.toNat →
      decodeRecord w = ⟨.branch, w.toNat / 1024, 0, 0,
        if w.toNat % 1024 ≤ 511 then (w.toNat % 1024 : Int) else (w.toNat % 1024 : Int) - 1024⟩) ∧
    (0x8000 ≤ w.toNat → w.toNat < 0xC000 →
      decodeRecord w = ⟨.shortImm, w.toNat / 4096, Fin.ofNat 16 (w.toNat / 256), 0,
        (w.toNat % 256 : Int)⟩) ∧
    (w.toNat < 0x8000 →
      decodeRecord w = ⟨.register, w.toNat / 256, Fin.ofNat 16 (w.toNat / 16),
        Fin.ofNat 16 w.toNat, 0⟩)

/-- A word is the opcode its opcode field names, whatever its other bits, under every lawful map (R111).
That unused bits are ignored is D41 (log 15). -/
def Obligations.UnusedBitsNeverMakeAWordIllegal : Prop :=
  ∀ (m : OpcodeMap) (op : Opcode) (w : Half), m.Lawful →
    (match op.format with
      | .register => w.toNat / 2 ^ 8 = m.valueOf op
      | .shortImm => w.toNat / 2 ^ 12 = m.valueOf op
      | .branch => w.toNat / 2 ^ 10 = m.valueOf op) →
    m.find (decodeRecord w).format (decodeRecord w).field = some op

/-- The words that are no instruction under the default opcode map are exactly those of R112. The map is
the default of log 10. -/
def Obligations.IllegalWordsOfTheDefaultMap : Prop :=
  ∀ w : Half,
    OpcodeMap.standard.find (decodeRecord w).format (decodeRecord w).field = none ↔
      (w.toNat / 256 = 0 ∨ (0x16 ≤ w.toNat / 256 ∧ w.toNat / 256 ≤ 0x18) ∨
        (0x3A ≤ w.toNat / 256 ∧ w.toNat / 256 ≤ 0x7F) ∨ 0x3A ≤ w.toNat / 1024 ∧ 0xC000 ≤ w.toNat)

/-- Every word of the default OPCODE_MAP, with every value of its fields and of its extension, decodes to
the instruction and operands that R101 to R107, R109 and R110 give it. The opcode values and the roles of
the two register fields are what the spec takes from general knowledge (log 10, log 11). -/
def Obligations.DefaultOpcodeMapWordsDecode : Prop :=
  DecodesImm 0x01 (fun a _ v => .ldiL a v) ∧ DecodesRR 0x02 .mov ∧
  DecodesImm 0x03 (fun _ _ v => .jsra v) ∧ DecodesRR 0x04 (fun _ _ => .ret) ∧ DecodesRR 0x05 .add ∧
  DecodesRR 0x06 .push ∧ DecodesRR 0x07 .pop ∧ DecodesImm 0x08 (fun a _ v => .ldaL a v) ∧
  DecodesImm 0x09 (fun a _ v => .staL a v) ∧ DecodesRR 0x0A .ldL ∧ DecodesRR 0x0B .stL ∧
  DecodesOff 0x0C .ldoL ∧ DecodesOff 0x0D .stoL ∧ DecodesRR 0x0E .cmp ∧
  DecodesRR 0x0F (fun _ _ => .nop) ∧ DecodesRR 0x10 .sexB ∧ DecodesRR 0x11 .sexS ∧
  DecodesRR 0x12 .zexB ∧ DecodesRR 0x13 .zexS ∧ DecodesRR 0x14 .umulX ∧ DecodesRR 0x15 .mulX ∧
  DecodesRR 0x19 (fun a _ => .jsr a) ∧ DecodesImm 0x1A (fun _ _ v => .jmpa v) ∧
  DecodesImm 0x1B (fun a _ v => .ldiB a v) ∧ DecodesRR 0x1C .ldB ∧
  DecodesImm 0x1D (fun a _ v => .ldaB a v) ∧ DecodesRR 0x1E .stB ∧
  DecodesImm 0x1F (fun a _ v => .staB a v) ∧ DecodesImm 0x20 (fun a _ v => .ldiS a v) ∧
  DecodesRR 0x21 .ldS ∧ DecodesImm 0x22 (fun a _ v => .ldaS a v) ∧ DecodesRR 0x23 .stS ∧
  DecodesImm 0x24 (fun a _ v => .staS a v) ∧ DecodesRR 0x25 (fun a _ => .jmp a) ∧
  DecodesRR 0x26 .and ∧ DecodesRR 0x27 .lshr ∧ DecodesRR 0x28 .ashl ∧ DecodesRR 0x29 .sub ∧
  DecodesRR 0x2A .neg ∧ DecodesRR 0x2B .or ∧ DecodesRR 0x2C .not ∧ DecodesRR 0x2D .ashr ∧
  DecodesRR 0x2E .xor ∧ DecodesRR 0x2F .mul ∧ DecodesImm 0x30 (fun _ _ v => .swi v) ∧
  DecodesRR 0x31 .div ∧ DecodesRR 0x32 .udiv ∧ DecodesRR 0x33 .mod ∧ DecodesRR 0x34 .umod ∧
  DecodesRR 0x35 (fun _ _ => .brk) ∧ DecodesOff 0x36 .ldoB ∧ DecodesOff 0x37 .stoB ∧
  DecodesOff 0x38 .ldoS ∧ DecodesOff 0x39 .stoS ∧ DecodesShort 0x8 .inc ∧ DecodesShort 0x9 .dec ∧
  DecodesShort 0xA .gsr ∧ DecodesShort 0xB .ssr ∧ DecodesBranch 0x30 .beq ∧
  DecodesBranch 0x31 .bne ∧ DecodesBranch 0x32 .blt ∧ DecodesBranch 0x33 .bgt ∧
  DecodesBranch 0x34 .bltu ∧ DecodesBranch 0x35 .bgtu ∧ DecodesBranch 0x36 .bge ∧
  DecodesBranch 0x37 .ble ∧ DecodesBranch 0x38 .bgeu ∧ DecodesBranch 0x39 .bleu

/-- A few words of the manual's tables decode to the instructions they stand for. The opcode values are
those of log 10. -/
def Obligations.WordsOfTheManualDecode : Prop :=
  decodeTableWord 16 0x0523 = some (.add 2 3) ∧
  decodeTableWord 48 0x123456780120 = some (.ldiL 2 0x12345678) ∧
  decodeTableWord 32 0xFFFE3923 = some (.stoS 2 3 (-2)) ∧
  decodeTableWord 16 0xC7FC = some (.bne (-4)) ∧
  decodeTableWord 16 0xB309 = some (.ssr 3 9) ∧
  decodeTableWord 16 0x7FFF = none

/-! ### Arithmetic -/

/-- Add, Sub, Neg, Inc and Dec (R160 to R164): result modulo 2^32, one register written, no flag. D3 and
D34 (logs 11, 15) fix the source register of Neg and that Inc and Dec wrap; D13, D15, D16 and D20 (log
15) fix how it completes or faults, and log 4 that a fault is a next state. -/
def Obligations.AdditiveArithmeticWraps : Prop :=
  ∀ (s : State) (a b : Reg) (n : Nat),
    WritesRegister (.add a b) s a (u32 ((s.x a).toNat + (s.x b).toNat)) 1 ∧
    WritesRegister (.sub a b) s a (u32 ((s.x a).toNat - (s.x b).toNat)) 1 ∧
    WritesRegister (.neg a b) s a (u32 (0 - (s.x b).toNat)) 1 ∧
    WritesRegister (.inc a n) s a (u32 ((s.x a).toNat + n)) 1 ∧
    WritesRegister (.dec a n) s a (u32 ((s.x a).toNat - n)) 1

/-- Mul, MulX and UmulX (R165 to R167): the low and the high half of the exact product. D13, D15, D16
and D20 (log 15) fix how it completes or faults, and log 4 that a fault is a next state. -/
def Obligations.ProductsKeepTheirHalf : Prop :=
  ∀ (s : State) (a b : Reg),
    WritesRegister (.mul a b) s a (u32 (s32 (s.x a) * s32 (s.x b))) 1 ∧
    WritesRegister (.mulX a b) s a (u32 (s32 (s.x a) * s32 (s.x b) / 2 ^ 32)) 1 ∧
    WritesRegister (.umulX a b) s a (BitVec.ofNat 32 ((s.x a).toNat * (s.x b).toNat / 2 ^ 32)) 1

/-- Div, Udiv, Mod and Umod (R168 to R171, R175): truncated quotient and remainder; the pair INT32_MIN
and -1; a zero divisor faults with nothing written. Truncation is D7 (log 13), the unsigned zero divisor
D8 and MOD_OVERFLOW D9 (log 15); D13, D15, D16 and D20 (log 15) fix how it completes or faults, and log
4 that a fault is a next state. -/
def Obligations.DivisionAndRemainder : Prop :=
  ∀ (s : State) (a b : Reg),
    (s.x b = 0#32 →
      StopsWith (.div a b) s .divisionByZero ∧ StopsWith (.udiv a b) s .divisionByZero ∧
      StopsWith (.mod a b) s .divisionByZero ∧ StopsWith (.umod a b) s .divisionByZero) ∧
    (s.x b ≠ 0#32 →
      WritesRegister (.udiv a b) s a (BitVec.ofNat 32 ((s.x a).toNat / (s.x b).toNat)) 1 ∧
      WritesRegister (.umod a b) s a (BitVec.ofNat 32 ((s.x a).toNat % (s.x b).toNat)) 1) ∧
    (s.x a = 0x80000000#32 ∧ s.x b = 0xFFFFFFFF#32 →
      WritesRegister (.div a b) s a 0x80000000#32 1 ∧
      (s.cfg.modOverflow = .fault → StopsWith (.mod a b) s .remainderOverflow) ∧
      (s.cfg.modOverflow = .zero → WritesRegister (.mod a b) s a 0#32 1)) ∧
    (s.x b ≠ 0#32 → ¬ (s.x a = 0x80000000#32 ∧ s.x b = 0xFFFFFFFF#32) →
      WritesRegister (.div a b) s a (u32 ((s32 (s.x a)).tdiv (s32 (s.x b)))) 1 ∧
      WritesRegister (.mod a b) s a (u32 ((s32 (s.x a)).tmod (s32 (s.x b)))) 1)

/-! ### Logic, shifts, extension -/

/-- And, Or, Xor and Not (R190 to R193), bit by bit. The source register of Not is D3 (log 11); D13,
D15, D16 and D20 (log 15) fix how it completes or faults, and log 4 that a fault is a next state. -/
def Obligations.BitwiseLogicBitByBit : Prop :=
  ∀ (s : State) (a b : Reg), ∃ vAnd vOr vXor vNot : Word,
    WritesRegister (.and a b) s a vAnd 1 ∧ WritesRegister (.or a b) s a vOr 1 ∧
    WritesRegister (.xor a b) s a vXor 1 ∧ WritesRegister (.not a b) s a vNot 1 ∧
    ∀ k < 32,
      vAnd.getLsbD k = ((s.x a).getLsbD k && (s.x b).getLsbD k) ∧
      vOr.getLsbD k = ((s.x a).getLsbD k || (s.x b).getLsbD k) ∧
      vXor.getLsbD k = ((s.x a).getLsbD k ^^ (s.x b).getLsbD k) ∧
      vNot.getLsbD k = !(s.x b).getLsbD k

/-- Ashl, Ashr and Lshr (R194 to R197): the amount is `x[B]`; 32 or more faults or is masked, as
SHIFT_OVERSIZE says. SHIFT_OVERSIZE is D10 and that B holds the amount D3 (logs 11, 15); D13, D15, D16
and D20 (log 15) fix how it completes or faults, and log 4 that a fault is a next state. -/
def Obligations.ShiftsByTheAmountInB : Prop :=
  ∀ (s : State) (a b : Reg) (n : Nat),
    ((s.x b).toNat < 32 ∧ n = (s.x b).toNat ∨
        32 ≤ (s.x b).toNat ∧ s.cfg.shiftOversize = .mask5 ∧ n = (s.x b).toNat % 32 →
      WritesRegister (.ashl a b) s a (u32 ((s.x a).toNat * 2 ^ n)) 1 ∧
      WritesRegister (.ashr a b) s a (u32 (s32 (s.x a) / 2 ^ n)) 1 ∧
      WritesRegister (.lshr a b) s a (BitVec.ofNat 32 ((s.x a).toNat / 2 ^ n)) 1) ∧
    (32 ≤ (s.x b).toNat → s.cfg.shiftOversize = .fault →
      StopsWith (.ashl a b) s .shiftAmountOutOfRange ∧
      StopsWith (.ashr a b) s .shiftAmountOutOfRange ∧
      StopsWith (.lshr a b) s .shiftAmountOutOfRange)

/-- SexB, SexS, ZexB and ZexS (R198 to R201): the low 8 or 16 bits of `x[B]`, with the sign's weight
taken off or zeros above. The source register is D3 (log 11); D13, D15, D16 and D20 (log 15) fix how it
completes or faults, and log 4 that a fault is a next state. -/
def Obligations.ExtensionsOfTheLowBits : Prop :=
  ∀ (s : State) (a b : Reg),
    WritesRegister (.sexB a b) s a
      (u32 ((s.x b).toNat % 2 ^ 8 - if (s.x b).getLsbD 7 then 2 ^ 8 else 0)) 1 ∧
    WritesRegister (.sexS a b) s a
      (u32 ((s.x b).toNat % 2 ^ 16 - if (s.x b).getLsbD 15 then 2 ^ 16 else 0)) 1 ∧
    WritesRegister (.zexB a b) s a (BitVec.ofNat 32 ((s.x b).toNat % 2 ^ 8)) 1 ∧
    WritesRegister (.zexS a b) s a (BitVec.ofNat 32 ((s.x b).toNat % 2 ^ 16)) 1

/-! ### Compare and branch -/

/-- Cmp (R210): both scalars are written, three-way, and nothing else. That A is the left operand is D3
(log 11); D13, D15, D16 and D20 (log 15) fix how it completes or faults, and log 4 that a fault is a
next state. -/
def Obligations.CompareWritesBothScalars : Prop :=
  ∀ (s : State) (a b : Reg), ∃ t, exec (.cmp a b) s = .next t ∧
    (s32 (s.x a) < s32 (s.x b) → t.cs.signed = .less) ∧
    (s32 (s.x a) = s32 (s.x b) → t.cs.signed = .equal) ∧
    (s32 (s.x a) > s32 (s.x b) → t.cs.signed = .greater) ∧
    ((s.x a).toNat < (s.x b).toNat → t.cs.unsigned = .less) ∧
    ((s.x a).toNat = (s.x b).toNat → t.cs.unsigned = .equal) ∧
    ((s.x a).toNat > (s.x b).toNat → t.cs.unsigned = .greater) ∧
    KeepsRegs s t [] ∧ KeepsSpecials s t ∧ KeepsMemory s t ∧ t.tlb = s.tlb ∧
    (s.ip.toNat + 1 < 2 ^ 31 → KeepsControl s t ∧ Completes s t (s.ip.toNat + 1)) ∧
    (2 ^ 31 ≤ s.ip.toNat + 1 → Faulted s t .ipOutOfRange)

/-- The ten branches (R211 to R221): taken on their scalar's sign, to `IP + 1 + disp`, else to `IP + 1`;
outside `[0, 2^31)` they raise IpOutOfRange with nothing written. D13, D15, D16 and D20 (log 15) fix how
it completes or faults, and log 4 that a fault is a next state. -/
def Obligations.BranchesTestTheirScalar : Prop :=
  ∀ (s : State) (d : Int),
    let next : Int := s.ip.toNat + 1
    GoesTo (.beq d) s (if s.cs.signed = .equal then next + d else next) ∧
    GoesTo (.bne d) s (if s.cs.signed ≠ .equal then next + d else next) ∧
    GoesTo (.bge d) s (if s.cs.signed ≠ .less then next + d else next) ∧
    GoesTo (.bgt d) s (if s.cs.signed = .greater then next + d else next) ∧
    GoesTo (.ble d) s (if s.cs.signed ≠ .greater then next + d else next) ∧
    GoesTo (.blt d) s (if s.cs.signed = .less then next + d else next) ∧
    GoesTo (.bgeu d) s (if s.cs.unsigned ≠ .less then next + d else next) ∧
    GoesTo (.bgtu d) s (if s.cs.unsigned = .greater then next + d else next) ∧
    GoesTo (.bleu d) s (if s.cs.unsigned ≠ .greater then next + d else next) ∧
    GoesTo (.bltu d) s (if s.cs.unsigned = .less then next + d else next)

/-- After a Cmp, each branch is taken exactly on its relation of the compared values (R222). That A is
the left operand is D3 (log 11); D13, D15, D16 and D20 (log 15) fix how it completes or faults, and log
4 that a fault is a next state. -/
def Obligations.BranchAfterCompareFollowsTheRelation : Prop :=
  ∀ (s t : State) (a b : Reg) (d : Int), exec (.cmp a b) s = .next t →
    s.ip.toNat + 1 < 2 ^ 31 →
    let next : Int := s.ip.toNat + 2
    let x := s32 (s.x a)
    let y := s32 (s.x b)
    let u := (s.x a).toNat
    let v := (s.x b).toNat
    GoesTo (.beq d) t (if s.x a = s.x b then next + d else next) ∧
    GoesTo (.bne d) t (if s.x a ≠ s.x b then next + d else next) ∧
    GoesTo (.blt d) t (if x < y then next + d else next) ∧
    GoesTo (.ble d) t (if x ≤ y then next + d else next) ∧
    GoesTo (.bgt d) t (if x > y then next + d else next) ∧
    GoesTo (.bge d) t (if x ≥ y then next + d else next) ∧
    GoesTo (.bltu d) t (if u < v then next + d else next) ∧
    GoesTo (.bleu d) t (if u ≤ v then next + d else next) ∧
    GoesTo (.bgtu d) t (if u > v then next + d else next) ∧
    GoesTo (.bgeu d) t (if u ≥ v then next + d else next)

/-! ### Jumps, calls, return -/

/-- Jmp and Jmpa (R230 to R232): an even target `t` is reached at word `t / 2`; an odd one faults with
nothing written. That Jmp reads A is D3 (log 11); D13, D15, D16 and D20 (log 15) fix how it completes or
faults, and log 4 that a fault is a next state. -/
def Obligations.JumpsReachEvenTargets : Prop :=
  ∀ (s : State) (a : Reg) (v : Word),
    ((s.x a).toNat % 2 = 0 → GoesTo (.jmp a) s ((s.x a).toNat / 2)) ∧
    ((s.x a).toNat % 2 = 1 → StopsWith (.jmp a) s .jumpToUnalignedAddress) ∧
    (v.toNat % 2 = 0 → GoesTo (.jmpa v) s (v.toNat / 2)) ∧
    (v.toNat % 2 = 1 → StopsWith (.jmpa v) s .jumpToUnalignedAddress)

/-- The internal push and pop of calls and returns (R141, R142), in both modes: Push32 writes SP first
and SP stays decremented if the store faults; Pop32 reads at SP and then adds 4, and leaves SP where the
read faults. The order of the two writes is D5 (log 15). -/
def Obligations.InternalPushAndPop : Prop :=
  ∀ (s : State) (v : Word),
    let p := u32 ((s.x sp).toNat - 4)
    (∀ q s1, (s.setX sp p).target p.toNat .write = .ok q s1 → q + 4 ≤ s.cfg.memSize →
      ∃ t, s.push32 v = .ok () t ∧ t.x sp = p ∧ StoresAt s t q 4 v ∧ KeepsRegs s t [sp] ∧
        KeepsSpecials s t ∧ t.cs = s.cs ∧ t.tlb = s1.tlb ∧ t.ip = s.ip ∧ t.icount = s.icount ∧
        KeepsControl s t) ∧
    (∀ k s1, (s.setX sp p).memWrite p.toNat .long v = .raise k s1 →
      s.push32 v = .raise k s1 ∧ s1.x sp = p ∧ KeepsRegs s s1 [sp] ∧ KeepsMemory s s1) ∧
    (∀ q s1, s.target (s.x sp).toNat .read = .ok q s1 → q + 4 ≤ s.cfg.memSize →
      ∃ r t, s.pop32 = .ok r t ∧ r.toNat = assembled s q 4 ∧
        t.x sp = u32 ((s.x sp).toNat + 4) ∧ KeepsRegs s t [sp] ∧ KeepsSpecials s t ∧
        t.cs = s.cs ∧ KeepsMemory s t ∧ t.tlb = s1.tlb ∧ t.ip = s.ip ∧ t.icount = s.icount ∧
        KeepsControl s t) ∧
    (∀ k s1, s.memRead (s.x sp).toNat .long = .raise k s1 →
      s.pop32 = .raise k s1 ∧ KeepsRegs s s1 [] ∧ KeepsMemory s s1)

/-- Jsr and Jsra (R233 to R235), in both modes: where the three pushes (zero, return IP, FP) go through,
SP and FP end 12 lower, and an even target is reached at word `target / 2`; an odd target faults after
the frame is pushed. The roles are D3, the order D5 and the form of the return IP D14 (logs 11, 15);
D13, D15, D16 and D20 (log 15) fix how it completes or faults, and log 4 that a fault is a next state.
-/
def Obligations.CallsPushTheirFrame : Prop :=
  ∀ (s s1 s2 s3 : State) (i : Instr) (target : Word) (words : Nat),
    ((∃ a, i = .jsr a ∧ target = s.x a ∧ words = 1) ∨ i = .jsra target ∧ words = 3) →
    s.push32 0#32 = .ok () s1 → s1.push32 (BitVec.ofNat 32 (s.ip.toNat + words)) = .ok () s2 →
    s2.push32 (s.x fp) = .ok () s3 →
    ∃ t, exec i s = .next t ∧ t.x sp = u32 ((s.x sp).toNat - 12) ∧ t.x fp = t.x sp ∧
      KeepsRegs s t [fp, sp] ∧ KeepsSpecials s t ∧ t.cs = s.cs ∧ KeepsMemory s3 t ∧
      t.tlb = s3.tlb ∧
      (target.toNat % 2 = 0 → KeepsControl s t ∧ Completes s t (target.toNat / 2)) ∧
      (target.toNat % 2 = 1 → Faulted s t .jumpToUnalignedAddress)

/-- A push of Jsr or Jsra that faults ends the run with the earlier pushes and every SP decrement kept
(R233, R326). The order is D5 and what a fault keeps D16 (log 15); a fault is a next state (log 4). -/
def Obligations.FaultingCallsKeepEarlierPushes : Prop :=
  ∀ (s : State) (i : Instr) (words : Nat),
    ((∃ a, i = .jsr a ∧ words = 1) ∨ (∃ v, i = .jsra v) ∧ words = 3) →
    ∀ k,
      (∀ s1, s.push32 0#32 = .raise k s1 → ∃ t, exec i s = .next t ∧ NothingWritten s1 t ∧
        Faulted s t k) ∧
      (∀ s1 s2, s.push32 0#32 = .ok () s1 →
        s1.push32 (BitVec.ofNat 32 (s.ip.toNat + words)) = .raise k s2 →
        ∃ t, exec i s = .next t ∧ NothingWritten s2 t ∧ Faulted s t k) ∧
      (∀ s1 s2 s3, s.push32 0#32 = .ok () s1 →
        s1.push32 (BitVec.ofNat 32 (s.ip.toNat + words)) = .ok () s2 →
        s2.push32 (s.x fp) = .raise k s3 →
        ∃ t, exec i s = .next t ∧ NothingWritten s3 t ∧ Faulted s t k)

/-- A call in physical mode, word by word (R233 to R235): 0 at `s - 4`, the return IP at `s - 8`, the
old FP at `s - 12`, no other byte changed; then an even target is reached and an odd one faults. The
roles are D3, the order D5 and the form of the return IP D14 (logs 11, 15); D13, D15, D16 and D20 (log
15) fix how it completes or faults, and log 4 that a fault is a next state. -/
def Obligations.CallFrameInPhysicalMemory : Prop :=
  ∀ (s : State) (i : Instr) (target : Word) (words : Nat),
    s.cfg.mode = .physical →
    ((∃ a, i = .jsr a ∧ target = s.x a ∧ words = 1) ∨ i = .jsra target ∧ words = 3) →
    let q (k : Nat) : Nat := (u32 ((s.x sp).toNat - 4 * k)).toNat
    q 1 + 4 ≤ s.cfg.memSize → q 2 + 4 ≤ s.cfg.memSize → q 3 + 4 ≤ s.cfg.memSize →
    ∃ t, exec i s = .next t ∧ assembled t (q 1) 4 = 0 ∧
      assembled t (q 2) 4 = s.ip.toNat + words ∧ assembled t (q 3) 4 = (s.x fp).toNat ∧
      (t.x fp).toNat = q 3 ∧ (t.x sp).toNat = q 3 ∧ KeepsRegs s t [fp, sp] ∧ KeepsSpecials s t ∧
      t.cs = s.cs ∧ t.tlb = s.tlb ∧
      (∀ a, (∀ k ∈ [1, 2, 3], a < q k ∨ q k + 4 ≤ a) → t.byte a = s.byte a) ∧
      (target.toNat % 2 = 0 → KeepsControl s t ∧ Completes s t (target.toNat / 2)) ∧
      (target.toNat % 2 = 1 → Faulted s t .jumpToUnalignedAddress)

/-- Ret (R236), in both modes: SP = FP, then FP, the IP and the placeholder are popped; the popped IP is
a word index, and one of 2^31 or more raises IpOutOfRange after these writes. The order is D5 and that
the popped IP is a word index D14 (log 15); D13, D15, D16 and D20 (log 15) fix how it completes or
faults, and log 4 that a fault is a next state. -/
def Obligations.ReturnPopsTheFrame : Prop :=
  ∀ (s s1 s2 s3 : State) (f r z : Word),
    (s.setX sp (s.x fp)).pop32 = .ok f s1 → (s1.setX fp f).pop32 = .ok r s2 →
    s2.pop32 = .ok z s3 →
    ∃ t, exec .ret s = .next t ∧ t.x fp = f ∧ t.x sp = u32 ((s.x fp).toNat + 12) ∧
      KeepsRegs s t [fp, sp] ∧ KeepsSpecials s t ∧ t.cs = s.cs ∧ KeepsMemory s t ∧
      t.tlb = s3.tlb ∧
      (r.toNat < 2 ^ 31 → KeepsControl s t ∧ Completes s t r.toNat) ∧
      (2 ^ 31 ≤ r.toNat → Faulted s t .ipOutOfRange)

/-- A pop of Ret that faults ends the run with the earlier writes kept: SP = FP always, then the popped
FP and the SP increments (R236, R326). The order is D5 and what a fault keeps D16 (log 15); a fault is a
next state (log 4). -/
def Obligations.FaultingReturnsKeepEarlierPops : Prop :=
  ∀ (s : State) (k : FaultKind),
    (∀ s1, (s.setX sp (s.x fp)).pop32 = .raise k s1 →
      ∃ t, exec .ret s = .next t ∧ t.x sp = s.x fp ∧ KeepsRegs s t [sp] ∧ KeepsMemory s t ∧
        Faulted s t k) ∧
    (∀ s1 s2 f, (s.setX sp (s.x fp)).pop32 = .ok f s1 → (s1.setX fp f).pop32 = .raise k s2 →
      ∃ t, exec .ret s = .next t ∧ t.x fp = f ∧ t.x sp = u32 ((s.x fp).toNat + 4) ∧
        KeepsRegs s t [fp, sp] ∧ KeepsMemory s t ∧ Faulted s t k) ∧
    (∀ s1 s2 s3 f r, (s.setX sp (s.x fp)).pop32 = .ok f s1 → (s1.setX fp f).pop32 = .ok r s2 →
      s2.pop32 = .raise k s3 →
      ∃ t, exec .ret s = .next t ∧ t.x fp = f ∧ t.x sp = u32 ((s.x fp).toNat + 8) ∧
        KeepsRegs s t [fp, sp] ∧ KeepsMemory s t ∧ Faulted s t k)

/-- Call and return discipline in physical mode (R237): a Ret that runs with FP and the three frame
words as the call left them restores SP and FP and resumes after the call. It rests on D5, D14 and D15
(log 15). -/
def Obligations.ReturnRestoresTheCaller : Prop :=
  ∀ (s t u : State) (i : Instr) (words : Nat),
    s.cfg.mode = .physical →
    ((∃ a, i = .jsr a ∧ words = 1) ∨ (∃ v, i = .jsra v) ∧ words = 3) →
    exec i s = .next t → s.ip.toNat + words < 2 ^ 31 →
    let q (k : Nat) : Nat := (u32 ((s.x sp).toNat - 4 * k)).toNat
    q 1 + 4 ≤ s.cfg.memSize → q 2 + 4 ≤ s.cfg.memSize → q 3 + 4 ≤ s.cfg.memSize →
    u.cfg = s.cfg → u.x fp = t.x fp →
    (∀ k ∈ [1, 2, 3], ∀ j < 4, u.byte (q k + j) = t.byte (q k + j)) →
    ∃ v, exec .ret u = .next v ∧ v.x sp = s.x sp ∧ v.x fp = s.x fp ∧
      Completes u v (s.ip.toNat + words)

/-! ### Stack -/

/-- Push (R250), in both modes: the pointer register is written first and stays decremented if the store
faults; the old value of `x[B]` is stored. The roles are D3 and D4, the order D5 (logs 11, 15); D13,
D15, D16 and D20 (log 15) fix how it completes or faults, and log 4 that a fault is a next state. -/
def Obligations.PushStoresBelowItsPointer : Prop :=
  ∀ (s : State) (a b : Reg),
    let p := u32 ((s.x a).toNat - 4)
    (∀ q s1, (s.setX a p).target p.toNat .write = .ok q s1 → q + 4 ≤ s.cfg.memSize →
      ∃ t, exec (.push a b) s = .next t ∧ t.x a = p ∧ StoresAt s t q 4 (s.x b) ∧
        KeepsRegs s t [a] ∧ KeepsSpecials s t ∧ t.cs = s.cs ∧ t.tlb = s1.tlb ∧
        (s.ip.toNat + 1 < 2 ^ 31 → KeepsControl s t ∧ Completes s t (s.ip.toNat + 1)) ∧
        (2 ^ 31 ≤ s.ip.toNat + 1 → Faulted s t .ipOutOfRange)) ∧
    (∀ k s1, (s.setX a p).memWrite p.toNat .long (s.x b) = .raise k s1 →
      ∃ t, exec (.push a b) s = .next t ∧ t.x a = p ∧ KeepsRegs s t [a] ∧ KeepsSpecials s t ∧
        t.cs = s.cs ∧ KeepsMemory s t ∧ t.tlb = s1.tlb ∧ Faulted s t k)

/-- Pop (R251), in both modes: the value goes to `x[B]`, then the pointer `x[A]` rises by 4, so the
pointer wins when A = B; a faulting read writes nothing. The roles are D3 and D4, the order D5 (logs 11,
15); D13, D15, D16 and D20 (log 15) fix how it completes or faults, and log 4 that a fault is a next
state. -/
def Obligations.PopLoadsAtItsPointer : Prop :=
  ∀ (s : State) (a b : Reg),
    (∀ q s1, s.target (s.x a).toNat .read = .ok q s1 → q + 4 ≤ s.cfg.memSize →
      ∃ t, exec (.pop a b) s = .next t ∧ t.x a = u32 ((s.x a).toNat + 4) ∧
        (b ≠ a → (t.x b).toNat = assembled s q 4) ∧
        KeepsRegs s t [a, b] ∧ KeepsSpecials s t ∧ t.cs = s.cs ∧ KeepsMemory s t ∧
        t.tlb = s1.tlb ∧
        (s.ip.toNat + 1 < 2 ^ 31 → KeepsControl s t ∧ Completes s t (s.ip.toNat + 1)) ∧
        (2 ^ 31 ≤ s.ip.toNat + 1 → Faulted s t .ipOutOfRange)) ∧
    (∀ k s1, s.memRead (s.x a).toNat .long = .raise k s1 →
      ∃ t, exec (.pop a b) s = .next t ∧ KeepsRegs s t [] ∧ KeepsSpecials s t ∧ t.cs = s.cs ∧
        KeepsMemory s t ∧ t.tlb = s1.tlb ∧ Faulted s t k)

/-- A Push followed by a Pop with the same pointer register restores it and copies the pushed value
(R252), in physical mode. The roles and order are D3 to D5 (logs 11, 15). -/
def Obligations.PopUndoesPush : Prop :=
  ∀ (s t : State) (a b c : Reg), s.cfg.mode = .physical → c ≠ a →
    s.ip.toNat + 2 < 2 ^ 31 → (u32 ((s.x a).toNat - 4)).toNat + 4 ≤ s.cfg.memSize →
    exec (.push a b) s = .next t →
    ∃ u, exec (.pop a c) t = .next u ∧ u.x a = s.x a ∧ u.x c = s.x b ∧
      KeepsRegs s u [c] ∧ KeepsMemory t u ∧ Completes t u (s.ip.toNat + 2)

/-! ### Loads and stores -/

/-- The nine loads (R264 to R266, R270 to R272, R276 to R278), in both modes. Zero extension is D6 (log
12), the roles D3 (log 11); D13, D15, D16 and D20 (log 15) fix how it completes or faults, and log 4
that a fault is a next state. -/
def Obligations.LoadsReadTheirAddress : Prop :=
  ∀ (s : State) (a b : Reg) (v : Word) (off : Int) (ea : Nat),
    LoadsFrom (.ldB a b) s a (s.x b).toNat .byte 1 ∧
    LoadsFrom (.ldS a b) s a (s.x b).toNat .short 1 ∧
    LoadsFrom (.ldL a b) s a (s.x b).toNat .long 1 ∧
    LoadsFrom (.ldaB a v) s a v.toNat .byte 3 ∧
    LoadsFrom (.ldaS a v) s a v.toNat .short 3 ∧
    LoadsFrom (.ldaL a v) s a v.toNat .long 3 ∧
    ((ea : Int) = (s.x b).toNat + off → ea < 2 ^ 32 →
      LoadsFrom (.ldoB a b off) s a ea .byte 2 ∧
      LoadsFrom (.ldoS a b off) s a ea .short 2 ∧
      LoadsFrom (.ldoL a b off) s a ea .long 2)

/-- The nine stores (R267 to R269, R273 to R275, R279 to R281), in both modes. The roles are D3 (log
11); D13, D15, D16 and D20 (log 15) fix how it completes or faults, and log 4 that a fault is a next
state. -/
def Obligations.StoresWriteTheirAddress : Prop :=
  ∀ (s : State) (a b : Reg) (v : Word) (off : Int) (ea : Nat),
    StoresTo (.stB a b) s (s.x a).toNat .byte (s.x b) 1 ∧
    StoresTo (.stS a b) s (s.x a).toNat .short (s.x b) 1 ∧
    StoresTo (.stL a b) s (s.x a).toNat .long (s.x b) 1 ∧
    StoresTo (.staB a v) s v.toNat .byte (s.x a) 3 ∧
    StoresTo (.staS a v) s v.toNat .short (s.x a) 3 ∧
    StoresTo (.staL a v) s v.toNat .long (s.x a) 3 ∧
    ((ea : Int) = (s.x a).toNat + off → ea < 2 ^ 32 →
      StoresTo (.stoB a b off) s ea .byte (s.x b) 2 ∧
      StoresTo (.stoS a b off) s ea .short (s.x b) 2 ∧
      StoresTo (.stoL a b off) s ea .long (s.x b) 2)

/-- A register+offset address outside 32 bits raises MemoryOutOfRange without any access (R263). This is
D45, the base register D3 (logs 11, 15); a fault is a next state (log 4). -/
def Obligations.OffsetSumOutside32BitsFaults : Prop :=
  ∀ (s : State) (a b : Reg) (off : Int),
    (((s.x b).toNat : Int) + off < 0 ∨ 2 ^ 32 ≤ ((s.x b).toNat : Int) + off →
      StopsWith (.ldoB a b off) s .memoryOutOfRange ∧
      StopsWith (.ldoS a b off) s .memoryOutOfRange ∧
      StopsWith (.ldoL a b off) s .memoryOutOfRange) ∧
    (((s.x a).toNat : Int) + off < 0 ∨ 2 ^ 32 ≤ ((s.x a).toNat : Int) + off →
      StopsWith (.stoB a b off) s .memoryOutOfRange ∧
      StopsWith (.stoS a b off) s .memoryOutOfRange ∧
      StopsWith (.stoL a b off) s .memoryOutOfRange)

/-- The physical accessors (R61 to R64): an access whose bytes do not all lie below MEM_SIZE raises
MemoryOutOfRange and changes nothing; any other reads the bytes in ENDIAN order, or writes exactly them.
That the sum is an integer and that a faulting write changes no byte is D21 (log 15). -/
def Obligations.PhysicalAccessesAreBounded : Prop :=
  ∀ (s : State) (a : Nat) (w : Width) (v : Word),
    (s.cfg.memSize < a + w.bytes →
      s.physRead a w = .raise .memoryOutOfRange s ∧
      s.physWrite a w v = .raise .memoryOutOfRange s) ∧
    (a + w.bytes ≤ s.cfg.memSize →
      (∃ r, s.physRead a w = .ok r s ∧ r.toNat = assembled s a w.bytes) ∧
      ∃ t, s.physWrite a w v = .ok () t ∧ StoresAt s t a w.bytes v ∧ t.regs = s.regs ∧
        t.tlb = s.tlb ∧ KeepsControl s t)

/-- Accesses of any widths see one byte array (R67): after a long store, each byte load inside it reads
the byte ENDIAN places there, and a long load reads the value back. ENDIAN is a parameter (D1), and the
statement holds for both values. -/
def Obligations.WidthsShareOneByteArray : Prop :=
  ∀ (s t : State) (a k : Nat) (v : Word),
    s.physWrite a .long v = .ok () t → k < 4 →
    t.physRead a .long = .ok v t ∧
    ∃ r, t.physRead (a + k) .byte = .ok r t ∧
      r.toNat = match s.cfg.endian with
        | .little => v.toNat / 2 ^ (8 * k) % 256
        | .big => v.toNat / 2 ^ (8 * (3 - k)) % 256

/-! ### Immediates and move -/

/-- LdiL, LdiB, LdiS and Mov (R290 to R293), with the immediate already fetched. That the extension is
fetched by the step before the instruction runs is log 8; D13, D15, D16 and D20 (log 15) fix how it
completes or faults, and log 4 that a fault is a next state. -/
def Obligations.ImmediatesAndMovesWriteA : Prop :=
  ∀ (s : State) (a b : Reg) (v : Word),
    WritesRegister (.ldiL a v) s a v 3 ∧
    WritesRegister (.ldiB a v) s a (BitVec.ofNat 32 (v.toNat % 2 ^ 8)) 3 ∧
    WritesRegister (.ldiS a v) s a (BitVec.ofNat 32 (v.toNat % 2 ^ 16)) 3 ∧
    WritesRegister (.mov a b) s a (s.x b) 1

/-! ### System -/

/-- Gsr and Ssr (R300, R301): indices 0 to 9 are plain storage; 10 or more faults with nothing written.
The valid indices are D11 and the absence of effects D36 (log 15); D13, D15, D16 and D20 (log 15) fix
how it completes or faults, and log 4 that a fault is a next state. -/
def Obligations.SpecialRegistersArePlainStorage : Prop :=
  ∀ (s : State) (a : Reg) (j : Fin 10) (n : Nat),
    WritesRegister (.gsr a j.val) s a (s.sr j) 1 ∧
    (∃ t, exec (.ssr a j.val) s = .next t ∧ t.sr j = s.x a ∧ (∀ l, l ≠ j → t.sr l = s.sr l) ∧
      KeepsRegs s t [] ∧ t.cs = s.cs ∧ KeepsMemory s t ∧ t.tlb = s.tlb ∧
      (s.ip.toNat + 1 < 2 ^ 31 → KeepsControl s t ∧ Completes s t (s.ip.toNat + 1)) ∧
      (2 ^ 31 ≤ s.ip.toNat + 1 → Faulted s t .ipOutOfRange)) ∧
    (10 ≤ n → StopsWith (.gsr a n) s .specialRegisterIndexInvalid ∧
      StopsWith (.ssr a n) s .specialRegisterIndexInvalid)

/-- Swi (R302): special register 3 is written, then the run ends with SoftwareInterrupt; nothing else
changes and ICOUNT does not count. That the number is stored before the fault is D38 (log 15), and a
fault is a next state (log 4). -/
def Obligations.SwiStoresItsNumberThenFaults : Prop :=
  ∀ (s : State) (v : Word), ∃ t, exec (.swi v) s = .next t ∧ t.sr 3 = v ∧
    (∀ l, l ≠ 3 → t.sr l = s.sr l) ∧ KeepsRegs s t [] ∧ t.cs = s.cs ∧ KeepsMemory s t ∧
    t.tlb = s.tlb ∧ Faulted s t .softwareInterrupt

/-- Brk (R303): Halted, counted, returned normally; every register, flag, byte and slot is kept. The IP
after it is a free value (log 5), of which nothing is said. That Brk counts is D20, and that the IP is
open D33 (log 15). -/
def Obligations.BrkHaltsAndCounts : Prop :=
  ∀ s : State, ∃ t, exec .brk s = .next t ∧ t.run = .halted ∧ t.result = some .halted ∧
    t.icount = s.icount + 1 ∧ KeepsRegs s t [] ∧ KeepsSpecials s t ∧ t.cs = s.cs ∧
    KeepsMemory s t ∧ t.tlb = s.tlb ∧ t.cfg = s.cfg ∧ t.trace = s.trace

/-- Nop (R304): only the IP and ICOUNT advance; at the last word it raises IpOutOfRange. D13, D15, D16
and D20 (log 15) fix how it completes or faults, and log 4 that a fault is a next state. -/
def Obligations.NopOnlyAdvances : Prop :=
  ∀ s : State, GoesTo .nop s (s.ip.toNat + 1)

/-! ### The step -/

/-- A STEP RUNS THE DECODED INSTRUCTION, in physical mode: where the bytes at `2·IP` decode to `i`, the
step is `exec i` at that state with the fetch's TRACE calls recorded. The extension bytes are read as
D12 says (log 15); the recorded TRACE calls are log 19. -/
def Obligations.StepRunsTheDecodedInstruction : Prop :=
  ∀ (s : State) (i : Instr) (n : Nat),
    s.run = .running → s.result = none → s.cfg.mode = .physical →
    s.fetchAddress + n ≤ s.cfg.memSize →
    decode s.cfg.opcodeMap s.cfg.endian (s.mem.readBytes s.fetchAddress n) = .ok (i, []) →
    step s = exec i { s with
      trace := s.trace ++ fetchEvents s
        (BitVec.ofNat 16 (bytesValue s.cfg.endian (s.mem.readBytes s.fetchAddress 2)))
        i.opcode.ext i.parts.ext }

/-- The step through the active accessor, in both modes (R131 to R136): the word at `2·IP`, then, where
the opcode has one, the extension at `2·(IP + 1)`, then the instruction they make; a fault of the
extension's read ends the run. The reads of extension words are D12, fetches as reads D35 (log 15); the
split of fetch and run is log 8. -/
def Obligations.StepFetchesThroughTheAccessor : Prop :=
  ∀ (s s1 : State) (w : Word) (op : Opcode),
    s.run = .running → s.result = none →
    s.memRead (2 * s.ip.toNat) .short = .ok w s1 →
    let r := decodeRecord (w.setWidth 16)
    let s2 := s1.emit (.instruction r (2 * s.ip.toNat))
    s.cfg.opcodeMap.find r.format r.field = some op →
    (op.ext = none → step s = exec (Parts.build ⟨op, r.a, r.b, r.value, 0#32⟩) s2) ∧
    (op.ext = some .long → ∀ x s3, s2.memRead (2 * (s.ip.toNat + 1)) .long = .ok x s3 →
      step s = exec (Parts.build ⟨op, r.a, r.b, r.value, x⟩) (s3.emit (.immediate32 x))) ∧
    (op.ext = some .short → ∀ x s3, s2.memRead (2 * (s.ip.toNat + 1)) .short = .ok x s3 →
      step s = exec (Parts.build ⟨op, r.a, r.b, r.value, x⟩)
        (s3.emit (.immediate16 (x.setWidth 16)))) ∧
    (∀ wd k s3, op.ext = some wd → s2.memRead (2 * (s.ip.toNat + 1)) wd = .raise k s3 →
      step s = .next (s3.takeFault k))

/-- A word with no entry in OPCODE_MAP (R305): IllegalOpcode, with no extension read, nothing written
but what the fetch's translation filled, and ICOUNT not incremented. What a fault keeps is D16 (log 15),
a fault is a next state (log 4), TRACE is recorded (log 19). -/
def Obligations.IllegalWordsFaultAtDispatch : Prop :=
  ∀ (s s1 : State) (w : Word), s.run = .running → s.result = none →
    s.memRead (2 * s.ip.toNat) .short = .ok w s1 →
    s.cfg.opcodeMap.find (decodeRecord (w.setWidth 16)).format
      (decodeRecord (w.setWidth 16)).field = none →
    ∃ t, step s = .next t ∧ t.result = some (.faulted .illegalOpcode) ∧ t.icount = s.icount ∧
      t.run = s.run ∧ t.cfg = s.cfg ∧ KeepsRegs s t [] ∧ KeepsSpecials s t ∧ t.cs = s.cs ∧
      KeepsMemory s t ∧ t.tlb = s1.tlb ∧
      t.trace = (s1.emit (.instruction (decodeRecord (w.setWidth 16)) (2 * s.ip.toNat))).trace

/-- A fault of the instruction fetch (R131) ends the run: no register, flag or byte changes, and ICOUNT
does not count. A TLB fill by the faulting fetch is kept (log 7); a fault is a next state (log 4). -/
def Obligations.FetchFaultsEndTheRun : Prop :=
  ∀ (s s1 : State) (k : FaultKind), s.run = .running → s.result = none →
    s.memRead (2 * s.ip.toNat) .short = .raise k s1 →
    k ≠ .pageReadOnly ∧
    ∃ t, step s = .next t ∧ Faulted s t k ∧ KeepsRegs s t [] ∧ KeepsSpecials s t ∧
      t.cs = s.cs ∧ KeepsMemory s t ∧ t.tlb = s1.tlb

/-- A Halted state has no step (R146), and a call of `execute` with an even start makes it run again
(R362, D19, log 15). The other clauses are the model's: nor has a state whose run has ended in a fault a
step (R327, D16, log 16), and every other state steps to a next state (log 4). -/
def Obligations.NoStepAfterTheRunHasEnded : Prop :=
  ∀ s : State,
    (s.run = .halted → step s = .fault .halted) ∧
    (∀ start : Word, start.toNat % 2 = 0 → ∃ t, step (s.enter start) = .next t) ∧
    (s.run = .running → ∀ r, s.result = some r → step s = .fault .runEnded) ∧
    (s.run = .running → s.result = none → ∃ t, step s = .next t)

/-! ### Translation -/

/-- Translation on a TLB hit (R74, R75): the cached entry is used as it stands and memory is not read (the
target is the same whatever memory holds). The write check is R79's, and the target is a sum (R80, D25,
log 15); the TLB does not change (R78). -/
def Obligations.TlbHitsUseTheCachedEntry : Prop :=
  ∀ (s : State) (V : Word) (m : Memory),
    (s.slot ((V.toNat / 2 ^ 12) % 1024)).tag.toNat = V.toNat / 2 ^ 12 →
    let e := (s.slot ((V.toNat / 2 ^ 12) % 1024)).pte
    let p := Config.frame s.cfg e + V.toNat % 4096
    s.translate V .read = .ok p s ∧ (s.setMem m).translate V .read = .ok p (s.setMem m) ∧
    (e.getLsbD s.cfg.pteRw = true → s.translate V .write = .ok p s) ∧
    (e.getLsbD s.cfg.pteRw = false → s.translate V .write = .raise .pageReadOnly s)

/-- Translation on a TLB miss (R75, R77, R78), case by case in the order of R75 and R324. The
comparisons are on integers (D21) and a frame equal to MEM_SIZE faults (D22, log 15). -/
def Obligations.TlbMissesWalkTheTables : Prop :=
  ∀ (s : State) (V : Word) (kind : AccessKind),
    (s.slot ((V.toNat / 2 ^ 12) % 1024)).tag.toNat ≠ V.toNat / 2 ^ 12 →
    let pdeAt := s.cfg.pdBase.toNat + V.toNat / 2 ^ 22 * 4
    let pde : Word := BitVec.ofNat 32 (assembled s pdeAt 4)
    let pteAt := (pde &&& s.cfg.frameMask).toNat + (V.toNat / 2 ^ 12) % 1024 * 4
    let pte : Word := BitVec.ofNat 32 (assembled s pteAt 4)
    let filled := s.fillTlb ((V.toNat / 2 ^ 12) % 1024) ⟨BitVec.ofNat 32 (V.toNat / 2 ^ 12), pte⟩
    (s.cfg.memSize < pdeAt + 4 → s.translate V kind = .raise .memoryOutOfRange s) ∧
    (pdeAt + 4 ≤ s.cfg.memSize →
      (pde.getLsbD s.cfg.pteP = false →
        s.translate V kind = .raise .pageDirectoryEntryNotPresent s) ∧
      (pde.getLsbD s.cfg.pteP = true →
        (s.cfg.memSize < pteAt + 4 → s.translate V kind = .raise .memoryOutOfRange s) ∧
        (pteAt + 4 ≤ s.cfg.memSize →
          (pte.getLsbD s.cfg.pteP = false → s.translate V kind = .raise .pageNotPresent s) ∧
          (pte.getLsbD s.cfg.pteP = true →
            (s.cfg.memSize ≤ (pte &&& s.cfg.frameMask).toNat →
              s.translate V kind = .raise .physicalAddressOutOfRange s) ∧
            ((pte &&& s.cfg.frameMask).toNat < s.cfg.memSize →
              (kind = .write ∧ pte.getLsbD s.cfg.pteRw = false →
                s.translate V kind = .raise .pageReadOnly filled) ∧
              (¬ (kind = .write ∧ pte.getLsbD s.cfg.pteRw = false) →
                s.translate V kind =
                  .ok ((pte &&& s.cfg.frameMask).toNat + V.toNat % 4096) filled))))))

/-- The active accessor (R7, R70, R80, R81): physical addresses go straight to memory; in paged mode an
access is translated once, at its first byte, and the physical access is checked again. An address
outside 32 bits, which no rule translates, raises MemoryOutOfRange: the model's choice (log 6). The
check after translation is D23 (log 15). -/
def Obligations.AccessorFollowsTheMode : Prop :=
  ∀ (s : State) (a : Nat) (w : Width) (v : Word),
    (s.cfg.mode = .physical →
      s.memRead a w = s.physRead a w ∧ s.memWrite a w v = s.physWrite a w v) ∧
    (s.cfg.mode = .paged → a < 2 ^ 32 →
      (∀ p s1, s.translate (BitVec.ofNat 32 a) .read = .ok p s1 →
        s.memRead a w = s1.physRead p w) ∧
      (∀ p s1, s.translate (BitVec.ofNat 32 a) .write = .ok p s1 →
        s.memWrite a w v = s1.physWrite p w v) ∧
      (∀ k s1, s.translate (BitVec.ofNat 32 a) .read = .raise k s1 →
        s.memRead a w = .raise k s1) ∧
      (∀ k s1, s.translate (BitVec.ofNat 32 a) .write = .raise k s1 →
        s.memWrite a w v = .raise k s1)) ∧
    (s.cfg.mode = .paged → 2 ^ 32 ≤ a →
      s.memRead a w = .raise .memoryOutOfRange s ∧
      s.memWrite a w v = .raise .memoryOutOfRange s)

/-- No step invalidates the TLB (R78, R85): each slot after a step is as before or holds an entry that a
completed walk filled, in particular one with a real tag. No flush within a run is D27 (log 15). -/
def Obligations.NoStepInvalidatesATlbSlot : Prop :=
  ∀ (s t : State) (j : Nat), step s = .next t →
    t.slot j = s.slot j ∨
      ((t.slot j).tag.toNat < 2 ^ 20 ∧ (t.slot j).tag.toNat % 1024 = j ∧
        (t.slot j).pte.getLsbD s.cfg.pteP = true ∧
        ((t.slot j).pte &&& s.cfg.frameMask).toNat < s.cfg.memSize)

/-! ### Whole-machine rules -/

/-- EVERY STEP KEEPS THE INVARIANT, from every state that meets it. What the invariant says is spelled
out in Sys2Proof/Safety.lean; the model's own parts are the canonical forms, `result` (log 4) and the
trace (log 19). -/
def Obligations.EveryStepKeepsTheMachineInvariant : Prop :=
  ∀ s t : State, s.Inv → step s = .next t → t.Inv

/-- Every constructed machine meets the invariant, the machine at reset among them, and so does the
state at the entry of `execute`. The parameters of the state at reset are log 2, its memory log 3. -/
def Obligations.ConstructedMachinesMeetTheInvariant : Prop :=
  (∀ (cfg : Config) (cells : List Host.Cell) (s : State),
    State.construct cfg cells = some s → s.Inv) ∧
  State.reset.Inv ∧
  ∀ (s : State) (start : Word), s.Inv → (s.enter start).Inv

/-- The construction parameters never change during a run (R47). They stand in State as constant data
(log 1). -/
def Obligations.ParametersNeverChange : Prop := ∀ s t : State, step s = .next t → t.cfg = s.cfg

/-- Only Cmp writes the comparison status (R39). That faults leave it too is D16 (log 15). -/
def Obligations.OnlyCompareWritesTheStatus : Prop :=
  ∀ (s t : State) (i : Instr), exec i s = .next t → (∀ a b, i ≠ .cmp a b) → t.cs = s.cs

/-- Only Ssr and Swi write a special register, and Swi only index 3 (R37). That they are plain storage
is D36 (log 15). -/
def Obligations.OnlySsrAndSwiWriteSpecialRegisters : Prop :=
  ∀ (s t : State) (i : Instr) (j : Fin 10), exec i s = .next t → t.sr j ≠ s.sr j →
    (∃ a, i = .ssr a j.val) ∨ (∃ v, i = .swi v) ∧ j = 3

/-- Only stores, Push, Jsr and Jsra write memory (R43). That a fault writes no byte of its own is D16
(log 15). -/
def Obligations.OnlyStoresPushesAndCallsWriteMemory : Prop :=
  ∀ (s t : State) (i : Instr), exec i s = .next t →
    i.opcode ∉ [.stB, .stS, .stL, .staB, .staS, .staL, .stoB, .stoS, .stoL, .push, .jsr, .jsra] →
    t.mem = s.mem

/-- A step either completes and adds 1 to ICOUNT, or ends in a fault and leaves it (R138, R326); only a
Brk makes the machine Halted (R45). The count is D20 (log 15), and a fault is a next state (log 4). -/
def Obligations.CompletedInstructionsAreCounted : Prop :=
  ∀ s t : State, step s = .next t →
    ((t.result = none ∧ t.run = .running ∧ t.icount = s.icount + 1) ∨
      (t.result = some .halted ∧ t.run = .halted ∧ t.icount = s.icount + 1 ∧
        ∃ s1, s.fetch = .ok .brk s1) ∨
      ∃ k, t.result = some (.faulted k) ∧ t.run = .running ∧ t.icount = s.icount)

/-- TRACE changes nothing (R48): the machine without the observer, and without the record of its calls,
takes the same step. The record is the model's (log 19). -/
def Obligations.TraceObserverChangesNothing : Prop :=
  ∀ s t : State, step s = .next t → step s.untraced = .next t.untraced

/-! ### Construction and the host interface -/

/-- Construction (R360, R361): refused exactly outside the bounds on MEM_SIZE; else every register, the
status, the IP and ICOUNT are 0, the run state is Running, every TLB slot is empty, and each byte is
MEM_INIT's. MEM_SIZE's bounds are D29, and the values of the status, the special registers, the IP,
ICOUNT and the payloads D17, D36, D46, D20 and D43 (log 15). -/
def Obligations.ConstructionState : Prop :=
  ∀ (cfg : Config) (m : Memory),
    ((State.construct cfg m = none) ↔
      (cfg.memSize % 2 = 1 ∨ cfg.memSize < 4 ∨ 2 ^ 32 < cfg.memSize)) ∧
    ∀ s, State.construct cfg m = some s → m.wf →
      (∀ r, s.x r = 0#32) ∧ (∀ j, s.sr j = 0#32) ∧ s.cs = ⟨.equal, .equal⟩ ∧ s.ip = 0#31 ∧
      s.run = .running ∧ s.icount = 0#64 ∧ s.cfg = cfg ∧
      (∀ j, s.slot j = ⟨0xFFFFFFFF#32, 0#32⟩) ∧
      ∀ a < cfg.memSize, s.byte a = m.read a

/-- The entry of `execute` (R362): an even start sets SP and FP to MEM_SIZE - 4, the IP to start / 2 and
the run state to Running, and nothing else; an odd start faults with nothing written. The odd start is
D18 and what is left alone D19 (log 15); that the odd start sets the result is log 17. -/
def Obligations.ExecuteEntrySetsOnlyItsRegisters : Prop :=
  ∀ (s : State) (start : Word), s.cfg.Legal →
    (start.toNat % 2 = 0 →
      let t := s.enter start
      (t.x sp).toNat = s.cfg.memSize - 4 ∧ t.x fp = t.x sp ∧ KeepsRegs s t [fp, sp] ∧
      t.ip.toNat = start.toNat / 2 ∧ t.run = .running ∧ t.result = none ∧
      KeepsSpecials s t ∧ t.cs = s.cs ∧ KeepsMemory s t ∧ t.tlb = s.tlb ∧
      t.icount = s.icount ∧ t.cfg = s.cfg) ∧
    (start.toNat % 2 = 1 →
      Faulted s (s.enter start) .jumpToUnalignedAddress ∧ NothingWritten s (s.enter start) ∧
      (s.enter start).ip = s.ip)

/-- `copy_in` (R366): odd offsets and lengths are refused; bytes that do not fit fault with none
written; else exactly the bytes at the offset become those given, and the TLB is not touched. The
refusal of odd offsets and lengths is D30 (log 15). -/
def Obligations.CopyInWritesItsBytes : Prop :=
  ∀ (s : State) (offset : Nat) (bytes : List Byte),
    (offset % 2 = 1 ∨ bytes.length % 2 = 1 → s.copyIn offset bytes = .refused) ∧
    (offset % 2 = 0 → bytes.length % 2 = 0 →
      (s.cfg.memSize < offset + bytes.length →
        s.copyIn offset bytes = .faulted .memoryOutOfRange) ∧
      (offset + bytes.length ≤ s.cfg.memSize →
        ∃ t, s.copyIn offset bytes = .done t ∧
          (∀ (k : Nat) (h : k < bytes.length), t.byte (offset + k) = bytes[k]) ∧
          KeepsMemoryOutside s t offset bytes.length ∧ KeepsRegs s t [] ∧ KeepsSpecials s t ∧
          t.cs = s.cs ∧ t.tlb = s.tlb ∧ t.ip = s.ip ∧ t.icount = s.icount ∧ KeepsControl s t))

/-- `flush_tlb` and the reset of ICOUNT (R367, R368): every slot empty, or the count 0, and nothing
else. flush_tlb as a host call is D27 and the counter D20 (log 15). -/
def Obligations.HostFlushAndCounterReset : Prop :=
  ∀ s : State,
    (∀ j, s.flushTlb.slot j = ⟨0xFFFFFFFF#32, 0#32⟩) ∧ KeepsRegs s s.flushTlb [] ∧
    KeepsSpecials s s.flushTlb ∧ s.flushTlb.cs = s.cs ∧ KeepsMemory s s.flushTlb ∧
    s.flushTlb.ip = s.ip ∧ s.flushTlb.icount = s.icount ∧ KeepsControl s s.flushTlb ∧
    s.resetIcount.readIcount = 0#64 ∧ OnlyRegs s s.resetIcount [] ∧ s.resetIcount.ip = s.ip

/-! ### A TLB hit, as the spec's own rule says it -/

/-- On a hit, a slot whose tag equals the address's tag, the entry that translation uses is the cached one
as it stands, and it is the same whatever physical memory holds (R74). -/
def Obligations.HitsResolveToTheCachedEntry : Prop :=
  ∀ (s : State) (V : Word) (m : Memory),
    let cached := s.slot ((V.toNat / 2 ^ 12) % 1024)
    cached.tag.toNat = V.toNat / 2 ^ 12 →
    s.resolvePte V = .ok cached.pte s ∧ (s.setMem m).resolvePte V = .ok cached.pte (s.setMem m)
end

