-- ==== Sys2Proof/Laws/State.lean ====
section
/-! SUPPORT. One lemma per field (or accessor) and per update of the state, each true by rfl, so that no
later proof unfolds a record update. -/

namespace Sys2Proof.Machine

/-! ### setX -/

@[simp] theorem State.setX_sregs (s : State) (i : Reg) (v : Word) : (s.setX i v).sregs = s.sregs := rfl
@[simp] theorem State.setX_cs (s : State) (i : Reg) (v : Word) : (s.setX i v).cs = s.cs := rfl
@[simp] theorem State.setX_ip (s : State) (i : Reg) (v : Word) : (s.setX i v).ip = s.ip := rfl
@[simp] theorem State.setX_run (s : State) (i : Reg) (v : Word) : (s.setX i v).run = s.run := rfl
@[simp] theorem State.setX_icount (s : State) (i : Reg) (v : Word) : (s.setX i v).icount = s.icount := rfl
@[simp] theorem State.setX_mem (s : State) (i : Reg) (v : Word) : (s.setX i v).mem = s.mem := rfl
@[simp] theorem State.setX_tlb (s : State) (i : Reg) (v : Word) : (s.setX i v).tlb = s.tlb := rfl
@[simp] theorem State.setX_result (s : State) (i : Reg) (v : Word) : (s.setX i v).result = s.result := rfl
@[simp] theorem State.setX_cfg (s : State) (i : Reg) (v : Word) : (s.setX i v).cfg = s.cfg := rfl
@[simp] theorem State.setX_free (s : State) (i : Reg) (v : Word) : (s.setX i v).free = s.free := rfl
@[simp] theorem State.setX_trace (s : State) (i : Reg) (v : Word) : (s.setX i v).trace = s.trace := rfl
@[simp] theorem State.setX_sr (s : State) (i : Reg) (v : Word) (j : Fin 10) : (s.setX i v).sr j = s.sr j := rfl
@[simp] theorem State.setX_byte (s : State) (i : Reg) (v : Word) (a : Nat) : (s.setX i v).byte a = s.byte a := rfl
@[simp] theorem State.setX_slot (s : State) (i : Reg) (v : Word) (j : Nat) : (s.setX i v).slot j = s.slot j := rfl
@[simp] theorem State.setX_seqIp (s : State) (i : Reg) (v : Word) (k : Nat) : (s.setX i v).seqIp k = s.seqIp k := rfl
@[simp] theorem State.setX_fetchAddress (s : State) (i : Reg) (v : Word) : (s.setX i v).fetchAddress = s.fetchAddress := rfl
@[simp] theorem State.setX_extAddress (s : State) (i : Reg) (v : Word) : (s.setX i v).extAddress = s.extAddress := rfl

/-! ### setSr -/

@[simp] theorem State.setSr_regs (s : State) (i : Fin 10) (v : Word) : (s.setSr i v).regs = s.regs := rfl
@[simp] theorem State.setSr_cs (s : State) (i : Fin 10) (v : Word) : (s.setSr i v).cs = s.cs := rfl
@[simp] theorem State.setSr_ip (s : State) (i : Fin 10) (v : Word) : (s.setSr i v).ip = s.ip := rfl
@[simp] theorem State.setSr_run (s : State) (i : Fin 10) (v : Word) : (s.setSr i v).run = s.run := rfl
@[simp] theorem State.setSr_icount (s : State) (i : Fin 10) (v : Word) : (s.setSr i v).icount = s.icount := rfl
@[simp] theorem State.setSr_mem (s : State) (i : Fin 10) (v : Word) : (s.setSr i v).mem = s.mem := rfl
@[simp] theorem State.setSr_tlb (s : State) (i : Fin 10) (v : Word) : (s.setSr i v).tlb = s.tlb := rfl
@[simp] theorem State.setSr_result (s : State) (i : Fin 10) (v : Word) : (s.setSr i v).result = s.result := rfl
@[simp] theorem State.setSr_cfg (s : State) (i : Fin 10) (v : Word) : (s.setSr i v).cfg = s.cfg := rfl
@[simp] theorem State.setSr_free (s : State) (i : Fin 10) (v : Word) : (s.setSr i v).free = s.free := rfl
@[simp] theorem State.setSr_trace (s : State) (i : Fin 10) (v : Word) : (s.setSr i v).trace = s.trace := rfl
@[simp] theorem State.setSr_x (s : State) (i : Fin 10) (v : Word) (j : Reg) : (s.setSr i v).x j = s.x j := rfl
@[simp] theorem State.setSr_byte (s : State) (i : Fin 10) (v : Word) (a : Nat) : (s.setSr i v).byte a = s.byte a := rfl
@[simp] theorem State.setSr_slot (s : State) (i : Fin 10) (v : Word) (j : Nat) : (s.setSr i v).slot j = s.slot j := rfl
@[simp] theorem State.setSr_seqIp (s : State) (i : Fin 10) (v : Word) (k : Nat) : (s.setSr i v).seqIp k = s.seqIp k := rfl
@[simp] theorem State.setSr_fetchAddress (s : State) (i : Fin 10) (v : Word) : (s.setSr i v).fetchAddress = s.fetchAddress := rfl
@[simp] theorem State.setSr_extAddress (s : State) (i : Fin 10) (v : Word) : (s.setSr i v).extAddress = s.extAddress := rfl

/-! ### setCs -/

@[simp] theorem State.setCs_regs (s : State) (c : CompareStatus) : (s.setCs c).regs = s.regs := rfl
@[simp] theorem State.setCs_sregs (s : State) (c : CompareStatus) : (s.setCs c).sregs = s.sregs := rfl
@[simp] theorem State.setCs_ip (s : State) (c : CompareStatus) : (s.setCs c).ip = s.ip := rfl
@[simp] theorem State.setCs_run (s : State) (c : CompareStatus) : (s.setCs c).run = s.run := rfl
@[simp] theorem State.setCs_icount (s : State) (c : CompareStatus) : (s.setCs c).icount = s.icount := rfl
@[simp] theorem State.setCs_mem (s : State) (c : CompareStatus) : (s.setCs c).mem = s.mem := rfl
@[simp] theorem State.setCs_tlb (s : State) (c : CompareStatus) : (s.setCs c).tlb = s.tlb := rfl
@[simp] theorem State.setCs_result (s : State) (c : CompareStatus) : (s.setCs c).result = s.result := rfl
@[simp] theorem State.setCs_cfg (s : State) (c : CompareStatus) : (s.setCs c).cfg = s.cfg := rfl
@[simp] theorem State.setCs_free (s : State) (c : CompareStatus) : (s.setCs c).free = s.free := rfl
@[simp] theorem State.setCs_trace (s : State) (c : CompareStatus) : (s.setCs c).trace = s.trace := rfl
@[simp] theorem State.setCs_x (s : State) (c : CompareStatus) (j : Reg) : (s.setCs c).x j = s.x j := rfl
@[simp] theorem State.setCs_sr (s : State) (c : CompareStatus) (j : Fin 10) : (s.setCs c).sr j = s.sr j := rfl
@[simp] theorem State.setCs_byte (s : State) (c : CompareStatus) (a : Nat) : (s.setCs c).byte a = s.byte a := rfl
@[simp] theorem State.setCs_slot (s : State) (c : CompareStatus) (j : Nat) : (s.setCs c).slot j = s.slot j := rfl
@[simp] theorem State.setCs_seqIp (s : State) (c : CompareStatus) (k : Nat) : (s.setCs c).seqIp k = s.seqIp k := rfl
@[simp] theorem State.setCs_fetchAddress (s : State) (c : CompareStatus) : (s.setCs c).fetchAddress = s.fetchAddress := rfl
@[simp] theorem State.setCs_extAddress (s : State) (c : CompareStatus) : (s.setCs c).extAddress = s.extAddress := rfl

/-! ### setMem -/

@[simp] theorem State.setMem_regs (s : State) (m : Memory) : (s.setMem m).regs = s.regs := rfl
@[simp] theorem State.setMem_sregs (s : State) (m : Memory) : (s.setMem m).sregs = s.sregs := rfl
@[simp] theorem State.setMem_cs (s : State) (m : Memory) : (s.setMem m).cs = s.cs := rfl
@[simp] theorem State.setMem_ip (s : State) (m : Memory) : (s.setMem m).ip = s.ip := rfl
@[simp] theorem State.setMem_run (s : State) (m : Memory) : (s.setMem m).run = s.run := rfl
@[simp] theorem State.setMem_icount (s : State) (m : Memory) : (s.setMem m).icount = s.icount := rfl
@[simp] theorem State.setMem_tlb (s : State) (m : Memory) : (s.setMem m).tlb = s.tlb := rfl
@[simp] theorem State.setMem_result (s : State) (m : Memory) : (s.setMem m).result = s.result := rfl
@[simp] theorem State.setMem_cfg (s : State) (m : Memory) : (s.setMem m).cfg = s.cfg := rfl
@[simp] theorem State.setMem_free (s : State) (m : Memory) : (s.setMem m).free = s.free := rfl
@[simp] theorem State.setMem_trace (s : State) (m : Memory) : (s.setMem m).trace = s.trace := rfl
@[simp] theorem State.setMem_x (s : State) (m : Memory) (j : Reg) : (s.setMem m).x j = s.x j := rfl
@[simp] theorem State.setMem_sr (s : State) (m : Memory) (j : Fin 10) : (s.setMem m).sr j = s.sr j := rfl
@[simp] theorem State.setMem_slot (s : State) (m : Memory) (j : Nat) : (s.setMem m).slot j = s.slot j := rfl
@[simp] theorem State.setMem_seqIp (s : State) (m : Memory) (k : Nat) : (s.setMem m).seqIp k = s.seqIp k := rfl
@[simp] theorem State.setMem_fetchAddress (s : State) (m : Memory) : (s.setMem m).fetchAddress = s.fetchAddress := rfl
@[simp] theorem State.setMem_extAddress (s : State) (m : Memory) : (s.setMem m).extAddress = s.extAddress := rfl

/-! ### fillTlb -/

@[simp] theorem State.fillTlb_regs (s : State) (i : Nat) (e : TlbEntry) : (s.fillTlb i e).regs = s.regs := rfl
@[simp] theorem State.fillTlb_sregs (s : State) (i : Nat) (e : TlbEntry) : (s.fillTlb i e).sregs = s.sregs := rfl
@[simp] theorem State.fillTlb_cs (s : State) (i : Nat) (e : TlbEntry) : (s.fillTlb i e).cs = s.cs := rfl
@[simp] theorem State.fillTlb_ip (s : State) (i : Nat) (e : TlbEntry) : (s.fillTlb i e).ip = s.ip := rfl
@[simp] theorem State.fillTlb_run (s : State) (i : Nat) (e : TlbEntry) : (s.fillTlb i e).run = s.run := rfl
@[simp] theorem State.fillTlb_icount (s : State) (i : Nat) (e : TlbEntry) : (s.fillTlb i e).icount = s.icount := rfl
@[simp] theorem State.fillTlb_mem (s : State) (i : Nat) (e : TlbEntry) : (s.fillTlb i e).mem = s.mem := rfl
@[simp] theorem State.fillTlb_result (s : State) (i : Nat) (e : TlbEntry) : (s.fillTlb i e).result = s.result := rfl
@[simp] theorem State.fillTlb_cfg (s : State) (i : Nat) (e : TlbEntry) : (s.fillTlb i e).cfg = s.cfg := rfl
@[simp] theorem State.fillTlb_free (s : State) (i : Nat) (e : TlbEntry) : (s.fillTlb i e).free = s.free := rfl
@[simp] theorem State.fillTlb_trace (s : State) (i : Nat) (e : TlbEntry) : (s.fillTlb i e).trace = s.trace := rfl
@[simp] theorem State.fillTlb_x (s : State) (i : Nat) (e : TlbEntry) (j : Reg) : (s.fillTlb i e).x j = s.x j := rfl
@[simp] theorem State.fillTlb_sr (s : State) (i : Nat) (e : TlbEntry) (j : Fin 10) : (s.fillTlb i e).sr j = s.sr j := rfl
@[simp] theorem State.fillTlb_byte (s : State) (i : Nat) (e : TlbEntry) (a : Nat) : (s.fillTlb i e).byte a = s.byte a := rfl
@[simp] theorem State.fillTlb_seqIp (s : State) (i : Nat) (e : TlbEntry) (k : Nat) : (s.fillTlb i e).seqIp k = s.seqIp k := rfl
@[simp] theorem State.fillTlb_fetchAddress (s : State) (i : Nat) (e : TlbEntry) : (s.fillTlb i e).fetchAddress = s.fetchAddress := rfl
@[simp] theorem State.fillTlb_extAddress (s : State) (i : Nat) (e : TlbEntry) : (s.fillTlb i e).extAddress = s.extAddress := rfl

/-! ### emit -/

@[simp] theorem State.emit_regs (s : State) (e : TraceEvent) : (s.emit e).regs = s.regs := rfl
@[simp] theorem State.emit_sregs (s : State) (e : TraceEvent) : (s.emit e).sregs = s.sregs := rfl
@[simp] theorem State.emit_cs (s : State) (e : TraceEvent) : (s.emit e).cs = s.cs := rfl
@[simp] theorem State.emit_ip (s : State) (e : TraceEvent) : (s.emit e).ip = s.ip := rfl
@[simp] theorem State.emit_run (s : State) (e : TraceEvent) : (s.emit e).run = s.run := rfl
@[simp] theorem State.emit_icount (s : State) (e : TraceEvent) : (s.emit e).icount = s.icount := rfl
@[simp] theorem State.emit_mem (s : State) (e : TraceEvent) : (s.emit e).mem = s.mem := rfl
@[simp] theorem State.emit_tlb (s : State) (e : TraceEvent) : (s.emit e).tlb = s.tlb := rfl
@[simp] theorem State.emit_result (s : State) (e : TraceEvent) : (s.emit e).result = s.result := rfl
@[simp] theorem State.emit_cfg (s : State) (e : TraceEvent) : (s.emit e).cfg = s.cfg := rfl
@[simp] theorem State.emit_free (s : State) (e : TraceEvent) : (s.emit e).free = s.free := rfl
@[simp] theorem State.emit_x (s : State) (e : TraceEvent) (j : Reg) : (s.emit e).x j = s.x j := rfl
@[simp] theorem State.emit_sr (s : State) (e : TraceEvent) (j : Fin 10) : (s.emit e).sr j = s.sr j := rfl
@[simp] theorem State.emit_byte (s : State) (e : TraceEvent) (a : Nat) : (s.emit e).byte a = s.byte a := rfl
@[simp] theorem State.emit_slot (s : State) (e : TraceEvent) (j : Nat) : (s.emit e).slot j = s.slot j := rfl
@[simp] theorem State.emit_seqIp (s : State) (e : TraceEvent) (k : Nat) : (s.emit e).seqIp k = s.seqIp k := rfl
@[simp] theorem State.emit_fetchAddress (s : State) (e : TraceEvent) : (s.emit e).fetchAddress = s.fetchAddress := rfl
@[simp] theorem State.emit_extAddress (s : State) (e : TraceEvent) : (s.emit e).extAddress = s.extAddress := rfl

/-! ### advance -/

@[simp] theorem State.advance_regs (s : State) (n : Int) : (s.advance n).regs = s.regs := rfl
@[simp] theorem State.advance_sregs (s : State) (n : Int) : (s.advance n).sregs = s.sregs := rfl
@[simp] theorem State.advance_cs (s : State) (n : Int) : (s.advance n).cs = s.cs := rfl
@[simp] theorem State.advance_run (s : State) (n : Int) : (s.advance n).run = s.run := rfl
@[simp] theorem State.advance_mem (s : State) (n : Int) : (s.advance n).mem = s.mem := rfl
@[simp] theorem State.advance_tlb (s : State) (n : Int) : (s.advance n).tlb = s.tlb := rfl
@[simp] theorem State.advance_result (s : State) (n : Int) : (s.advance n).result = s.result := rfl
@[simp] theorem State.advance_cfg (s : State) (n : Int) : (s.advance n).cfg = s.cfg := rfl
@[simp] theorem State.advance_free (s : State) (n : Int) : (s.advance n).free = s.free := rfl
@[simp] theorem State.advance_trace (s : State) (n : Int) : (s.advance n).trace = s.trace := rfl
@[simp] theorem State.advance_x (s : State) (n : Int) (j : Reg) : (s.advance n).x j = s.x j := rfl
@[simp] theorem State.advance_sr (s : State) (n : Int) (j : Fin 10) : (s.advance n).sr j = s.sr j := rfl
@[simp] theorem State.advance_byte (s : State) (n : Int) (a : Nat) : (s.advance n).byte a = s.byte a := rfl
@[simp] theorem State.advance_slot (s : State) (n : Int) (j : Nat) : (s.advance n).slot j = s.slot j := rfl

/-! ### takeFault -/

@[simp] theorem State.takeFault_regs (s : State) (k : FaultKind) : (s.takeFault k).regs = s.regs := rfl
@[simp] theorem State.takeFault_sregs (s : State) (k : FaultKind) : (s.takeFault k).sregs = s.sregs := rfl
@[simp] theorem State.takeFault_cs (s : State) (k : FaultKind) : (s.takeFault k).cs = s.cs := rfl
@[simp] theorem State.takeFault_run (s : State) (k : FaultKind) : (s.takeFault k).run = s.run := rfl
@[simp] theorem State.takeFault_icount (s : State) (k : FaultKind) : (s.takeFault k).icount = s.icount := rfl
@[simp] theorem State.takeFault_mem (s : State) (k : FaultKind) : (s.takeFault k).mem = s.mem := rfl
@[simp] theorem State.takeFault_tlb (s : State) (k : FaultKind) : (s.takeFault k).tlb = s.tlb := rfl
@[simp] theorem State.takeFault_cfg (s : State) (k : FaultKind) : (s.takeFault k).cfg = s.cfg := rfl
@[simp] theorem State.takeFault_trace (s : State) (k : FaultKind) : (s.takeFault k).trace = s.trace := rfl
@[simp] theorem State.takeFault_x (s : State) (k : FaultKind) (j : Reg) : (s.takeFault k).x j = s.x j := rfl
@[simp] theorem State.takeFault_sr (s : State) (k : FaultKind) (j : Fin 10) : (s.takeFault k).sr j = s.sr j := rfl
@[simp] theorem State.takeFault_byte (s : State) (k : FaultKind) (a : Nat) : (s.takeFault k).byte a = s.byte a := rfl
@[simp] theorem State.takeFault_slot (s : State) (k : FaultKind) (j : Nat) : (s.takeFault k).slot j = s.slot j := rfl

/-! ### halt -/

@[simp] theorem State.halt_regs (s : State) : (s.halt).regs = s.regs := rfl
@[simp] theorem State.halt_sregs (s : State) : (s.halt).sregs = s.sregs := rfl
@[simp] theorem State.halt_cs (s : State) : (s.halt).cs = s.cs := rfl
@[simp] theorem State.halt_mem (s : State) : (s.halt).mem = s.mem := rfl
@[simp] theorem State.halt_tlb (s : State) : (s.halt).tlb = s.tlb := rfl
@[simp] theorem State.halt_cfg (s : State) : (s.halt).cfg = s.cfg := rfl
@[simp] theorem State.halt_trace (s : State) : (s.halt).trace = s.trace := rfl
@[simp] theorem State.halt_x (s : State) (j : Reg) : (s.halt).x j = s.x j := rfl
@[simp] theorem State.halt_sr (s : State) (j : Fin 10) : (s.halt).sr j = s.sr j := rfl
@[simp] theorem State.halt_byte (s : State) (a : Nat) : (s.halt).byte a = s.byte a := rfl
@[simp] theorem State.halt_slot (s : State) (j : Nat) : (s.halt).slot j = s.slot j := rfl

/-! ### ready -/

@[simp] theorem State.ready_regs (s : State) : (s.ready).regs = s.regs := rfl
@[simp] theorem State.ready_sregs (s : State) : (s.ready).sregs = s.sregs := rfl
@[simp] theorem State.ready_cs (s : State) : (s.ready).cs = s.cs := rfl
@[simp] theorem State.ready_ip (s : State) : (s.ready).ip = s.ip := rfl
@[simp] theorem State.ready_icount (s : State) : (s.ready).icount = s.icount := rfl
@[simp] theorem State.ready_mem (s : State) : (s.ready).mem = s.mem := rfl
@[simp] theorem State.ready_tlb (s : State) : (s.ready).tlb = s.tlb := rfl
@[simp] theorem State.ready_cfg (s : State) : (s.ready).cfg = s.cfg := rfl
@[simp] theorem State.ready_free (s : State) : (s.ready).free = s.free := rfl
@[simp] theorem State.ready_trace (s : State) : (s.ready).trace = s.trace := rfl
@[simp] theorem State.ready_x (s : State) (j : Reg) : (s.ready).x j = s.x j := rfl
@[simp] theorem State.ready_sr (s : State) (j : Fin 10) : (s.ready).sr j = s.sr j := rfl
@[simp] theorem State.ready_byte (s : State) (a : Nat) : (s.ready).byte a = s.byte a := rfl
@[simp] theorem State.ready_slot (s : State) (j : Nat) : (s.ready).slot j = s.slot j := rfl
@[simp] theorem State.ready_seqIp (s : State) (k : Nat) : (s.ready).seqIp k = s.seqIp k := rfl
@[simp] theorem State.ready_fetchAddress (s : State) : (s.ready).fetchAddress = s.fetchAddress := rfl
@[simp] theorem State.ready_extAddress (s : State) : (s.ready).extAddress = s.extAddress := rfl

/-! ### resetIcount -/

@[simp] theorem State.resetIcount_regs (s : State) : (s.resetIcount).regs = s.regs := rfl
@[simp] theorem State.resetIcount_sregs (s : State) : (s.resetIcount).sregs = s.sregs := rfl
@[simp] theorem State.resetIcount_cs (s : State) : (s.resetIcount).cs = s.cs := rfl
@[simp] theorem State.resetIcount_ip (s : State) : (s.resetIcount).ip = s.ip := rfl
@[simp] theorem State.resetIcount_run (s : State) : (s.resetIcount).run = s.run := rfl
@[simp] theorem State.resetIcount_mem (s : State) : (s.resetIcount).mem = s.mem := rfl
@[simp] theorem State.resetIcount_tlb (s : State) : (s.resetIcount).tlb = s.tlb := rfl
@[simp] theorem State.resetIcount_result (s : State) : (s.resetIcount).result = s.result := rfl
@[simp] theorem State.resetIcount_cfg (s : State) : (s.resetIcount).cfg = s.cfg := rfl
@[simp] theorem State.resetIcount_free (s : State) : (s.resetIcount).free = s.free := rfl
@[simp] theorem State.resetIcount_trace (s : State) : (s.resetIcount).trace = s.trace := rfl
@[simp] theorem State.resetIcount_x (s : State) (j : Reg) : (s.resetIcount).x j = s.x j := rfl
@[simp] theorem State.resetIcount_sr (s : State) (j : Fin 10) : (s.resetIcount).sr j = s.sr j := rfl
@[simp] theorem State.resetIcount_byte (s : State) (a : Nat) : (s.resetIcount).byte a = s.byte a := rfl
@[simp] theorem State.resetIcount_slot (s : State) (j : Nat) : (s.resetIcount).slot j = s.slot j := rfl
@[simp] theorem State.resetIcount_seqIp (s : State) (k : Nat) : (s.resetIcount).seqIp k = s.seqIp k := rfl
@[simp] theorem State.resetIcount_fetchAddress (s : State) : (s.resetIcount).fetchAddress = s.fetchAddress := rfl
@[simp] theorem State.resetIcount_extAddress (s : State) : (s.resetIcount).extAddress = s.extAddress := rfl

/-! ### flushTlb -/

@[simp] theorem State.flushTlb_regs (s : State) : (s.flushTlb).regs = s.regs := rfl
@[simp] theorem State.flushTlb_sregs (s : State) : (s.flushTlb).sregs = s.sregs := rfl
@[simp] theorem State.flushTlb_cs (s : State) : (s.flushTlb).cs = s.cs := rfl
@[simp] theorem State.flushTlb_ip (s : State) : (s.flushTlb).ip = s.ip := rfl
@[simp] theorem State.flushTlb_run (s : State) : (s.flushTlb).run = s.run := rfl
@[simp] theorem State.flushTlb_icount (s : State) : (s.flushTlb).icount = s.icount := rfl
@[simp] theorem State.flushTlb_mem (s : State) : (s.flushTlb).mem = s.mem := rfl
@[simp] theorem State.flushTlb_result (s : State) : (s.flushTlb).result = s.result := rfl
@[simp] theorem State.flushTlb_cfg (s : State) : (s.flushTlb).cfg = s.cfg := rfl
@[simp] theorem State.flushTlb_free (s : State) : (s.flushTlb).free = s.free := rfl
@[simp] theorem State.flushTlb_trace (s : State) : (s.flushTlb).trace = s.trace := rfl
@[simp] theorem State.flushTlb_x (s : State) (j : Reg) : (s.flushTlb).x j = s.x j := rfl
@[simp] theorem State.flushTlb_sr (s : State) (j : Fin 10) : (s.flushTlb).sr j = s.sr j := rfl
@[simp] theorem State.flushTlb_byte (s : State) (a : Nat) : (s.flushTlb).byte a = s.byte a := rfl
@[simp] theorem State.flushTlb_seqIp (s : State) (k : Nat) : (s.flushTlb).seqIp k = s.seqIp k := rfl
@[simp] theorem State.flushTlb_fetchAddress (s : State) : (s.flushTlb).fetchAddress = s.fetchAddress := rfl
@[simp] theorem State.flushTlb_extAddress (s : State) : (s.flushTlb).extAddress = s.extAddress := rfl

/-! ### What each update writes -/

@[simp] theorem State.setX_x (s : State) (i : Reg) (v : Word) (j : Reg) :
    (s.setX i v).x j = if j = i then v else s.x j := by
  simp only [State.x, State.setX, Vector.getElem_set, Fin.ext_iff, eq_comm]

theorem State.setX_x_same (s : State) (i : Reg) (v : Word) : (s.setX i v).x i = v := by simp

theorem State.setX_x_other (s : State) {i j : Reg} (v : Word) (h : j ≠ i) :
    (s.setX i v).x j = s.x j := by simp [h]

@[simp] theorem State.setSr_sr (s : State) (i : Fin 10) (v : Word) (j : Fin 10) :
    (s.setSr i v).sr j = if j = i then v else s.sr j := by
  simp only [State.sr, State.setSr, Vector.getElem_set, Fin.ext_iff, eq_comm]

@[simp] theorem State.setCs_cs (s : State) (c : CompareStatus) : (s.setCs c).cs = c := rfl
@[simp] theorem State.setMem_mem (s : State) (m : Memory) : (s.setMem m).mem = m := rfl
@[simp] theorem State.setMem_byte (s : State) (m : Memory) (a : Nat) :
    (s.setMem m).byte a = m.read a := rfl
@[simp] theorem State.fillTlb_tlb (s : State) (i : Nat) (e : TlbEntry) :
    (s.fillTlb i e).tlb = s.tlb.fill i e := rfl
@[simp] theorem State.emit_trace (s : State) (e : TraceEvent) :
    (s.emit e).trace = if s.cfg.trace then s.trace ++ [e] else s.trace := rfl
@[simp] theorem State.advance_ip (s : State) (n : Int) :
    (s.advance n).ip = BitVec.ofInt 31 n := rfl
@[simp] theorem State.advance_icount (s : State) (n : Int) :
    (s.advance n).icount = s.icount + 1 := rfl
@[simp] theorem State.takeFault_result (s : State) (k : FaultKind) :
    (s.takeFault k).result = some (.faulted k) := rfl
@[simp] theorem State.takeFault_free (s : State) (k : FaultKind) :
    (s.takeFault k).free = s.free + 1 := rfl
@[simp] theorem State.halt_result (s : State) : s.halt.result = some .halted := rfl
@[simp] theorem State.halt_run (s : State) : s.halt.run = .halted := rfl
@[simp] theorem State.halt_icount (s : State) : s.halt.icount = s.icount + 1 := rfl
@[simp] theorem State.halt_free (s : State) : s.halt.free = s.free + 1 := rfl
@[simp] theorem State.ready_run (s : State) : s.ready.run = .running := rfl
@[simp] theorem State.ready_result (s : State) : s.ready.result = none := rfl
@[simp] theorem State.resetIcount_icount (s : State) : s.resetIcount.icount = 0#64 := rfl
@[simp] theorem State.flushTlb_tlb (s : State) : s.flushTlb.tlb = [] := rfl

/-- Two states with the same fields are the same state. -/
theorem State.ext_fields {s t : State} (h1 : s.regs = t.regs) (h2 : s.sregs = t.sregs)
    (h3 : s.cs = t.cs) (h4 : s.ip = t.ip) (h5 : s.run = t.run) (h6 : s.icount = t.icount)
    (h7 : s.mem = t.mem) (h8 : s.tlb = t.tlb) (h9 : s.result = t.result) (h10 : s.cfg = t.cfg)
    (h11 : s.free = t.free) (h12 : s.trace = t.trace) : s = t := by
  cases s; cases t; simp_all

end Sys2Proof.Machine
end

