-- ==== Sys2Proof/Laws/Memory.lean ====
section
/-! SUPPORT. The laws of sparse tables, of the byte array and of the TLB's slots: a read after a write,
what a write leaves alone, and that every operation keeps the canonical form. -/

namespace Sys2Proof.Machine

section Sparse

variable {α : Type} {d : α}

theorem sparseGet_erase_same (m : List (Nat × α)) (k : Nat) :
    sparseGet d (sparseErase m k) k = d := by
  induction m with
  | nil => rfl
  | cons p rest ih =>
    obtain ⟨j, w⟩ := p
    by_cases h : j = k <;> simp [sparseErase, sparseGet, h, ih]

theorem sparseGet_erase_other (m : List (Nat × α)) {k j : Nat} (h : j ≠ k) :
    sparseGet d (sparseErase m k) j = sparseGet d m j := by
  induction m with
  | nil => rfl
  | cons p rest ih =>
    obtain ⟨i, w⟩ := p
    by_cases hi : i = k
    · simp [sparseErase, sparseGet, hi, ih, Ne.symm h]
    · simp [sparseErase, sparseGet, hi, ih]

theorem sparseGet_insert_other (m : List (Nat × α)) {k j : Nat} (v : α) (h : j ≠ k) :
    sparseGet d (sparseInsert m k v) j = sparseGet d m j := by
  induction m with
  | nil => simp [sparseInsert, sparseGet, Ne.symm h]
  | cons p rest ih =>
    obtain ⟨i, w⟩ := p
    by_cases hi : k < i
    · simp [sparseInsert, sparseGet, hi, Ne.symm h]
    · simp [sparseInsert, sparseGet, hi, ih]

theorem sparseGet_insert_same (m : List (Nat × α)) (k : Nat) (v : α)
    (h : ∀ p ∈ m, p.1 ≠ k) : sparseGet d (sparseInsert m k v) k = v := by
  induction m with
  | nil => simp [sparseInsert, sparseGet]
  | cons p rest ih =>
    obtain ⟨i, w⟩ := p
    have hi : i ≠ k := h (i, w) (by simp)
    by_cases hk : k < i
    · simp [sparseInsert, sparseGet, hk]
    · simp [sparseInsert, sparseGet, hk, hi, ih (fun p hp => h p (by simp [hp]))]

theorem sparseErase_keys (m : List (Nat × α)) (k : Nat) :
    ∀ p ∈ sparseErase m k, p ∈ m ∧ p.1 ≠ k := by
  induction m with
  | nil => simp [sparseErase]
  | cons p rest ih =>
    obtain ⟨i, w⟩ := p
    intro q hq
    by_cases hi : i = k
    · simp only [sparseErase, if_pos hi] at hq
      have := ih q hq
      exact ⟨by simp [this.1], this.2⟩
    · simp only [sparseErase, if_neg hi, List.mem_cons] at hq
      rcases hq with rfl | hq
      · exact ⟨by simp, hi⟩
      · have := ih q hq
        exact ⟨by simp [this.1], this.2⟩

theorem sparseInsert_mem (m : List (Nat × α)) (k : Nat) (v : α) :
    ∀ p ∈ sparseInsert m k v, p = (k, v) ∨ p ∈ m := by
  induction m with
  | nil => simp [sparseInsert]
  | cons p rest ih =>
    obtain ⟨i, w⟩ := p
    intro q hq
    by_cases hk : k < i
    · simpa [sparseInsert, hk] using hq
    · simp only [sparseInsert, if_neg hk, List.mem_cons] at hq
      rcases hq with rfl | hq
      · exact .inr (by simp)
      · rcases ih q hq with h | h
        · exact .inl h
        · exact .inr (by simp [h])

theorem sparseErase_pairwise (m : List (Nat × α)) (k : Nat)
    (h : m.Pairwise (fun p q => p.1 < q.1)) :
    (sparseErase m k).Pairwise (fun p q => p.1 < q.1) := by
  induction m with
  | nil => simp [sparseErase]
  | cons p rest ih =>
    obtain ⟨i, w⟩ := p
    rw [List.pairwise_cons] at h
    by_cases hi : i = k
    · simpa [sparseErase, hi] using ih h.2
    · simp only [sparseErase, if_neg hi, List.pairwise_cons]
      exact ⟨fun q hq => h.1 q (sparseErase_keys rest k q hq).1, ih h.2⟩

theorem sparseInsert_pairwise (m : List (Nat × α)) (k : Nat) (v : α)
    (h : m.Pairwise (fun p q => p.1 < q.1)) (hk : ∀ p ∈ m, p.1 ≠ k) :
    (sparseInsert m k v).Pairwise (fun p q => p.1 < q.1) := by
  induction m with
  | nil => simp [sparseInsert]
  | cons p rest ih =>
    obtain ⟨i, w⟩ := p
    have hi : i ≠ k := hk (i, w) (by simp)
    rw [List.pairwise_cons] at h
    by_cases hlt : k < i
    · simp only [sparseInsert, if_pos hlt, List.pairwise_cons, List.mem_cons]
      refine ⟨?_, h.1, h.2⟩
      rintro q (rfl | hq)
      · exact hlt
      · exact Nat.lt_trans hlt (h.1 q hq)
    · simp only [sparseInsert, if_neg hlt, List.pairwise_cons]
      refine ⟨?_, ih h.2 (fun q hq => hk q (by simp [hq]))⟩
      intro q hq
      rcases sparseInsert_mem _ _ _ q hq with rfl | hq
      · simp only; omega
      · exact h.1 q hq

variable [DecidableEq α]

/-- A read of the key just written gives the value written. -/
@[simp] theorem sparseGet_set_same (m : List (Nat × α)) (k : Nat) (v : α) :
    sparseGet d (sparseSet d m k v) k = v := by
  by_cases h : v = d
  · simp [sparseSet, h, sparseGet_erase_same]
  · simp only [sparseSet, if_neg h]
    exact sparseGet_insert_same _ _ _ (fun p hp => (sparseErase_keys m k p hp).2)

/-- A write leaves every other key alone. -/
theorem sparseGet_set_other (m : List (Nat × α)) {k j : Nat} (v : α) (h : j ≠ k) :
    sparseGet d (sparseSet d m k v) j = sparseGet d m j := by
  by_cases hv : v = d
  · simp [sparseSet, hv, sparseGet_erase_other m h]
  · simp [sparseSet, hv, sparseGet_insert_other _ v h, sparseGet_erase_other m h]

/-- The entries after a write: the one written, or earlier ones. -/
theorem sparseSet_mem (m : List (Nat × α)) (k : Nat) (v : α) :
    ∀ p ∈ sparseSet d m k v, p = (k, v) ∨ p ∈ m := by
  intro p hp
  by_cases hv : v = d
  · simp only [sparseSet, if_pos hv] at hp
    exact .inr (sparseErase_keys m k p hp).1
  · simp only [sparseSet, if_neg hv] at hp
    rcases sparseInsert_mem _ _ _ p hp with h | h
    · exact .inl h
    · exact .inr (sparseErase_keys m k p h).1

/-- A write keeps the canonical form. -/
theorem sparseSet_canonical (m : List (Nat × α)) (k : Nat) (v : α) (h : sparseCanonical d m) :
    sparseCanonical d (sparseSet d m k v) := by
  refine ⟨?_, ?_⟩
  · by_cases hv : v = d
    · simpa [sparseSet, hv] using sparseErase_pairwise m k h.1
    · simp only [sparseSet, if_neg hv]
      exact sparseInsert_pairwise _ _ _ (sparseErase_pairwise m k h.1)
        (fun p hp => (sparseErase_keys m k p hp).2)
  · intro p hp
    by_cases hv : v = d
    · simp only [sparseSet, if_pos hv] at hp
      exact h.2 p (sparseErase_keys m k p hp).1
    · simp only [sparseSet, if_neg hv] at hp
      rcases sparseInsert_mem _ _ _ p hp with rfl | hp
      · exact hv
      · exact h.2 p (sparseErase_keys m k p hp).1

end Sparse

/-! ### Bytes -/

@[simp] theorem Memory.read_write_same (m : Memory) (a : Nat) (b : Byte) :
    (m.write a b).read a = b := sparseGet_set_same m a b

theorem Memory.read_write_other (m : Memory) {a c : Nat} (b : Byte) (h : c ≠ a) :
    (m.write a b).read c = m.read c := sparseGet_set_other m b h

theorem Memory.write_wf (m : Memory) (a : Nat) (b : Byte) (h : m.wf) : (m.write a b).wf :=
  sparseSet_canonical m a b h

theorem Memory.read_writeBytes_outside (m : Memory) (a : Nat) (bs : List Byte) (c : Nat)
    (h : c < a ∨ a + bs.length ≤ c) : (m.writeBytes a bs).read c = m.read c := by
  induction bs generalizing m a with
  | nil => rfl
  | cons b bs ih =>
    simp only [List.length_cons] at h
    rw [Memory.writeBytes, ih _ _ (by omega), Memory.read_write_other m b (by omega)]

theorem Memory.read_writeBytes_inside (m : Memory) (a : Nat) (bs : List Byte) (k : Nat)
    (h : k < bs.length) : (m.writeBytes a bs).read (a + k) = bs[k] := by
  induction bs generalizing m a k with
  | nil => simp at h
  | cons b bs ih =>
    cases k with
    | zero =>
      rw [Memory.writeBytes, Memory.read_writeBytes_outside _ _ _ _ (by omega)]
      simp
    | succ k =>
      rw [Memory.writeBytes, show a + (k + 1) = (a + 1) + k by omega,
        ih _ _ _ (by simpa using h)]
      simp

theorem Memory.writeBytes_wf (m : Memory) (a : Nat) (bs : List Byte) (h : m.wf) :
    (m.writeBytes a bs).wf := by
  induction bs generalizing m a with
  | nil => exact h
  | cons b bs ih => exact ih _ _ (m.write_wf a b h)

theorem Memory.writeBytes_inside (m : Memory) (a : Nat) (bs : List Byte) (size : Nat)
    (hm : ∀ c ∈ m, c.1 < size) (h : a + bs.length ≤ size) :
    ∀ c ∈ m.writeBytes a bs, c.1 < size := by
  induction bs generalizing m a with
  | nil => exact hm
  | cons b bs ih =>
    simp only [List.length_cons] at h
    refine ih _ _ ?_ (by omega)
    intro c hc
    rcases sparseSet_mem m a b c hc with rfl | hc
    · simp only; omega
    · exact hm c hc

@[simp] theorem Memory.readBytes_length (m : Memory) (a n : Nat) :
    (m.readBytes a n).length = n := by
  induction n generalizing a with
  | zero => rfl
  | succ n ih => simp [Memory.readBytes, ih]

theorem Memory.readBytes_getElem (m : Memory) (a n k : Nat) (h : k < (m.readBytes a n).length) :
    (m.readBytes a n)[k] = m.read (a + k) := by
  induction n generalizing a k with
  | zero => simp [Memory.readBytes] at h
  | succ n ih =>
    cases k with
    | zero => rfl
    | succ k =>
      simp only [Memory.readBytes, List.getElem_cons_succ]
      rw [ih, show a + 1 + k = a + (k + 1) by omega]

/-- Bytes written are the bytes read back. -/
theorem Memory.readBytes_writeBytes (m : Memory) (a : Nat) (bs : List Byte) :
    (m.writeBytes a bs).readBytes a bs.length = bs := by
  apply List.ext_getElem
  · simp
  · intro k h1 h2
    rw [Memory.readBytes_getElem, Memory.read_writeBytes_inside m a bs k h2]

/-- A read of bytes depends on those bytes alone. -/
theorem Memory.readBytes_congr {m m' : Memory} (a n : Nat)
    (h : ∀ k < n, m.read (a + k) = m'.read (a + k)) : m.readBytes a n = m'.readBytes a n := by
  apply List.ext_getElem
  · simp
  · intro k h1 h2
    rw [Memory.readBytes_getElem, Memory.readBytes_getElem]
    exact h k (by simpa using h1)

/-! ### Byte order -/

@[simp] theorem littleBytes_length (n v : Nat) : (littleBytes n v).length = n := by
  induction n generalizing v with
  | zero => rfl
  | succ n ih => simp [littleBytes, ih]

@[simp] theorem valueBytes_length (e : Endian) (n v : Nat) : (valueBytes e n v).length = n := by
  cases e <;> simp [valueBytes]

theorem littleValue_littleBytes (n v : Nat) : littleValue (littleBytes n v) = v % 256 ^ n := by
  induction n generalizing v with
  | zero => simp [littleBytes, littleValue, Nat.mod_one]
  | succ n ih =>
    have h := Nat.mod_mul (x := v) (a := 256) (b := 256 ^ n)
    rw [← Nat.pow_succ'] at h
    rw [littleBytes, littleValue, ih, BitVec.toNat_ofNat]
    exact h.symm

/-- The bytes of a value have that value, modulo what they can hold. -/
theorem bytesValue_valueBytes (e : Endian) (n v : Nat) :
    bytesValue e (valueBytes e n v) = v % 256 ^ n := by
  cases e <;> simp [bytesValue, valueBytes, littleValue_littleBytes]

/-- Byte `k` of a value, in little-endian order. -/
theorem littleBytes_getElem (n v k : Nat) (h : k < (littleBytes n v).length) :
    (littleBytes n v)[k] = BitVec.ofNat 8 (v / 256 ^ k) := by
  induction n generalizing v k with
  | zero => simp [littleBytes] at h
  | succ n ih =>
    cases k with
    | zero => simp [littleBytes]
    | succ k =>
      simp only [littleBytes, List.getElem_cons_succ]
      rw [ih, Nat.pow_succ', Nat.div_div_eq_div_mul]

theorem Width.bytes_pos (w : Width) : 0 < w.bytes := by cases w <;> decide

/-- A load of what a store of the same width wrote gives its low bytes. -/
theorem Memory.load_store (m : Memory) (e : Endian) (a : Nat) (w : Width) (v : Word) :
    (m.store e a w v).load e a w = BitVec.ofNat 32 (v.toNat % 256 ^ w.bytes) := by
  have h := Memory.readBytes_writeBytes m a (valueBytes e w.bytes v.toNat)
  rw [valueBytes_length] at h
  rw [Memory.load, Memory.store, h, bytesValue_valueBytes]

/-- A long store is read back whole. -/
theorem Memory.load_store_long (m : Memory) (e : Endian) (a : Nat) (v : Word) :
    (m.store e a .long v).load e a .long = v := by
  rw [Memory.load_store]
  apply BitVec.eq_of_toNat_eq
  have h := v.isLt
  simp only [Width.bytes, BitVec.toNat_ofNat]
  omega

/-- A store leaves every byte outside its own alone. -/
theorem Memory.read_store_outside (m : Memory) (e : Endian) (a : Nat) (w : Width) (v : Word)
    (c : Nat) (h : c < a ∨ a + w.bytes ≤ c) : (m.store e a w v).read c = m.read c :=
  Memory.read_writeBytes_outside m a _ c (by simpa using h)

/-- A load depends on its own bytes alone. -/
theorem Memory.load_congr {m m' : Memory} (e : Endian) (a : Nat) (w : Width)
    (h : ∀ k < w.bytes, m.read (a + k) = m'.read (a + k)) : m.load e a w = m'.load e a w := by
  rw [Memory.load, Memory.load, Memory.readBytes_congr a w.bytes h]

theorem Memory.load_store_outside (m : Memory) (e : Endian) (a : Nat) (w : Width) (v : Word)
    (c : Nat) (w' : Width) (h : c + w'.bytes ≤ a ∨ a + w.bytes ≤ c) :
    (m.store e a w v).load e c w' = m.load e c w' :=
  Memory.load_congr e c w' (fun k hk => Memory.read_store_outside m e a w v _ (by omega))

theorem Memory.store_wf (m : Memory) (e : Endian) (a : Nat) (w : Width) (v : Word) (h : m.wf) :
    (m.store e a w v).wf := Memory.writeBytes_wf m a _ h

theorem Memory.store_inside (m : Memory) (e : Endian) (a : Nat) (w : Width) (v : Word)
    (size : Nat) (hm : ∀ c ∈ m, c.1 < size) (h : a + w.bytes ≤ size) :
    ∀ c ∈ m.store e a w v, c.1 < size :=
  Memory.writeBytes_inside m a _ size hm (by simpa using h)

/-! ### TLB slots -/

@[simp] theorem Tlb.slot_fill_same (t : Tlb) (i : Nat) (e : TlbEntry) : (t.fill i e).slot i = e :=
  sparseGet_set_same t i e

theorem Tlb.slot_fill_other (t : Tlb) {i j : Nat} (e : TlbEntry) (h : j ≠ i) :
    (t.fill i e).slot j = t.slot j := sparseGet_set_other t e h

theorem Tlb.fill_wf (t : Tlb) (i : Nat) (e : TlbEntry) (h : t.wf) : (t.fill i e).wf :=
  sparseSet_canonical t i e h

theorem Tlb.fill_mem (t : Tlb) (i : Nat) (e : TlbEntry) :
    ∀ p ∈ t.fill i e, p = (i, e) ∨ p ∈ t := sparseSet_mem t i e

@[simp] theorem State.fillTlb_slot_same (s : State) (i : Nat) (e : TlbEntry) :
    (s.fillTlb i e).slot i = e := Tlb.slot_fill_same s.tlb i e

theorem State.fillTlb_slot_other (s : State) {i j : Nat} (e : TlbEntry) (h : j ≠ i) :
    (s.fillTlb i e).slot j = s.slot j := Tlb.slot_fill_other s.tlb e h

/-- After a flush every slot is empty (spec/70_reset_and_hazards.md R368). -/
@[simp] theorem State.flushTlb_slot (s : State) (j : Nat) : s.flushTlb.slot j = TlbEntry.empty := rfl

end Sys2Proof.Machine
end

