-- ==== Sys2Proof/Laws/Ops.lean ====
section
/-! SUPPORT. The shared operations: how results compose, what each accessor answers, and, said once for
the whole machine, the micro-writes a step is made of (`step_micros`). -/

namespace Sys2Proof.Machine

/-! ### Results -/

@[simp] theorem Res.ok_andThen {α β : Type} (a : α) (s : State) (f : α → State → Res β) :
    (Res.ok a s).andThen f = f a s := rfl

@[simp] theorem Res.raise_andThen {α β : Type} (k : FaultKind) (s : State)
    (f : α → State → Res β) : (Res.raise k s).andThen f = .raise k s := rfl

theorem Res.andThen_eq_ok {α β : Type} {r : Res α} {f : α → State → Res β} {b : β} {t : State} :
    r.andThen f = .ok b t ↔ ∃ a s, r = .ok a s ∧ f a s = .ok b t := by
  cases r <;> simp

theorem Res.andThen_eq_raise {α β : Type} {r : Res α} {f : α → State → Res β} {k : FaultKind}
    {t : State} :
    r.andThen f = .raise k t ↔
      r = .raise k t ∨ ∃ a s, r = .ok a s ∧ f a s = .raise k t := by
  cases r <;> simp

/-- The state an operation leaves, whichever way it ends. -/
def Res.after {α : Type} : Res α → State
  | .ok _ s => s
  | .raise _ s => s

@[simp] theorem Res.after_ok {α : Type} (a : α) (s : State) : (Res.ok a s).after = s := rfl
@[simp] theorem Res.after_raise {α : Type} (k : FaultKind) (s : State) :
    (Res.raise k s : Res α).after = s := rfl

@[simp] theorem finish_ok (n : Int) (s : State) : finish (.ok n s) = .next (s.complete n) := rfl
@[simp] theorem finish_raise (k : FaultKind) (s : State) :
    finish (.raise k s) = .next (s.takeFault k) := rfl

/-! ### Completing -/

theorem State.complete_inRange (s : State) {n : Int} (h0 : 0 ≤ n) (h1 : n < 2 ^ 31) :
    s.complete n = s.advance n := by simp only [State.complete, h0, h1, and_self, if_true]

theorem State.complete_outOfRange (s : State) {n : Int} (h : n < 0 ∨ 2 ^ 31 ≤ n) :
    s.complete n = s.takeFault .ipOutOfRange := by
  rw [State.complete, if_neg]; omega

/-- The IP after an advance within range is the next IP. -/
theorem State.advance_ip_toNat (s : State) {n : Int} (h0 : 0 ≤ n) (h1 : n < 2 ^ 31) :
    ((s.advance n).ip.toNat : Int) = n := by
  rw [State.advance_ip, BitVec.toNat_ofInt]; omega

theorem State.seqIp_eq (s : State) (k : Nat) : s.seqIp k = (s.ip.toNat : Int) + k := by
  simp [State.seqIp]

theorem State.seqIp_nonneg (s : State) (k : Nat) : 0 ≤ s.seqIp k := by
  rw [State.seqIp_eq]; omega

/-- Writing a register and going on completes where the next IP is in range. -/
theorem State.writeReg_completes (s : State) (a : Reg) (v : Word) (k : Nat)
    (h : s.ip.toNat + k < 2 ^ 31) :
    s.writeReg a v k = .next ((s.setX a v).advance (s.seqIp k)) := by
  rw [State.writeReg, State.complete_inRange _ (s.seqIp_nonneg k)]
  rw [State.seqIp_eq]; omega

/-! ### Physical accessors -/

theorem State.physRead_fits (s : State) (a : Nat) (w : Width) (h : a + w.bytes ≤ s.cfg.memSize) :
    s.physRead a w = .ok (s.mem.load s.cfg.endian a w) s := by
  rw [State.physRead, if_neg (by omega)]

theorem State.physRead_beyond (s : State) (a : Nat) (w : Width)
    (h : s.cfg.memSize < a + w.bytes) : s.physRead a w = .raise .memoryOutOfRange s := by
  rw [State.physRead, if_pos h]

theorem State.physWrite_fits (s : State) (a : Nat) (w : Width) (v : Word)
    (h : a + w.bytes ≤ s.cfg.memSize) :
    s.physWrite a w v = .ok () (s.setMem (s.mem.store s.cfg.endian a w v)) := by
  rw [State.physWrite, if_neg (by omega)]

theorem State.physWrite_beyond (s : State) (a : Nat) (w : Width) (v : Word)
    (h : s.cfg.memSize < a + w.bytes) : s.physWrite a w v = .raise .memoryOutOfRange s := by
  rw [State.physWrite, if_pos h]

theorem State.target_physical (s : State) (a : Nat) (k : AccessKind)
    (h : s.cfg.mode = .physical) : s.target a k = .ok a s := by
  rw [State.target, h]

/-- A read whose target is known: the value there, and the state translation left. -/
theorem State.memRead_of_target {s s1 : State} {a p : Nat} (w : Width)
    (h : s.target a .read = .ok p s1) : s.memRead a w = s1.physRead p w := by
  rw [State.memRead, h]; rfl

theorem State.memRead_of_target_raise {s s1 : State} {a : Nat} {k : FaultKind} (w : Width)
    (h : s.target a .read = .raise k s1) : s.memRead a w = .raise k s1 := by
  rw [State.memRead, h]; rfl

theorem State.memWrite_of_target {s s1 : State} {a p : Nat} (w : Width) (v : Word)
    (h : s.target a .write = .ok p s1) : s.memWrite a w v = s1.physWrite p w v := by
  rw [State.memWrite, h]; rfl

theorem State.memWrite_of_target_raise {s s1 : State} {a : Nat} {k : FaultKind} (w : Width)
    (v : Word) (h : s.target a .write = .raise k s1) : s.memWrite a w v = .raise k s1 := by
  rw [State.memWrite, h]; rfl

/-! ### The micro-writes -/

/-- One write of the shared operations, with what guards it. Every step is a sequence of these
(`step_micros`), so an invariant of the machine is one small fact about each. -/
inductive Micro (s : State) : State → Prop where
  | setX (i : Reg) (v : Word) : Micro s (s.setX i v)
  | setSr (i : Fin 10) (v : Word) : Micro s (s.setSr i v)
  | setCs (c : CompareStatus) : Micro s (s.setCs c)
  | store (p : Nat) (w : Width) (v : Word) (fits : p + w.bytes ≤ s.cfg.memSize) :
      Micro s (s.setMem (s.mem.store s.cfg.endian p w v))
  | fill (i : Nat) (e : TlbEntry) (paged : s.cfg.mode = .paged)
      (filled : TlbEntry.Filled s.cfg i e) : Micro s (s.fillTlb i e)
  | emit (e : TraceEvent) : Micro s (s.emit e)
  | advance (n : Int) (low : 0 ≤ n) (high : n < 2 ^ 31) : Micro s (s.advance n)
  | takeFault (k : FaultKind) : Micro s (s.takeFault k)
  | halt : Micro s s.halt

/-- A sequence of micro-writes. -/
abbrev Micros : State → State → Prop := Relation.ReflTransGen Micro

theorem Micros.refl (s : State) : Micros s s := Relation.ReflTransGen.refl

theorem Micros.one {s t : State} (h : Micro s t) : Micros s t := Relation.ReflTransGen.single h

/-- What every micro-write keeps, a sequence of them keeps. -/
theorem Micros.keeps {P : State → Prop} (hstep : ∀ s t, Micro s t → P s → P t) {s t : State}
    (h : Micros s t) (hs : P s) : P t := by
  induction h with
  | refl => exact hs
  | tail _ h2 ih => exact hstep _ _ h2 ih

theorem Micros.cfg_eq {s t : State} (h : Micros s t) : t.cfg = s.cfg :=
  Micros.keeps (P := fun u => u.cfg = s.cfg) (fun _ _ h hu => by cases h <;> exact hu) h rfl

theorem Res.andThen_micros {α β : Type} {s : State} {r : Res α} {f : α → State → Res β}
    (h : Micros s r.after) (hf : ∀ a s1, r = .ok a s1 → Micros s1 (f a s1).after) :
    Micros s (r.andThen f).after := by
  cases r with
  | ok a s1 => exact h.trans (hf a s1 rfl)
  | raise k s1 => exact h

theorem State.physRead_after (s : State) (a : Nat) (w : Width) : (s.physRead a w).after = s := by
  unfold State.physRead; split <;> rfl

theorem State.physRead_ok_state {s s1 : State} {a : Nat} {w : Width} {v : Word}
    (h : s.physRead a w = .ok v s1) : s1 = s := by
  have := s.physRead_after a w; rw [h] at this; exact this

theorem State.physWrite_micros (s : State) (a : Nat) (w : Width) (v : Word) :
    Micros s (s.physWrite a w v).after := by
  unfold State.physWrite
  split
  · exact Micros.refl s
  · exact Micros.one (.store a w v (by omega))

theorem vTag_lt (v : Word) : (vTag v).toNat < 2 ^ 20 := by
  have := v.isLt
  simp only [vTag, BitVec.toNat_ushiftRight, Nat.shiftRight_eq_div_pow]
  omega

theorem vIndex_eq (v : Word) : vIndex v = (vTag v).toNat % 1024 := by
  have h : (1023 : Nat) = 2 ^ 10 - 1 := rfl
  simp only [vIndex, BitVec.toNat_and, BitVec.toNat_ofNat]
  rw [show (1023 % 2 ^ 32 : Nat) = 2 ^ 10 - 1 by rfl, Nat.and_two_pow_sub_one_eq_mod]

theorem vTable_eq_vIndex (v : Word) : vTable v = vIndex v := rfl

/-- All a walk can do: leave the state alone, or fill its slot with a present entry whose frame lies
in memory (R75, R78). -/
theorem State.walk_after (s : State) (v : Word) :
    (s.walk v).after = s ∨
      ∃ pte, (s.walk v).after = s.fillTlb (vIndex v) ⟨vTag v, pte⟩ ∧
        TlbEntry.Filled s.cfg (vIndex v) ⟨vTag v, pte⟩ := by
  unfold State.walk
  cases hd : s.physRead (s.cfg.pdBase.toNat + vDirectory v * 4) .long with
  | raise k s1 =>
    have h := s.physRead_after (s.cfg.pdBase.toNat + vDirectory v * 4) .long
    rw [hd] at h
    exact .inl h
  | ok pde s1 =>
    obtain rfl := State.physRead_ok_state hd
    simp only [Res.ok_andThen]
    split
    · exact .inl rfl
    cases ht : s1.physRead (Config.frame s1.cfg pde + vTable v * 4) .long with
    | raise k s2 =>
      have h := s1.physRead_after (Config.frame s1.cfg pde + vTable v * 4) .long
      rw [ht] at h
      exact .inl h
    | ok pte s2 =>
      obtain rfl := State.physRead_ok_state ht
      simp only [Res.ok_andThen]
      split
      · exact .inl rfl
      split
      · exact .inl rfl
      · rename_i _ hp hf
        refine .inr ⟨pte, rfl, ?_, vTag_lt v, ?_, ?_, ?_⟩
        · rw [vIndex_eq]; exact Nat.mod_lt _ (by decide)
        · rw [vIndex_eq]
        · simpa using hp
        · simpa using hf

theorem State.resolvePte_after (s : State) (v : Word) :
    (s.resolvePte v).after = s ∨
      ∃ pte, (s.resolvePte v).after = s.fillTlb (vIndex v) ⟨vTag v, pte⟩ ∧
        TlbEntry.Filled s.cfg (vIndex v) ⟨vTag v, pte⟩ := by
  unfold State.resolvePte
  split
  · exact .inl rfl
  · exact s.walk_after v

theorem State.translate_after (s : State) (v : Word) (k : AccessKind) :
    (s.translate v k).after = s ∨
      ∃ pte, (s.translate v k).after = s.fillTlb (vIndex v) ⟨vTag v, pte⟩ ∧
        TlbEntry.Filled s.cfg (vIndex v) ⟨vTag v, pte⟩ := by
  have h := s.resolvePte_after v
  unfold State.translate
  cases hr : s.resolvePte v with
  | raise k s1 => rw [hr] at h; exact h
  | ok e s1 =>
    rw [hr] at h
    simp only [Res.ok_andThen]
    split <;> exact h

/-- All the active accessor's translation can do (R70, R75). -/
theorem State.target_micros (s : State) (a : Nat) (k : AccessKind) :
    Micros s (s.target a k).after := by
  unfold State.target
  split
  · exact Micros.refl s
  · rename_i hm
    split
    · exact Micros.refl s
    · rcases s.translate_after (BitVec.ofNat 32 a) k with h | ⟨pte, h, hf⟩
      · rw [h]
      · rw [h]; exact Micros.one (.fill _ _ hm hf)

theorem State.memRead_micros (s : State) (a : Nat) (w : Width) :
    Micros s (s.memRead a w).after := by
  refine Res.andThen_micros (s.target_micros a .read) fun p s1 _ => ?_
  rw [State.physRead_after]

theorem State.memWrite_micros (s : State) (a : Nat) (w : Width) (v : Word) :
    Micros s (s.memWrite a w v).after :=
  Res.andThen_micros (s.target_micros a .write) fun p s1 _ => s1.physWrite_micros p w v

/-! ### Instructions -/

theorem State.complete_micros (s : State) (n : Int) : Micros s (s.complete n) := by
  unfold State.complete
  split
  · rename_i h; exact Micros.one (.advance n h.1 h.2)
  · exact Micros.one (.takeFault _)

/-- An answer that is a next state made by micro-writes. -/
def Runs (s : State) (o : StepResult) : Prop := ∃ t, o = .next t ∧ Micros s t

theorem finish_runs {s : State} {r : Res Int} (h : Micros s r.after) : Runs s (finish r) := by
  cases r with
  | ok n s1 => exact ⟨_, rfl, h.trans (s1.complete_micros n)⟩
  | raise k s1 => exact ⟨_, rfl, h.trans (Micros.one (.takeFault k))⟩

theorem State.writeReg_runs (s : State) (a : Reg) (v : Word) (k : Nat) :
    Runs s (s.writeReg a v k) :=
  ⟨_, rfl, (Micros.one (.setX a v)).trans (State.complete_micros _ _)⟩

theorem State.writeRegOr_runs (s : State) (a : Reg) (r : Except FaultKind Word) (k : Nat) :
    Runs s (s.writeRegOr a r k) := by
  cases r with
  | ok v => exact s.writeReg_runs a v k
  | error f => exact ⟨_, rfl, Micros.one (.takeFault f)⟩

theorem State.branchIf_runs (s : State) (c : Bool) (d : Int) : Runs s (s.branchIf c d) :=
  ⟨_, rfl, State.complete_micros _ _⟩

theorem State.loadReg_micros (s : State) (a : Reg) (ea : Nat) (w : Width) (k : Nat) :
    Micros s (s.loadReg a ea w k).after :=
  Res.andThen_micros (s.memRead_micros ea w) fun v _ _ => Micros.one (.setX a v)

theorem State.storeVal_micros (s : State) (ea : Nat) (w : Width) (v : Word) (k : Nat) :
    Micros s (s.storeVal ea w v k).after :=
  Res.andThen_micros (s.memWrite_micros ea w v) fun _ _ _ => Micros.refl _

theorem State.eaOffset_after (s : State) (r : Reg) (off : Int) : (s.eaOffset r off).after = s := by
  unfold State.eaOffset; simp only; split <;> rfl

theorem State.eaOffset_micros (s : State) (r : Reg) (off : Int) :
    Micros s (s.eaOffset r off).after := by
  rw [State.eaOffset_after]

theorem jumpTo_after (t : Word) (s : State) : (jumpTo t s).after = s := by
  unfold jumpTo; split <;> rfl

theorem jumpTo_micros (t : Word) (s : State) : Micros s (jumpTo t s).after := by
  rw [jumpTo_after]

theorem State.push32_micros (s : State) (v : Word) : Micros s (s.push32 v).after :=
  (Micros.one (.setX sp _)).trans (State.memWrite_micros _ _ _ _)

theorem State.pop32_micros (s : State) : Micros s s.pop32.after :=
  Res.andThen_micros (s.memRead_micros _ _) fun _ _ _ => Micros.one (.setX sp _)

theorem State.callFrame_micros (s : State) (r : Nat) : Micros s (s.callFrame r).after :=
  Res.andThen_micros (s.push32_micros _) fun _ s1 _ =>
    Res.andThen_micros (s1.push32_micros _) fun _ s2 _ =>
      Res.andThen_micros (s2.push32_micros _) fun _ _ _ => Micros.one (.setX fp _)

theorem execPush_runs (a b : Reg) (s : State) : Runs s (execPush a b s) :=
  finish_runs ((Micros.one (.setX a _)).trans (State.storeVal_micros _ _ _ _ _))

theorem execPop_runs (a b : Reg) (s : State) : Runs s (execPop a b s) :=
  finish_runs (Res.andThen_micros (s.memRead_micros _ _) fun _ _ _ =>
    (Micros.one (.setX b _)).trans (Micros.one (.setX a _)))

theorem execJsr_runs (a : Reg) (s : State) : Runs s (execJsr a s) :=
  finish_runs (Res.andThen_micros (s.callFrame_micros _) fun _ _ _ => jumpTo_micros _ _)

theorem execJsra_runs (imm : Word) (s : State) : Runs s (execJsra imm s) :=
  finish_runs (Res.andThen_micros (s.callFrame_micros _) fun _ _ _ => jumpTo_micros _ _)

theorem execRet_runs (s : State) : Runs s (execRet s) := by
  refine finish_runs ((Micros.one (.setX sp (s.x fp))).trans ?_)
  refine Res.andThen_micros (State.pop32_micros _) fun f s1 _ => ?_
  refine (Micros.one (.setX fp f)).trans ?_
  refine Res.andThen_micros (State.pop32_micros _) fun r s2 _ => ?_
  exact Res.andThen_micros (State.pop32_micros _) fun _ _ _ => Micros.refl _

theorem execGsr_runs (a : Reg) (imm : Nat) (s : State) : Runs s (execGsr a imm s) := by
  unfold execGsr
  split
  · exact s.writeReg_runs _ _ _
  · exact ⟨_, rfl, Micros.one (.takeFault _)⟩

theorem execSsr_runs (a : Reg) (imm : Nat) (s : State) : Runs s (execSsr a imm s) := by
  unfold execSsr
  split
  · exact ⟨_, rfl, (Micros.one (.setSr _ _)).trans (State.complete_micros _ _)⟩
  · exact ⟨_, rfl, Micros.one (.takeFault _)⟩

/-- Every instruction gives a next state, made by micro-writes. -/
theorem exec_runs (i : Instr) (s : State) : Runs s (exec i s) := by
  cases i
  case cmp a b =>
    exact ⟨_, rfl, (Micros.one (.setCs _)).trans (State.complete_micros _ _)⟩
  case jmp a => exact finish_runs (jumpTo_micros _ s)
  case jmpa v => exact finish_runs (jumpTo_micros v s)
  case jsr a => exact execJsr_runs a s
  case jsra v => exact execJsra_runs v s
  case ret => exact execRet_runs s
  case push a b => exact execPush_runs a b s
  case pop a b => exact execPop_runs a b s
  case gsr a n => exact execGsr_runs a n s
  case ssr a n => exact execSsr_runs a n s
  case swi v => exact ⟨_, rfl, (Micros.one (.setSr _ _)).trans (Micros.one (.takeFault _))⟩
  case brk => exact ⟨_, rfl, Micros.one .halt⟩
  case nop => exact ⟨_, rfl, State.complete_micros _ _⟩
  all_goals
    simp only [exec, execAdd, execSub, execNeg, execInc, execDec, execMul, execMulX, execUmulX,
      execDiv, execUdiv, execMod, execUmod, execAnd, execOr, execXor, execNot, execAshl,
      execAshr, execLshr, execSexB, execSexS, execZexB, execZexS, execBeq, execBne, execBge,
      execBgt, execBle, execBlt, execBgeu, execBgtu, execBleu, execBltu, execLdB, execLdS,
      execLdL, execStB, execStS, execStL, execLdaB, execLdaS, execLdaL, execStaB, execStaS,
      execStaL, execLdoB, execLdoS, execLdoL, execStoB, execStoS, execStoL, execLdiL, execLdiB,
      execLdiS, execMov]
  all_goals with_reducible first
    | exact State.writeReg_runs _ _ _ _
    | exact State.writeRegOr_runs _ _ _ _
    | exact State.branchIf_runs _ _ _
    | exact finish_runs (State.loadReg_micros _ _ _ _ _)
    | exact finish_runs (State.storeVal_micros _ _ _ _ _)
    | exact finish_runs (Res.andThen_micros (State.eaOffset_micros _ _ _)
        fun _ _ _ => State.loadReg_micros _ _ _ _ _)
    | exact finish_runs (Res.andThen_micros (State.eaOffset_micros _ _ _)
        fun _ _ _ => State.storeVal_micros _ _ _ _ _)

/-! ### The step -/

theorem State.fetchExt_micros (s : State) (e : Option Width) : Micros s (s.fetchExt e).after := by
  unfold State.fetchExt
  split
  · exact Micros.refl s
  · exact Res.andThen_micros (s.memRead_micros _ _) fun _ _ _ => Micros.one (.emit _)
  · exact Res.andThen_micros (s.memRead_micros _ _) fun _ _ _ => Micros.one (.emit _)

theorem State.fetch_micros (s : State) : Micros s s.fetch.after := by
  unfold State.fetch
  refine Res.andThen_micros (s.memRead_micros _ _) fun w s1 _ => ?_
  refine (Micros.one (.emit (.instruction (decodeRecord (w.setWidth 16)) s.fetchAddress))).trans ?_
  simp only
  split
  · exact Micros.refl _
  · exact Res.andThen_micros (State.fetchExt_micros _ _) fun _ _ _ => Micros.refl _

/-- What `step` answers, by cases. -/
theorem step_cases (s : State) :
    (s.run = .halted ∧ step s = .fault .halted) ∨
    (s.run = .running ∧ s.result ≠ none ∧ step s = .fault .runEnded) ∨
    (s.run = .running ∧ s.result = none ∧
      ((∃ i s1, s.fetch = .ok i s1 ∧ step s = exec i s1) ∨
        ∃ k s1, s.fetch = .raise k s1 ∧ step s = .next (s1.takeFault k))) := by
  unfold step
  cases s.run with
  | halted => exact .inl ⟨rfl, rfl⟩
  | running =>
    cases s.result with
    | some r => exact .inr (.inl ⟨rfl, by simp, rfl⟩)
    | none =>
      refine .inr (.inr ⟨rfl, rfl, ?_⟩)
      cases s.fetch with
      | ok i s1 => exact .inl ⟨i, s1, rfl, rfl⟩
      | raise k s1 => exact .inr ⟨k, s1, rfl, rfl⟩

/-- ALL A STEP CAN DO: its next state is reached by micro-writes. -/
theorem step_micros {s t : State} (h : step s = .next t) : Micros s t := by
  have hf := s.fetch_micros
  rcases step_cases s with ⟨_, h1⟩ | ⟨_, _, h1⟩ | ⟨_, _, ⟨i, s1, h1, h2⟩ | ⟨k, s1, h1, h2⟩⟩
  · rw [h1] at h; cases h
  · rw [h1] at h; cases h
  · rw [h1] at hf
    obtain ⟨u, hu, hm⟩ := exec_runs i s1
    rw [h2, hu] at h
    cases h
    exact hf.trans hm
  · rw [h1] at hf
    rw [h2] at h
    cases h
    exact hf.trans (Micros.one (.takeFault k))

end Sys2Proof.Machine
end

