-- ==== Sys2Proof/Laws/Access.lean ====
section
/-! SUPPORT. What the shared operations answer, in the terms of Sys2Proof/Safety.lean: values in memory
as R61's sums, the accessors, and the shared ends of instructions. -/

namespace Sys2Proof.Machine

/-! ### Values in memory -/

theorem littleValue_readBytes (m : Memory) (a n : Nat) :
    littleValue (m.readBytes a n) =
      ∑ k ∈ Finset.range n, (m.read (a + k)).toNat * 2 ^ (8 * k) := by
  induction n generalizing a with
  | zero => rfl
  | succ n ih =>
    rw [Memory.readBytes, littleValue, ih, Finset.sum_range_succ', Finset.mul_sum, Nat.add_comm]
    congr 1
    · refine Finset.sum_congr rfl fun k _ => ?_
      rw [show a + 1 + k = a + (k + 1) by omega, show 8 * (k + 1) = 8 + 8 * k by omega, pow_add]
      ring
    · simp

theorem littleValue_append_one (bs : List Byte) (b : Byte) :
    littleValue (bs ++ [b]) = littleValue bs + b.toNat * 2 ^ (8 * bs.length) := by
  induction bs with
  | nil => simp [littleValue]
  | cons c bs ih =>
    rw [List.cons_append, littleValue, littleValue, ih, List.length_cons,
      show 8 * (bs.length + 1) = 8 + 8 * bs.length by omega, pow_add]
    ring

theorem littleValue_reverse_readBytes (m : Memory) (a n : Nat) :
    littleValue (m.readBytes a n).reverse =
      ∑ k ∈ Finset.range n, (m.read (a + k)).toNat * 2 ^ (8 * (n - 1 - k)) := by
  induction n generalizing a with
  | zero => rfl
  | succ n ih =>
    rw [Memory.readBytes, List.reverse_cons, littleValue_append_one, ih, Finset.sum_range_succ']
    congr 1
    · refine Finset.sum_congr rfl fun k hk => ?_
      rw [show a + 1 + k = a + (k + 1) by omega, show n + 1 - 1 - (k + 1) = n - 1 - k by omega]
    · simp

theorem littleValue_lt (bs : List Byte) : littleValue bs < 256 ^ bs.length := by
  induction bs with
  | nil => simp [littleValue]
  | cons b bs ih =>
    have hb := b.isLt
    rw [littleValue, List.length_cons, Nat.pow_succ]
    omega

theorem bytesValue_lt (e : Endian) (bs : List Byte) : bytesValue e bs < 256 ^ bs.length := by
  cases e
  · exact littleValue_lt bs
  · simpa [bytesValue] using littleValue_lt bs.reverse

theorem pow_bytes_le (w : Width) : 256 ^ w.bytes ≤ 2 ^ 32 := by cases w <;> decide

/-- A load gives the value R61's sums give. -/
theorem State.load_assembled (s : State) (p : Nat) (w : Width) :
    (s.mem.load s.cfg.endian p w).toNat = assembled s p w.bytes := by
  have h := bytesValue_lt s.cfg.endian (s.mem.readBytes p w.bytes)
  rw [Memory.readBytes_length] at h
  rw [Memory.load, BitVec.toNat_ofNat, Nat.mod_eq_of_lt (by have := pow_bytes_le w; omega)]
  unfold assembled bytesValue
  cases s.cfg.endian
  · exact littleValue_readBytes _ _ _
  · exact littleValue_reverse_readBytes _ _ _

/-- Byte `k` of the bytes of a value, as R61's sums place it. -/
theorem valueBytes_getElem (e : Endian) (n v k : Nat) (h : k < (valueBytes e n v).length) :
    (valueBytes e n v)[k] = placedByte e n v k := by
  rw [valueBytes_length] at h
  cases e
  · simp only [valueBytes, placedByte]
    rw [littleBytes_getElem, pow_mul]; rfl
  · simp only [valueBytes, placedByte, List.getElem_reverse]
    rw [littleBytes_getElem, pow_mul, littleBytes_length]; rfl

/-- A store writes the bytes R61's sums place. -/
theorem Memory.read_store_inside (m : Memory) (e : Endian) (a : Nat) (w : Width) (v : Word) (k : Nat)
    (h : k < w.bytes) : (m.store e a w v).read (a + k) = placedByte e w.bytes v.toNat k := by
  rw [Memory.store, Memory.read_writeBytes_inside m a _ k (by simpa using h), valueBytes_getElem]

/-- A store changes exactly its bytes. -/
theorem State.setMem_storesAt (s t : State) (p : Nat) (w : Width) (v : Word)
    (h : t.mem = s.mem.store s.cfg.endian p w v) : StoresAt s t p w.bytes v := by
  refine ⟨fun k hk => ?_, fun a ha => ?_⟩
  · rw [State.byte, h, Memory.read_store_inside _ _ _ _ _ _ hk]
  · rw [State.byte, h, Memory.read_store_outside _ _ _ _ _ _ ha, State.byte]

/-! ### The accessors: translation changes nothing but the TLB -/

/-- The two states differ in the TLB at most. -/
def OnlyTlb (s t : State) : Prop := t = { s with tlb := t.tlb }

theorem OnlyTlb.refl (s : State) : OnlyTlb s s := rfl

theorem OnlyTlb.fill (s : State) (i : Nat) (e : TlbEntry) : OnlyTlb s (s.fillTlb i e) := rfl

theorem OnlyTlb.fields {s t : State} (h : OnlyTlb s t) :
    t.regs = s.regs ∧ t.sregs = s.sregs ∧ t.cs = s.cs ∧ t.ip = s.ip ∧ t.run = s.run ∧
      t.icount = s.icount ∧ t.mem = s.mem ∧ t.result = s.result ∧ t.cfg = s.cfg ∧
      t.free = s.free ∧ t.trace = s.trace := by
  rw [h]; simp

theorem State.target_onlyTlb (s : State) (a : Nat) (k : AccessKind) :
    OnlyTlb s (s.target a k).after := by
  unfold State.target
  split
  · exact OnlyTlb.refl s
  · split
    · exact OnlyTlb.refl s
    · rcases s.translate_after (BitVec.ofNat 32 a) k with h | ⟨pte, h, _⟩
      · rw [h]; exact OnlyTlb.refl s
      · rw [h]; exact OnlyTlb.fill s _ _

theorem State.target_ok_onlyTlb {s s1 : State} {a p : Nat} {k : AccessKind}
    (h : s.target a k = .ok p s1) : OnlyTlb s s1 := by
  simpa [h] using s.target_onlyTlb a k

theorem State.memRead_onlyTlb (s : State) (a : Nat) (w : Width) :
    OnlyTlb s (s.memRead a w).after := by
  have h := s.target_onlyTlb a .read
  cases ht : s.target a .read with
  | ok p s1 => rw [ht] at h; rw [State.memRead_of_target w ht, State.physRead_after]; exact h
  | raise k s1 => rw [ht] at h; rw [State.memRead_of_target_raise w ht]; exact h

theorem State.memRead_ok_onlyTlb {s s1 : State} {a : Nat} {w : Width} {v : Word}
    (h : s.memRead a w = .ok v s1) : OnlyTlb s s1 := by
  simpa [h] using s.memRead_onlyTlb a w

theorem State.memRead_raise_onlyTlb {s s1 : State} {a : Nat} {w : Width} {k : FaultKind}
    (h : s.memRead a w = .raise k s1) : OnlyTlb s s1 := by
  simpa [h] using s.memRead_onlyTlb a w

/-- A read that finds its address and fits. -/
theorem State.memRead_fits {s s1 : State} {a p : Nat} {w : Width}
    (h : s.target a .read = .ok p s1) (hp : p + w.bytes ≤ s.cfg.memSize) :
    s.memRead a w = .ok (s.mem.load s.cfg.endian p w) s1 := by
  have ho := (State.target_ok_onlyTlb h).fields
  rw [State.memRead_of_target w h, State.physRead_fits _ _ _ (by rw [ho.2.2.2.2.2.2.2.2.1]; exact hp)]
  simp only [ho]

/-- A read that succeeds found its address, and fits. -/
theorem State.memRead_ok {s s1 : State} {a : Nat} {w : Width} {v : Word}
    (h : s.memRead a w = .ok v s1) :
    ∃ p, s.target a .read = .ok p s1 ∧ p + w.bytes ≤ s.cfg.memSize ∧
      v = s.mem.load s.cfg.endian p w := by
  cases ht : s.target a .read with
  | raise k s2 => rw [State.memRead_of_target_raise w ht] at h; cases h
  | ok p s2 =>
    have ho := (State.target_ok_onlyTlb ht).fields
    rw [State.memRead_of_target w ht, State.physRead] at h
    split at h
    · cases h
    · cases h
      simp only [ho] at *
      exact ⟨p, rfl, by omega, rfl⟩

/-- A write that finds its address and fits. -/
theorem State.memWrite_fits {s s1 : State} {a p : Nat} {w : Width} (v : Word)
    (h : s.target a .write = .ok p s1) (hp : p + w.bytes ≤ s.cfg.memSize) :
    s.memWrite a w v = .ok () (s1.setMem (s.mem.store s.cfg.endian p w v)) := by
  have ho := (State.target_ok_onlyTlb h).fields
  rw [State.memWrite_of_target w v h,
    State.physWrite_fits _ _ _ _ (by rw [ho.2.2.2.2.2.2.2.2.1]; exact hp)]
  simp only [ho]

/-- A write that succeeds found its address, and fits. -/
theorem State.memWrite_ok {s t : State} {a : Nat} {w : Width} {v : Word}
    (h : s.memWrite a w v = .ok () t) :
    ∃ p s1, s.target a .write = .ok p s1 ∧ p + w.bytes ≤ s.cfg.memSize ∧
      t = s1.setMem (s.mem.store s.cfg.endian p w v) := by
  cases ht : s.target a .write with
  | raise k s2 => rw [State.memWrite_of_target_raise w v ht] at h; cases h
  | ok p s2 =>
    have ho := (State.target_ok_onlyTlb ht).fields
    rw [State.memWrite_of_target w v ht, State.physWrite] at h
    split at h
    · cases h
    · cases h
      simp only [ho] at *
      exact ⟨p, s2, rfl, by omega, rfl⟩

/-- A write that faults wrote no byte: the state differs in the TLB at most. -/
theorem State.memWrite_raise_onlyTlb {s s1 : State} {a : Nat} {w : Width} {v : Word} {k : FaultKind}
    (h : s.memWrite a w v = .raise k s1) : OnlyTlb s s1 := by
  have ho := s.target_onlyTlb a .write
  cases ht : s.target a .write with
  | raise k2 s2 =>
    rw [State.memWrite_of_target_raise w v ht] at h
    cases h
    simpa [ht] using ho
  | ok p s2 =>
    rw [ht] at ho
    rw [State.memWrite_of_target w v ht, State.physWrite] at h
    split at h
    · cases h; exact ho
    · cases h

/-! ### How instructions end -/

theorem State.advance_onlyRegs {s t : State} (n : Int) {l : List Reg} (h : OnlyRegs s t l) :
    OnlyRegs s (t.advance n) l := h

/-- An instruction that ends in `writeReg` writes that register. -/
theorem writesRegister_of_writeReg {i : Instr} {s : State} {a : Reg} {v : Word} {words : Nat}
    (h : exec i s = s.writeReg a v words) : WritesRegister i s a v words := by
  have hk : KeepsRegs s (s.setX a v) [a] := fun r hr => State.setX_x_other s v (by simpa using hr)
  have hq := s.seqIp_eq words
  constructor
  · intro hlt
    refine ⟨_, h.trans (s.writeReg_completes a v words hlt), by simp, ⟨hk, ?_⟩, ?_, rfl⟩
    · exact ⟨fun _ => rfl, rfl, fun _ => rfl, rfl, rfl, rfl, rfl, rfl, rfl⟩
    · have := State.advance_ip_toNat (s.setX a v) (n := s.seqIp words) (by omega) (by omega)
      omega
  · intro hle
    refine ⟨_, h, ?_⟩
    rw [State.complete_outOfRange _ (by rw [hq]; omega)]
    exact ⟨by simp, hk, fun _ => rfl, rfl, fun _ => rfl, rfl, rfl, rfl, rfl, rfl, rfl⟩

/-- An instruction that only raises stops with nothing written. -/
theorem stopsWith_of_takeFault {i : Instr} {s : State} {k : FaultKind}
    (h : exec i s = .next (s.takeFault k)) : StopsWith i s k :=
  ⟨_, h, ⟨fun _ _ => rfl, fun _ => rfl, rfl, fun _ => rfl, rfl⟩, rfl, rfl, rfl, rfl, rfl⟩

/-- An instruction that only completes at `n` goes to `n`. -/
theorem goesTo_of_complete {i : Instr} {s : State} {n : Int}
    (h : exec i s = .next (s.complete n)) : GoesTo i s n := by
  constructor
  · rintro ⟨h0, h1⟩
    rw [State.complete_inRange _ h0 h1] at h
    refine ⟨_, h, ⟨fun _ _ => rfl, fun _ => rfl, rfl, fun _ => rfl, rfl, rfl, rfl, rfl, rfl, rfl⟩,
      ?_, rfl⟩
    have := s.advance_ip_toNat h0 h1
    omega
  · intro ho
    rw [State.complete_outOfRange _ ho] at h
    exact stopsWith_of_takeFault h

/-- The end of an instruction that reached the state `t` with the next IP in sequence. -/
theorem State.complete_seq (s t : State) (words : Nat) :
    (s.ip.toNat + words < 2 ^ 31 →
      t.complete (s.seqIp words) = t.advance (s.seqIp words) ∧
      (t.advance (s.seqIp words)).ip.toNat = s.ip.toNat + words) ∧
    (2 ^ 31 ≤ s.ip.toNat + words → t.complete (s.seqIp words) = t.takeFault .ipOutOfRange) := by
  have hq := s.seqIp_eq words
  refine ⟨fun h => ⟨State.complete_inRange _ (by omega) (by omega), ?_⟩, fun h =>
    State.complete_outOfRange _ (by omega)⟩
  have := t.advance_ip_toNat (n := s.seqIp words) (by omega) (by omega)
  omega

end Sys2Proof.Machine
end

