-- ==== Sys2Proof/Laws/Decode.lean ====
section
/-! SUPPORT. The building blocks of the round trip between decoder and encoder: the word's fields, the
opcode map, the extension, and the lengths. -/

namespace Sys2Proof

open Machine

/-! ### The opcode map -/

theorem Opcode.mem_all (op : Opcode) : op ∈ Opcode.all := by cases op <;> decide

theorem OpcodeMap.valueOf_of_mem {m : OpcodeMap} (h : m.Pairwise (fun p q => p.1 ≠ q.1 ∧
    ¬ (p.1.format = q.1.format ∧ p.2 = q.2))) {op : Opcode} {k : Nat} (hm : (op, k) ∈ m) :
    m.valueOf op = k := by
  induction m with
  | nil => simp at hm
  | cons p rest ih =>
    obtain ⟨o, j⟩ := p
    rw [List.pairwise_cons] at h
    rcases List.mem_cons.1 hm with heq | hr
    · cases heq; simp [OpcodeMap.valueOf]
    · have hne : o ≠ op := (h.1 (op, k) hr).1
      simp [OpcodeMap.valueOf, hne, ih h.2 hr]

theorem OpcodeMap.find_of_mem {m : OpcodeMap} (h : m.Pairwise (fun p q => p.1 ≠ q.1 ∧
    ¬ (p.1.format = q.1.format ∧ p.2 = q.2))) {op : Opcode} {k : Nat} (hm : (op, k) ∈ m) :
    m.find op.format k = some op := by
  induction m with
  | nil => simp at hm
  | cons p rest ih =>
    obtain ⟨o, j⟩ := p
    rw [List.pairwise_cons] at h
    rcases List.mem_cons.1 hm with heq | hr
    · cases heq; simp [OpcodeMap.find]
    · have hne := (h.1 (op, k) hr).2
      simp only [OpcodeMap.find, if_neg hne, ih h.2 hr]

theorem OpcodeMap.find_some_mem {m : OpcodeMap} {f : Format} {k : Nat} {op : Opcode}
    (h : m.find f k = some op) : (op, k) ∈ m ∧ op.format = f := by
  induction m with
  | nil => simp [OpcodeMap.find] at h
  | cons p rest ih =>
    obtain ⟨o, j⟩ := p
    by_cases hc : o.format = f ∧ j = k
    · simp only [OpcodeMap.find, if_pos hc, Option.some.injEq] at h
      subst h
      exact ⟨by simp [hc.2], hc.1⟩
    · simp only [OpcodeMap.find, if_neg hc] at h
      exact ⟨by simp [(ih h).1], (ih h).2⟩

/-- A lawful map has an entry for every opcode. -/
theorem OpcodeMap.Lawful.entry {m : OpcodeMap} (h : m.Lawful) (op : Opcode) :
    (op, m.valueOf op) ∈ m := by
  obtain ⟨p, hp, rfl⟩ := List.mem_map.1 (h.1 op op.mem_all)
  rw [OpcodeMap.valueOf_of_mem h.2.1 (op := p.1) (k := p.2) hp]
  exact hp

/-- The value a lawful map gives an opcode finds that opcode. -/
theorem OpcodeMap.Lawful.find_valueOf {m : OpcodeMap} (h : m.Lawful) (op : Opcode) :
    m.find op.format (m.valueOf op) = some op :=
  OpcodeMap.find_of_mem h.2.1 (h.entry op)

/-- The value a lawful map gives an opcode fits its format's field. -/
theorem OpcodeMap.Lawful.admits {m : OpcodeMap} (h : m.Lawful) (op : Opcode) :
    op.format.admits (m.valueOf op) = true :=
  h.2.2 _ (h.entry op)

/-! ### The word -/

/-- A record that the fields of a word can hold, with the fields its format omits at 0 (R102). -/
def Record.Fits (r : Record) : Prop :=
  r.format.admits r.field = true ∧
  match r.format with
  | .register => r.value = 0
  | .shortImm => r.b = 0 ∧ 0 ≤ r.value ∧ r.value ≤ 255
  | .branch => r.a = 0 ∧ r.b = 0 ∧ -512 ≤ r.value ∧ r.value ≤ 511

theorem fin16_ofNat_mod (a : Reg) (n : Nat) (h : n = a.val) : Fin.ofNat 16 n = a := by
  subst h
  apply Fin.ext
  simp

/-- The fields of an encoded word are those it was made of (R118). -/
theorem decodeRecord_encodeRecord {r : Record} (h : r.Fits) :
    decodeRecord (encodeRecord r) = r := by
  obtain ⟨f, k, a, b, v⟩ := r
  have ha := a.isLt
  have hb := b.isLt
  obtain ⟨h1, h2⟩ := h
  cases f with
  | register =>
    simp only [Format.admits, decide_eq_true_eq] at h1
    simp only at h2
    subst h2
    have hw : (encodeRecord ⟨.register, k, a, b, 0⟩).toNat = k * 256 + a.val * 16 + b.val := by
      simp only [encodeRecord, BitVec.toNat_ofNat]
      omega
    have n3 : ¬ bits (encodeRecord ⟨.register, k, a, b, 0⟩) 15 14 = 3 := by
      simp only [bits, hw]; omega
    have n2 : ¬ bits (encodeRecord ⟨.register, k, a, b, 0⟩) 15 14 = 2 := by
      simp only [bits, hw]; omega
    rw [decodeRecord, if_neg n3, if_neg n2]
    congr 1
    · simp only [bits, hw]; omega
    · exact fin16_ofNat_mod a _ (by simp only [bits, hw]; omega)
    · exact fin16_ofNat_mod b _ (by simp only [bits, hw]; omega)
  | shortImm =>
    simp only [Format.admits, Bool.and_eq_true, decide_eq_true_eq] at h1
    obtain ⟨rfl, h3, h4⟩ := h2
    simp only at h3 h4
    have hw : (encodeRecord ⟨.shortImm, k, a, 0, v⟩).toNat =
        k * 4096 + a.val * 256 + v.toNat := by
      simp only [encodeRecord, BitVec.toNat_ofNat]
      omega
    have n3 : ¬ bits (encodeRecord ⟨.shortImm, k, a, 0, v⟩) 15 14 = 3 := by
      simp only [bits, hw]; omega
    have n2 : bits (encodeRecord ⟨.shortImm, k, a, 0, v⟩) 15 14 = 2 := by
      simp only [bits, hw]; omega
    rw [decodeRecord, if_neg n3, if_pos n2]
    congr 1
    · simp only [bits, hw]; omega
    · exact fin16_ofNat_mod a _ (by simp only [bits, hw]; omega)
    · simp only [bits, hw]; omega
  | branch =>
    simp only [Format.admits, Bool.and_eq_true, decide_eq_true_eq] at h1
    obtain ⟨rfl, rfl, h3, h4⟩ := h2
    simp only at h3 h4
    have hw : (encodeRecord ⟨.branch, k, 0, 0, v⟩).toNat = k * 1024 + (v % 1024).toNat := by
      simp only [encodeRecord, BitVec.toNat_ofNat]
      omega
    have n3 : bits (encodeRecord ⟨.branch, k, 0, 0, v⟩) 15 14 = 3 := by
      simp only [bits, hw]; omega
    rw [decodeRecord, if_pos n3]
    congr 1
    · simp only [bits, hw]; omega
    · simp only [bits, hw, signedField]
      split <;> omega

/-! ### The extension -/

/-- The extension of an encoded instruction is read back, and the bytes after it are left. -/
theorem takeExt_valueBytes (e : Endian) (n v : Nat) (rest : List Byte) :
    takeExt e n (valueBytes e n v ++ rest) = some (BitVec.ofNat 32 (v % 256 ^ n), rest) := by
  have hl : (valueBytes e n v).length = n := valueBytes_length e n v
  rw [takeExt, if_pos (by simp [hl])]
  rw [List.take_append_of_le_length (by omega), List.take_of_length_le (by omega),
    List.drop_append_of_le_length (by omega), List.drop_of_length_le (by omega),
    bytesValue_valueBytes]
  rfl

/-- The length in bytes is twice the length in words (R105). -/
theorem Opcode.words_bytes (op : Opcode) : 2 * op.words = 2 + extBytes op.ext := by
  cases op <;> rfl

/-- An encoding is as long as R105 says. -/
theorem encode_length (m : OpcodeMap) (e : Endian) (i : Instr) :
    (encode m e i).length = 2 * i.opcode.words := by
  rw [Opcode.words_bytes]
  simp [encode, Instr.opcode]

/-! ### Decoding a word whose fields are known -/

/-- The decoder on an instruction word that was made of a record's fields: the opcode map's entry and
then the extension decide. -/
theorem decode_of_record {m : OpcodeMap} {e : Endian} {r : Record} {op : Opcode} (h : r.Fits)
    (hf : m.find r.format r.field = some op) (rest : List Byte) :
    decode m e (valueBytes e 2 (encodeRecord r).toNat ++ rest) =
      match takeExt e (extBytes op.ext) rest with
      | none => .error .truncated
      | some (x, rest') => .ok (Parts.build ⟨op, r.a, r.b, r.value, x⟩, rest') := by
  have hlen := valueBytes_length e 2 (encodeRecord r).toNat
  have hval := bytesValue_valueBytes e 2 (encodeRecord r).toNat
  generalize valueBytes e 2 (encodeRecord r).toNat = bs at hlen hval
  match bs, hlen with
  | [b0, b1], _ =>
    have hw : BitVec.ofNat 16 (bytesValue e [b0, b1]) = encodeRecord r := by
      rw [hval]
      apply BitVec.eq_of_toNat_eq
      have := (encodeRecord r).isLt
      rw [BitVec.toNat_ofNat]
      omega
    simp only [decode, List.cons_append, List.nil_append, hw, decodeRecord_encodeRecord h, hf]
    all_goals cases takeExt e (extBytes op.ext) rest <;> rfl

theorem valueBytes_little_two (x : Nat) :
    valueBytes .little 2 x = [BitVec.ofNat 8 x, BitVec.ofNat 8 (x / 256)] := rfl

/-- An extension is a 2-byte offset or a 4-byte immediate (R105). -/
theorem Opcode.ext_cases (op : Opcode) :
    op.ext = none ∨ op.ext = some .short ∨ op.ext = some .long := by cases op <;> decide

/-- The opcode table's reading of a word and its extension. -/
theorem decodeTableWord_of_record {r : Record} {op : Opcode} (h : r.Fits)
    (hf : OpcodeMap.standard.find r.format r.field = some op) (v : Nat)
    (hv : v < 256 ^ extBytes op.ext) (w : Nat) (hw : w = (encodeRecord r).toNat + 2 ^ 16 * v) :
    decodeTableWord (16 * op.words) w =
      some (Parts.build ⟨op, r.a, r.b, r.value, BitVec.ofNat 32 v⟩) := by
  subst hw
  have he := (encodeRecord r).isLt
  have hmod : ((encodeRecord r).toNat + 2 ^ 16 * v) % 2 ^ (16 * op.words) =
      (encodeRecord r).toNat + 2 ^ 16 * v := by
    apply Nat.mod_eq_of_lt
    rcases op.ext_cases with hx | hx | hx <;> rw [hx] at hv <;>
      simp only [extBytes, Width.bytes, Opcode.words, hx] at * <;> omega
  have h1 : ((encodeRecord r).toNat + 2 ^ 16 * v) % 2 ^ 16 = (encodeRecord r).toNat := by omega
  have h2 : ((encodeRecord r).toNat + 2 ^ 16 * v) / 2 ^ 16 = v := by omega
  have h3 : ((encodeRecord r).toNat + 2 ^ 16 * v) / 2 ^ 32 = v / 2 ^ 16 := by omega
  simp only [decodeTableWord, tableBytes, hmod, h1, h2, h3, List.append_assoc]
  rw [decode_of_record h hf, takeExt, if_pos (by
    simp only [List.length_append, valueBytes_length]
    cases op.ext with
    | none => simp [extBytes]
    | some wd => cases wd <;> simp [extBytes, Width.bytes])]
  have hx : BitVec.ofNat 32 (bytesValue .little (List.take (extBytes op.ext)
      (valueBytes .little 2 (v % 2 ^ 16) ++ valueBytes .little 2 (v / 2 ^ 16 % 2 ^ 16)))) =
      BitVec.ofNat 32 v := by
    congr 1
    simp only [valueBytes_little_two, bytesValue]
    cases hx : op.ext with
    | none => rw [hx] at hv; simp only [extBytes, List.take, littleValue] at *; omega
    | some wd =>
      cases wd <;> rw [hx] at hv <;>
        simp only [extBytes, Width.bytes, List.cons_append, List.nil_append, List.take, littleValue,
          BitVec.toNat_ofNat] at * <;> omega
  simp only [hx]

/-! ### Whole families of words of the default map -/

theorem OpcodeMap.standard_lawful : OpcodeMap.standard.Lawful := by decide +kernel

/-- The record of a word under the default map. -/
theorem standard_record (op : Opcode) {k : Nat} (hk : OpcodeMap.standard.valueOf op = k) :
    OpcodeMap.standard.find op.format k = some op ∧ op.format.admits k = true := by
  subst hk
  exact ⟨OpcodeMap.standard_lawful.find_valueOf op, OpcodeMap.standard_lawful.admits op⟩

theorem register_word {k : Nat} (hk : k < 0x80) (a b : Reg) :
    (encodeRecord ⟨.register, k, a, b, 0⟩).toNat = k * 2 ^ 8 + a.val * 2 ^ 4 + b.val := by
  have ha := a.isLt
  have hb := b.isLt
  simp only [encodeRecord, BitVec.toNat_ofNat]
  omega

/-- Every one-word register-format word of an opcode decodes to it. -/
theorem decodesRR_of (op : Opcode) {k : Nat} {f : Reg → Reg → Instr}
    (hk : OpcodeMap.standard.valueOf op = k) (hf : op.format = .register) (he : op.words = 1)
    (hb : ∀ a b, Parts.build ⟨op, a, b, 0, 0⟩ = f a b) : DecodesRR k f := by
  obtain ⟨h1, h2⟩ := standard_record op hk
  rw [hf] at h1 h2
  intro a b
  have h := decodeTableWord_of_record (r := ⟨.register, k, a, b, 0⟩) ⟨h2, rfl⟩ h1 0 (by positivity)
    (k * 2 ^ 8 + a.val * 2 ^ 4 + b.val)
    (by rw [register_word (by simpa [Format.admits] using h2), Nat.mul_zero, Nat.add_zero])
  rw [he] at h
  rw [← hb]
  exact h

/-- Every three-word word of an opcode decodes to it, with every immediate. -/
theorem decodesImm_of (op : Opcode) {k : Nat} {f : Reg → Reg → Word → Instr}
    (hk : OpcodeMap.standard.valueOf op = k) (hf : op.format = .register) (he : op.ext = some .long)
    (hb : ∀ a b v, Parts.build ⟨op, a, b, 0, v⟩ = f a b v) : DecodesImm k f := by
  obtain ⟨h1, h2⟩ := standard_record op hk
  rw [hf] at h1 h2
  intro a b v
  have h := decodeTableWord_of_record (r := ⟨.register, k, a, b, 0⟩) ⟨h2, rfl⟩ h1 v.toNat
    (by rw [he]; exact v.isLt)
    (k * 2 ^ 8 + a.val * 2 ^ 4 + b.val + 2 ^ 16 * v.toNat)
    (by rw [register_word (by simpa [Format.admits] using h2)])
  rw [show op.words = 3 by simp [Opcode.words, he, extBytes, Width.bytes]] at h
  rw [BitVec.ofNat_toNat, BitVec.setWidth_eq] at h
  rw [← hb]
  exact h

theorem signedField_toInt (o : Half) : signedField 16 o.toNat = o.toInt := by
  simp only [signedField, BitVec.toInt]
  have := o.isLt
  split <;> split <;> omega

/-- Every two-word word of an opcode decodes to it, with every offset. -/
theorem decodesOff_of (op : Opcode) {k : Nat} {f : Reg → Reg → Int → Instr}
    (hk : OpcodeMap.standard.valueOf op = k) (hf : op.format = .register)
    (he : op.ext = some .short)
    (hb : ∀ a b v, Parts.build ⟨op, a, b, 0, v⟩ = f a b (signedField 16 (v.toNat % 65536))) :
    DecodesOff k f := by
  obtain ⟨h1, h2⟩ := standard_record op hk
  rw [hf] at h1 h2
  intro a b o
  have ho := o.isLt
  have h := decodeTableWord_of_record (r := ⟨.register, k, a, b, 0⟩) ⟨h2, rfl⟩ h1 o.toNat
    (by rw [he]; exact o.isLt)
    (k * 2 ^ 8 + a.val * 2 ^ 4 + b.val + 2 ^ 16 * o.toNat)
    (by rw [register_word (by simpa [Format.admits] using h2)])
  rw [show op.words = 2 by simp [Opcode.words, he, extBytes, Width.bytes]] at h
  rw [h, hb, BitVec.toNat_ofNat, Nat.mod_eq_of_lt (show o.toNat < 2 ^ 32 by omega),
    Nat.mod_eq_of_lt (show o.toNat < 65536 by omega), signedField_toInt]

/-- Every short-immediate word of an opcode decodes to it. -/
theorem decodesShort_of (op : Opcode) {k : Nat} {f : Reg → Nat → Instr}
    (hk : OpcodeMap.standard.valueOf op = k) (hf : op.format = .shortImm) (he : op.ext = none)
    (hb : ∀ a (n : Nat), Parts.build ⟨op, a, 0, (n : Int), 0⟩ = f a n) : DecodesShort k f := by
  obtain ⟨h1, h2⟩ := standard_record op hk
  rw [hf] at h1 h2
  intro a n
  have ha := a.isLt
  have hn := n.isLt
  have h := decodeTableWord_of_record (r := ⟨.shortImm, k, a, 0, (n.toNat : Int)⟩)
    ⟨h2, rfl, by simp only; omega, by simp only; omega⟩ h1 0 (by positivity)
    (k * 2 ^ 12 + a.val * 2 ^ 8 + n.toNat)
    (by
      simp only [Format.admits, Bool.and_eq_true, decide_eq_true_eq] at h2
      simp only [encodeRecord, BitVec.toNat_ofNat]
      omega)
  rw [show op.words = 1 by simp [Opcode.words, he, extBytes]] at h
  rw [← hb]
  exact h

/-- Every branch word of an opcode decodes to it. -/
theorem decodesBranch_of (op : Opcode) {k : Nat} {f : Int → Instr}
    (hk : OpcodeMap.standard.valueOf op = k) (hf : op.format = .branch) (he : op.ext = none)
    (hb : ∀ d, Parts.build ⟨op, 0, 0, d, 0⟩ = f d) : DecodesBranch k f := by
  obtain ⟨h1, h2⟩ := standard_record op hk
  rw [hf] at h1 h2
  intro d
  have hd := d.isLt
  have hi : d.toInt = if d.toNat < 512 then (d.toNat : Int) else d.toNat - 1024 := by
    rw [BitVec.toInt]; split <;> split <;> omega
  have h := decodeTableWord_of_record (r := ⟨.branch, k, 0, 0, d.toInt⟩)
    ⟨h2, rfl, rfl, by simp only [hi]; split <;> omega, by simp only [hi]; split <;> omega⟩ h1 0
    (by positivity) (k * 2 ^ 10 + d.toNat)
    (by
      simp only [Format.admits, Bool.and_eq_true, decide_eq_true_eq] at h2
      simp only [encodeRecord, BitVec.toNat_ofNat, hi]
      split <;> omega)
  rw [show op.words = 1 by simp [Opcode.words, he, extBytes]] at h
  rw [← hb]
  exact h

end Sys2Proof
end

