-- ==== Sys2Proof/Laws/Frames.lean ====
section
/-! SUPPORT. How every instruction ends and what it may write before that, said once (`exec_ends`): only a
few instructions need to be asked about the comparison status, the special registers and memory. And what
the internal push and pop do. -/

namespace Sys2Proof.Machine

/-! ### Which instructions write what -/

/-- The opcodes that store to memory (spec/10_state.md R43). -/
def Opcode.stores : List Opcode :=
  [.stB, .stS, .stL, .staB, .staS, .staL, .stoB, .stoS, .stoL, .push, .jsr, .jsra]

/-- A property that writing a general register and filling a TLB slot keep. -/
structure Kept (P : State → Prop) : Prop where
  setX : ∀ s i v, P s → P (s.setX i v)
  fillTlb : ∀ s i e, P s → P (s.fillTlb i e)

/-- A property that stores keep. -/
def KeptByStores (P : State → Prop) : Prop :=
  ∀ s p w v, P s → P (s.setMem (s.mem.store s.cfg.endian p w v))

variable {P : State → Prop}

theorem Res.andThen_keeps {α β : Type} {r : Res α} {f : α → State → Res β} (h : P r.after)
    (hf : ∀ a s, P s → P (f a s).after) : P (r.andThen f).after := by
  cases r with
  | ok a s => exact hf a s h
  | raise k s => exact h

theorem Kept.target (K : Kept P) {s : State} (hs : P s) (a : Nat) (k : AccessKind) :
    P (s.target a k).after := by
  unfold State.target
  split
  · exact hs
  · split
    · exact hs
    · rcases s.translate_after (BitVec.ofNat 32 a) k with h | ⟨pte, h, _⟩
      · rw [h]; exact hs
      · rw [h]; exact K.fillTlb _ _ _ hs

theorem Kept.memRead (K : Kept P) {s : State} (hs : P s) (a : Nat) (w : Width) :
    P (s.memRead a w).after :=
  Res.andThen_keeps (K.target hs a .read) fun p s1 h1 => by rw [State.physRead_after]; exact h1

theorem Kept.memWrite (K : Kept P) (S : KeptByStores P) {s : State} (hs : P s) (a : Nat) (w : Width)
    (v : Word) : P (s.memWrite a w v).after :=
  Res.andThen_keeps (K.target hs a .write) fun p s1 h1 => by
    unfold State.physWrite
    split
    · exact h1
    · exact S _ _ _ _ h1

/-- An answer that completes, faults or (for Brk alone) halts in a state with the property. -/
def EndsIn (P : State → Prop) (i : Instr) (o : StepResult) : Prop :=
  ∃ u, P u ∧ ((∃ n, o = .next (u.complete n)) ∨ (∃ k, o = .next (u.takeFault k)) ∨
    i = .brk ∧ o = .next u.halt)

theorem EndsIn.complete {i : Instr} {u : State} (h : P u) (n : Int) :
    EndsIn P i (.next (u.complete n)) := ⟨u, h, .inl ⟨n, rfl⟩⟩

theorem EndsIn.takeFault {i : Instr} {u : State} (h : P u) (k : FaultKind) :
    EndsIn P i (.next (u.takeFault k)) := ⟨u, h, .inr (.inl ⟨k, rfl⟩)⟩

theorem EndsIn.finish {i : Instr} {r : Res Int} (h : P r.after) : EndsIn P i (finish r) := by
  cases r with
  | ok n s => exact .complete h n
  | raise k s => exact .takeFault h k

theorem Kept.writeReg (K : Kept P) {i : Instr} {s : State} (hs : P s) (a : Reg) (v : Word) (k : Nat) :
    EndsIn P i (s.writeReg a v k) := .complete (K.setX _ _ _ hs) _

theorem Kept.writeRegOr (K : Kept P) {i : Instr} {s : State} (hs : P s) (a : Reg)
    (r : Except FaultKind Word) (k : Nat) : EndsIn P i (s.writeRegOr a r k) := by
  cases r with
  | ok v => exact K.writeReg hs a v k
  | error f => exact .takeFault hs f

theorem EndsIn.branchIf {i : Instr} {s : State} (hs : P s) (c : Bool) (d : Int) :
    EndsIn P i (s.branchIf c d) := .complete hs _

theorem Kept.loadReg (K : Kept P) {s : State} (hs : P s) (a : Reg) (ea : Nat) (w : Width) (k : Nat) :
    P (s.loadReg a ea w k).after :=
  Res.andThen_keeps (K.memRead hs ea w) fun _ _ h => K.setX _ _ _ h

theorem Kept.storeVal (K : Kept P) (S : KeptByStores P) {s : State} (hs : P s) (ea : Nat) (w : Width)
    (v : Word) (k : Nat) : P (s.storeVal ea w v k).after :=
  Res.andThen_keeps (K.memWrite S hs ea w v) fun _ _ h => h

theorem jumpTo_keeps {s : State} (hs : P s) (t : Word) : P (jumpTo t s).after := by
  rw [jumpTo_after]; exact hs

theorem State.eaOffset_keeps {s : State} (hs : P s) (r : Reg) (off : Int) :
    P (s.eaOffset r off).after := by
  rw [State.eaOffset_after]; exact hs

theorem Kept.push32 (K : Kept P) (S : KeptByStores P) {s : State} (hs : P s) (v : Word) :
    P (s.push32 v).after := K.memWrite S (K.setX _ _ _ hs) _ _ _

theorem Kept.pop32 (K : Kept P) {s : State} (hs : P s) : P s.pop32.after :=
  Res.andThen_keeps (K.memRead hs _ _) fun _ _ h => K.setX _ _ _ h

theorem Kept.callFrame (K : Kept P) (S : KeptByStores P) {s : State} (hs : P s) (r : Nat) :
    P (s.callFrame r).after :=
  Res.andThen_keeps (K.push32 S hs _) fun _ _ h1 =>
    Res.andThen_keeps (K.push32 S h1 _) fun _ _ h2 =>
      Res.andThen_keeps (K.push32 S h2 _) fun _ _ h3 => K.setX _ _ _ h3

theorem Kept.execRet (K : Kept P) {i : Instr} {s : State} (hs : P s) : EndsIn P i (execRet s) :=
  .finish (Res.andThen_keeps (K.pop32 (K.setX _ _ _ hs)) fun f _ h1 =>
    Res.andThen_keeps (K.pop32 (K.setX _ fp f h1)) fun _ _ h2 =>
      Res.andThen_keeps (K.pop32 h2) fun _ _ h3 => h3)

theorem Kept.execPop (K : Kept P) {i : Instr} {s : State} (hs : P s) (a b : Reg) :
    EndsIn P i (execPop a b s) :=
  .finish (Res.andThen_keeps (K.memRead hs _ _) fun _ _ h => K.setX _ _ _ (K.setX _ _ _ h))

theorem Kept.execGsr (K : Kept P) {i : Instr} {s : State} (hs : P s) (a : Reg) (imm : Nat) :
    EndsIn P i (execGsr a imm s) := by
  unfold Machine.execGsr
  split
  · exact K.writeReg hs _ _ _
  · exact .takeFault hs _

theorem specialIndex_eq_some {imm : Nat} {j : Fin 10} (h : specialIndex imm = some j) :
    imm = j.val := by
  unfold specialIndex at h
  split at h
  · cases h; rfl
  · cases h

@[simp] theorem specialIndex_val (j : Fin 10) : specialIndex j.val = some j := by
  simp [specialIndex]

theorem specialIndex_none {imm : Nat} (h : 10 ≤ imm) : specialIndex imm = none := by
  rw [specialIndex, dif_neg (by omega)]

/-- HOW EVERY INSTRUCTION ENDS, AND WHAT IT MAY WRITE BEFORE: it completes, faults, or, Brk alone,
halts, in a state reached by register writes and TLB fills, to which only Cmp adds the status, only Ssr
and Swi a special register, and only the storing instructions memory. -/
theorem exec_ends (K : Kept P) (i : Instr) {s : State} (hs : P s)
    (hcs : ∀ a b, i = .cmp a b → ∀ u c, P u → P (u.setCs c))
    (hsr : ∀ j : Fin 10, (∃ a, i = .ssr a j.val) ∨ (∃ v, i = .swi v) ∧ j = 3 →
      ∀ u v, P u → P (u.setSr j v))
    (hst : i.opcode ∈ Opcode.stores → KeptByStores P) : EndsIn P i (exec i s) := by
  cases i
  case cmp a b => exact .complete (hcs a b rfl _ _ hs) _
  case jmp a => exact .finish (jumpTo_keeps hs _)
  case jmpa v => exact .finish (jumpTo_keeps hs v)
  case jsr a =>
    exact .finish (Res.andThen_keeps (K.callFrame (hst (by simp [Instr.opcode, Instr.parts, Opcode.stores])) hs _)
      fun _ _ h => jumpTo_keeps h _)
  case jsra v =>
    exact .finish (Res.andThen_keeps (K.callFrame (hst (by simp [Instr.opcode, Instr.parts, Opcode.stores])) hs _)
      fun _ _ h => jumpTo_keeps h v)
  case ret => exact K.execRet hs
  case push a b => exact .finish (K.storeVal (hst (by simp [Instr.opcode, Instr.parts, Opcode.stores])) (K.setX _ a _ hs) _ _ _ _)
  case pop a b => exact K.execPop hs a b
  case gsr a n => exact K.execGsr hs a n
  case ssr a n =>
    simp only [exec, execSsr]
    split
    · next j hj =>
      refine .complete (hsr j (.inl ⟨a, ?_⟩) _ _ hs) _
      rw [specialIndex_eq_some hj]
    · exact .takeFault hs _
  case swi v => exact .takeFault (hsr srSwi (.inr ⟨⟨v, rfl⟩, rfl⟩) _ _ hs) _
  case brk => exact ⟨s, hs, .inr (.inr ⟨rfl, rfl⟩)⟩
  case nop => exact .complete hs _
  all_goals
    simp only [exec, execAdd, execSub, execNeg, execInc, execDec, execMul, execMulX, execUmulX,
      execDiv, execUdiv, execMod, execUmod, execAnd, execOr, execXor, execNot, execAshl,
      execAshr, execLshr, execSexB, execSexS, execZexB, execZexS, execBeq, execBne, execBge,
      execBgt, execBle, execBlt, execBgeu, execBgtu, execBleu, execBltu, execLdB, execLdS,
      execLdL, execStB, execStS, execStL, execLdaB, execLdaS, execLdaL, execStaB, execStaS,
      execStaL, execLdoB, execLdoS, execLdoL, execStoB, execStoS, execStoL, execLdiL, execLdiB,
      execLdiS, execMov]
  all_goals with_reducible first
    | exact K.writeReg hs _ _ _
    | exact K.writeRegOr hs _ _ _
    | exact .branchIf hs _ _
    | exact .finish (K.loadReg hs _ _ _ _)
    | exact .finish (K.storeVal (hst (by simp [Instr.opcode, Instr.parts, Opcode.stores])) hs _ _ _ _)
    | exact .finish (Res.andThen_keeps (State.eaOffset_keeps hs _ _)
        fun _ _ h => K.loadReg h _ _ _ _)
    | exact .finish (Res.andThen_keeps (State.eaOffset_keeps hs _ _)
        fun _ _ h => K.storeVal (hst (by simp [Instr.opcode, Instr.parts, Opcode.stores])) h _ _ _ _)

/-- A property that every way to end keeps too holds in the next state. -/
theorem EndsIn.keeps {i : Instr} {o : StepResult} {t : State} (h : EndsIn P i o) (ht : o = .next t)
    (hc : ∀ u n, P u → P (u.complete n)) (hf : ∀ u k, P u → P (u.takeFault k))
    (hh : ∀ u, P u → P u.halt) : P t := by
  obtain ⟨u, hu, ⟨n, h⟩ | ⟨k, h⟩ | ⟨_, h⟩⟩ := h <;> rw [h] at ht <;> injection ht with ht <;>
    rw [← ht]
  · exact hc u n hu
  · exact hf u k hu
  · exact hh u hu

/-- Completing leaves these fields alone, whether or not the next IP is in range. -/
theorem State.complete_fields (s : State) (n : Int) :
    (s.complete n).regs = s.regs ∧ (s.complete n).sregs = s.sregs ∧ (s.complete n).cs = s.cs ∧
      (s.complete n).mem = s.mem ∧ (s.complete n).tlb = s.tlb ∧ (s.complete n).run = s.run ∧
      (s.complete n).cfg = s.cfg ∧ (s.complete n).trace = s.trace := by
  unfold State.complete
  split <;> exact ⟨rfl, rfl, rfl, rfl, rfl, rfl, rfl, rfl⟩

/-! ### The internal push and pop -/

/-- The two states agree in every field but the general registers, memory and the TLB. -/
structure SameControl (s t : State) : Prop where
  sregs : t.sregs = s.sregs
  cs : t.cs = s.cs
  ip : t.ip = s.ip
  run : t.run = s.run
  icount : t.icount = s.icount
  result : t.result = s.result
  cfg : t.cfg = s.cfg
  free : t.free = s.free
  trace : t.trace = s.trace

theorem SameControl.refl (s : State) : SameControl s s :=
  ⟨rfl, rfl, rfl, rfl, rfl, rfl, rfl, rfl, rfl⟩

theorem SameControl.trans {a b c : State} (h : SameControl a b) (h' : SameControl b c) :
    SameControl a c :=
  ⟨h'.sregs.trans h.sregs, h'.cs.trans h.cs, h'.ip.trans h.ip, h'.run.trans h.run,
    h'.icount.trans h.icount, h'.result.trans h.result, h'.cfg.trans h.cfg, h'.free.trans h.free,
    h'.trace.trans h.trace⟩

theorem SameControl.setX (s : State) (i : Reg) (v : Word) : SameControl s (s.setX i v) :=
  ⟨rfl, rfl, rfl, rfl, rfl, rfl, rfl, rfl, rfl⟩

theorem SameControl.setMem (s : State) (m : Memory) : SameControl s (s.setMem m) :=
  ⟨rfl, rfl, rfl, rfl, rfl, rfl, rfl, rfl, rfl⟩

theorem OnlyTlb.sameControl {s t : State} (h : OnlyTlb s t) : SameControl s t := by
  have hf := h.fields
  constructor <;> simp only [hf]

theorem OnlyTlb.x {s t : State} (h : OnlyTlb s t) (r : Reg) : t.x r = s.x r := by
  simp only [State.x, h.fields.1]

/-- All a write through the accessor can do: memory and the TLB. -/
theorem State.memWrite_sameControl (s : State) (a : Nat) (w : Width) (v : Word) :
    SameControl s (s.memWrite a w v).after ∧ ∀ r, (s.memWrite a w v).after.x r = s.x r := by
  cases h : s.memWrite a w v with
  | raise k s1 =>
    exact ⟨(State.memWrite_raise_onlyTlb h).sameControl, (State.memWrite_raise_onlyTlb h).x⟩
  | ok u t =>
    obtain ⟨p, s1, h1, _, rfl⟩ := State.memWrite_ok h
    have ho := State.target_ok_onlyTlb h1
    exact ⟨ho.sameControl.trans (SameControl.setMem _ _), ho.x⟩

/-- `Push32` is the SP's decrement and then a store there. -/
theorem State.push32_eq (s : State) (v : Word) :
    s.push32 v = (s.setX sp (u32 (((s.x sp).toNat : Int) - 4))).memWrite
      (u32 (((s.x sp).toNat : Int) - 4)).toNat .long v := by
  unfold State.push32
  simp only [State.setX_x, if_true]

/-- However `Push32` ends, SP is 4 lower and no other register differs. -/
theorem State.push32_after (s : State) (v : Word) :
    SameControl s (s.push32 v).after ∧
      ∀ r, (s.push32 v).after.x r = if r = sp then u32 (((s.x sp).toNat : Int) - 4) else s.x r := by
  rw [State.push32_eq]
  have h := State.memWrite_sameControl (s.setX sp (u32 (((s.x sp).toNat : Int) - 4)))
    (u32 (((s.x sp).toNat : Int) - 4)).toNat .long v
  exact ⟨(SameControl.setX _ _ _).trans h.1, fun r => (h.2 r).trans (State.setX_x _ _ _ _)⟩

theorem State.push32_ok {s t : State} {v : Word} (h : s.push32 v = .ok () t) :
    SameControl s t ∧
      ∀ r, t.x r = if r = sp then u32 (((s.x sp).toNat : Int) - 4) else s.x r := by
  have h1 := s.push32_after v
  rw [h] at h1
  exact h1

theorem State.push32_raise {s t : State} {v : Word} {k : FaultKind} (h : s.push32 v = .raise k t) :
    SameControl s t ∧
      ∀ r, t.x r = if r = sp then u32 (((s.x sp).toNat : Int) - 4) else s.x r := by
  have h1 := s.push32_after v
  rw [h] at h1
  exact h1

theorem State.pop32_ok {s t : State} {v : Word} (h : s.pop32 = .ok v t) :
    SameControl s t ∧ t.mem = s.mem ∧
      ∀ r, t.x r = if r = sp then u32 (((s.x sp).toNat : Int) + 4) else s.x r := by
  unfold State.pop32 at h
  rw [Res.andThen_eq_ok] at h
  obtain ⟨a, s1, h1, h2⟩ := h
  have ho := State.memRead_ok_onlyTlb h1
  cases h2
  refine ⟨ho.sameControl.trans (SameControl.setX _ _ _), ?_, fun r => ?_⟩
  · rw [State.setX_mem, ho.fields.2.2.2.2.2.2.1]
  · rw [State.setX_x, ho.x, ho.x]

theorem State.pop32_raise {s t : State} {k : FaultKind} (h : s.pop32 = .raise k t) :
    SameControl s t ∧ t.mem = s.mem ∧ ∀ r, t.x r = s.x r := by
  unfold State.pop32 at h
  rw [Res.andThen_eq_raise] at h
  rcases h with h | ⟨_, _, _, h⟩
  · have ho := State.memRead_raise_onlyTlb h
    exact ⟨ho.sameControl, ho.fields.2.2.2.2.2.2.1, ho.x⟩
  · cases h

end Sys2Proof.Machine
end

