-- ==== Sys2Proof/Laws/PerInstr.lean ====
section
/-! SUPPORT. Facts about each instruction as syntax, one lemma per constructor: taken apart and put
together again, a well-formed instruction is itself, and the record of its word fits the word. -/

namespace Sys2Proof.Laws.Rebuild

/-- Taking a well-formed instruction apart loses nothing; its word's record fits under every lawful
opcode map; and its extension is one its opcode's extension words can hold. -/
def Statement (i : Instr) : Prop :=
  i.wellFormed = true → i.parts.build = i ∧
    (∀ m : OpcodeMap, m.Lawful → (i.parts.record m).Fits) ∧
    i.parts.ext.toNat < 256 ^ extBytes i.opcode.ext

theorem record_fits_register {p : Parts} (hf : p.op.format = .register) (hv : p.value = 0)
    (m : OpcodeMap) (hm : m.Lawful) : (p.record m).Fits := by
  refine ⟨hm.admits p.op, ?_⟩
  simp [Parts.record, hf, hv]

theorem record_fits_short {p : Parts} (hf : p.op.format = .shortImm) (hb : p.b = 0)
    (h0 : 0 ≤ p.value) (h1 : p.value ≤ 255) (m : OpcodeMap) (hm : m.Lawful) :
    (p.record m).Fits := by
  refine ⟨hm.admits p.op, ?_⟩
  simp [Parts.record, hf, hb, h0, h1]

theorem record_fits_branch {p : Parts} (hf : p.op.format = .branch) (ha : p.a = 0) (hb : p.b = 0)
    (h0 : -512 ≤ p.value) (h1 : p.value ≤ 511) (m : OpcodeMap) (hm : m.Lawful) :
    (p.record m).Fits := by
  refine ⟨hm.admits p.op, ?_⟩
  simp [Parts.record, hf, ha, hb, h0, h1]

/-- A 16-bit offset survives its trip through the extension word (R107). -/
theorem offset_roundtrip {o : Int} (h : offFits o = true) :
    signedField 16 ((BitVec.ofNat 32 (o % 65536).toNat).toNat % 65536) = o ∧
      (BitVec.ofNat 32 (o % 65536).toNat).toNat < 256 ^ 2 := by
  simp only [offFits, Bool.and_eq_true, decide_eq_true_eq] at h
  simp only [BitVec.toNat_ofNat, signedField]
  constructor
  · split <;> omega
  · omega

theorem add (a b : Reg) : Statement (.add a b) := fun _ =>
  ⟨rfl, record_fits_register rfl rfl, Nat.zero_lt_one⟩

theorem sub (a b : Reg) : Statement (.sub a b) := fun _ =>
  ⟨rfl, record_fits_register rfl rfl, Nat.zero_lt_one⟩

theorem neg (a b : Reg) : Statement (.neg a b) := fun _ =>
  ⟨rfl, record_fits_register rfl rfl, Nat.zero_lt_one⟩

theorem inc (a : Reg) (n : Nat) : Statement (.inc a n) := fun h =>
  have h : n ≤ 255 := by simpa [Instr.wellFormed, immFits] using h
  ⟨rfl, record_fits_short rfl rfl (Int.natCast_nonneg n) (by simpa [Instr.parts] using h),
    Nat.zero_lt_one⟩

theorem dec (a : Reg) (n : Nat) : Statement (.dec a n) := fun h =>
  have h : n ≤ 255 := by simpa [Instr.wellFormed, immFits] using h
  ⟨rfl, record_fits_short rfl rfl (Int.natCast_nonneg n) (by simpa [Instr.parts] using h),
    Nat.zero_lt_one⟩

theorem mul (a b : Reg) : Statement (.mul a b) := fun _ =>
  ⟨rfl, record_fits_register rfl rfl, Nat.zero_lt_one⟩

theorem mulX (a b : Reg) : Statement (.mulX a b) := fun _ =>
  ⟨rfl, record_fits_register rfl rfl, Nat.zero_lt_one⟩

theorem umulX (a b : Reg) : Statement (.umulX a b) := fun _ =>
  ⟨rfl, record_fits_register rfl rfl, Nat.zero_lt_one⟩

theorem div (a b : Reg) : Statement (.div a b) := fun _ =>
  ⟨rfl, record_fits_register rfl rfl, Nat.zero_lt_one⟩

theorem udiv (a b : Reg) : Statement (.udiv a b) := fun _ =>
  ⟨rfl, record_fits_register rfl rfl, Nat.zero_lt_one⟩

theorem mod (a b : Reg) : Statement (.mod a b) := fun _ =>
  ⟨rfl, record_fits_register rfl rfl, Nat.zero_lt_one⟩

theorem umod (a b : Reg) : Statement (.umod a b) := fun _ =>
  ⟨rfl, record_fits_register rfl rfl, Nat.zero_lt_one⟩

theorem and (a b : Reg) : Statement (.and a b) := fun _ =>
  ⟨rfl, record_fits_register rfl rfl, Nat.zero_lt_one⟩

theorem or (a b : Reg) : Statement (.or a b) := fun _ =>
  ⟨rfl, record_fits_register rfl rfl, Nat.zero_lt_one⟩

theorem xor (a b : Reg) : Statement (.xor a b) := fun _ =>
  ⟨rfl, record_fits_register rfl rfl, Nat.zero_lt_one⟩

theorem not (a b : Reg) : Statement (.not a b) := fun _ =>
  ⟨rfl, record_fits_register rfl rfl, Nat.zero_lt_one⟩

theorem ashl (a b : Reg) : Statement (.ashl a b) := fun _ =>
  ⟨rfl, record_fits_register rfl rfl, Nat.zero_lt_one⟩

theorem ashr (a b : Reg) : Statement (.ashr a b) := fun _ =>
  ⟨rfl, record_fits_register rfl rfl, Nat.zero_lt_one⟩

theorem lshr (a b : Reg) : Statement (.lshr a b) := fun _ =>
  ⟨rfl, record_fits_register rfl rfl, Nat.zero_lt_one⟩

theorem sexB (a b : Reg) : Statement (.sexB a b) := fun _ =>
  ⟨rfl, record_fits_register rfl rfl, Nat.zero_lt_one⟩

theorem sexS (a b : Reg) : Statement (.sexS a b) := fun _ =>
  ⟨rfl, record_fits_register rfl rfl, Nat.zero_lt_one⟩

theorem zexB (a b : Reg) : Statement (.zexB a b) := fun _ =>
  ⟨rfl, record_fits_register rfl rfl, Nat.zero_lt_one⟩

theorem zexS (a b : Reg) : Statement (.zexS a b) := fun _ =>
  ⟨rfl, record_fits_register rfl rfl, Nat.zero_lt_one⟩

theorem cmp (a b : Reg) : Statement (.cmp a b) := fun _ =>
  ⟨rfl, record_fits_register rfl rfl, Nat.zero_lt_one⟩

theorem beq (d : Int) : Statement (.beq d) := fun h =>
  have h : -512 ≤ d ∧ d ≤ 511 := by simpa [Instr.wellFormed, dispFits] using h
  ⟨rfl, record_fits_branch rfl rfl rfl h.1 h.2, Nat.zero_lt_one⟩

theorem bne (d : Int) : Statement (.bne d) := fun h =>
  have h : -512 ≤ d ∧ d ≤ 511 := by simpa [Instr.wellFormed, dispFits] using h
  ⟨rfl, record_fits_branch rfl rfl rfl h.1 h.2, Nat.zero_lt_one⟩

theorem bge (d : Int) : Statement (.bge d) := fun h =>
  have h : -512 ≤ d ∧ d ≤ 511 := by simpa [Instr.wellFormed, dispFits] using h
  ⟨rfl, record_fits_branch rfl rfl rfl h.1 h.2, Nat.zero_lt_one⟩

theorem bgt (d : Int) : Statement (.bgt d) := fun h =>
  have h : -512 ≤ d ∧ d ≤ 511 := by simpa [Instr.wellFormed, dispFits] using h
  ⟨rfl, record_fits_branch rfl rfl rfl h.1 h.2, Nat.zero_lt_one⟩

theorem ble (d : Int) : Statement (.ble d) := fun h =>
  have h : -512 ≤ d ∧ d ≤ 511 := by simpa [Instr.wellFormed, dispFits] using h
  ⟨rfl, record_fits_branch rfl rfl rfl h.1 h.2, Nat.zero_lt_one⟩

theorem blt (d : Int) : Statement (.blt d) := fun h =>
  have h : -512 ≤ d ∧ d ≤ 511 := by simpa [Instr.wellFormed, dispFits] using h
  ⟨rfl, record_fits_branch rfl rfl rfl h.1 h.2, Nat.zero_lt_one⟩

theorem bgeu (d : Int) : Statement (.bgeu d) := fun h =>
  have h : -512 ≤ d ∧ d ≤ 511 := by simpa [Instr.wellFormed, dispFits] using h
  ⟨rfl, record_fits_branch rfl rfl rfl h.1 h.2, Nat.zero_lt_one⟩

theorem bgtu (d : Int) : Statement (.bgtu d) := fun h =>
  have h : -512 ≤ d ∧ d ≤ 511 := by simpa [Instr.wellFormed, dispFits] using h
  ⟨rfl, record_fits_branch rfl rfl rfl h.1 h.2, Nat.zero_lt_one⟩

theorem bleu (d : Int) : Statement (.bleu d) := fun h =>
  have h : -512 ≤ d ∧ d ≤ 511 := by simpa [Instr.wellFormed, dispFits] using h
  ⟨rfl, record_fits_branch rfl rfl rfl h.1 h.2, Nat.zero_lt_one⟩

theorem bltu (d : Int) : Statement (.bltu d) := fun h =>
  have h : -512 ≤ d ∧ d ≤ 511 := by simpa [Instr.wellFormed, dispFits] using h
  ⟨rfl, record_fits_branch rfl rfl rfl h.1 h.2, Nat.zero_lt_one⟩

theorem jmp (a : Reg) : Statement (.jmp a) := fun _ =>
  ⟨rfl, record_fits_register rfl rfl, Nat.zero_lt_one⟩

theorem jmpa (v : Word) : Statement (.jmpa v) := fun _ =>
  ⟨rfl, record_fits_register rfl rfl, v.isLt⟩

theorem jsr (a : Reg) : Statement (.jsr a) := fun _ =>
  ⟨rfl, record_fits_register rfl rfl, Nat.zero_lt_one⟩

theorem jsra (v : Word) : Statement (.jsra v) := fun _ =>
  ⟨rfl, record_fits_register rfl rfl, v.isLt⟩

theorem ret : Statement (.ret) := fun _ =>
  ⟨rfl, record_fits_register rfl rfl, Nat.zero_lt_one⟩

theorem push (a b : Reg) : Statement (.push a b) := fun _ =>
  ⟨rfl, record_fits_register rfl rfl, Nat.zero_lt_one⟩

theorem pop (a b : Reg) : Statement (.pop a b) := fun _ =>
  ⟨rfl, record_fits_register rfl rfl, Nat.zero_lt_one⟩

theorem ldB (a b : Reg) : Statement (.ldB a b) := fun _ =>
  ⟨rfl, record_fits_register rfl rfl, Nat.zero_lt_one⟩

theorem ldS (a b : Reg) : Statement (.ldS a b) := fun _ =>
  ⟨rfl, record_fits_register rfl rfl, Nat.zero_lt_one⟩

theorem ldL (a b : Reg) : Statement (.ldL a b) := fun _ =>
  ⟨rfl, record_fits_register rfl rfl, Nat.zero_lt_one⟩

theorem stB (a b : Reg) : Statement (.stB a b) := fun _ =>
  ⟨rfl, record_fits_register rfl rfl, Nat.zero_lt_one⟩

theorem stS (a b : Reg) : Statement (.stS a b) := fun _ =>
  ⟨rfl, record_fits_register rfl rfl, Nat.zero_lt_one⟩

theorem stL (a b : Reg) : Statement (.stL a b) := fun _ =>
  ⟨rfl, record_fits_register rfl rfl, Nat.zero_lt_one⟩

theorem ldaB (a : Reg) (v : Word) : Statement (.ldaB a v) := fun _ =>
  ⟨rfl, record_fits_register rfl rfl, v.isLt⟩

theorem ldaS (a : Reg) (v : Word) : Statement (.ldaS a v) := fun _ =>
  ⟨rfl, record_fits_register rfl rfl, v.isLt⟩

theorem ldaL (a : Reg) (v : Word) : Statement (.ldaL a v) := fun _ =>
  ⟨rfl, record_fits_register rfl rfl, v.isLt⟩

theorem staB (a : Reg) (v : Word) : Statement (.staB a v) := fun _ =>
  ⟨rfl, record_fits_register rfl rfl, v.isLt⟩

theorem staS (a : Reg) (v : Word) : Statement (.staS a v) := fun _ =>
  ⟨rfl, record_fits_register rfl rfl, v.isLt⟩

theorem staL (a : Reg) (v : Word) : Statement (.staL a v) := fun _ =>
  ⟨rfl, record_fits_register rfl rfl, v.isLt⟩

theorem ldoB (a b : Reg) (o : Int) : Statement (.ldoB a b o) := fun h =>
  ⟨congrArg (Instr.ldoB a b) (offset_roundtrip h).1, record_fits_register rfl rfl,
    (offset_roundtrip h).2⟩

theorem ldoS (a b : Reg) (o : Int) : Statement (.ldoS a b o) := fun h =>
  ⟨congrArg (Instr.ldoS a b) (offset_roundtrip h).1, record_fits_register rfl rfl,
    (offset_roundtrip h).2⟩

theorem ldoL (a b : Reg) (o : Int) : Statement (.ldoL a b o) := fun h =>
  ⟨congrArg (Instr.ldoL a b) (offset_roundtrip h).1, record_fits_register rfl rfl,
    (offset_roundtrip h).2⟩

theorem stoB (a b : Reg) (o : Int) : Statement (.stoB a b o) := fun h =>
  ⟨congrArg (Instr.stoB a b) (offset_roundtrip h).1, record_fits_register rfl rfl,
    (offset_roundtrip h).2⟩

theorem stoS (a b : Reg) (o : Int) : Statement (.stoS a b o) := fun h =>
  ⟨congrArg (Instr.stoS a b) (offset_roundtrip h).1, record_fits_register rfl rfl,
    (offset_roundtrip h).2⟩

theorem stoL (a b : Reg) (o : Int) : Statement (.stoL a b o) := fun h =>
  ⟨congrArg (Instr.stoL a b) (offset_roundtrip h).1, record_fits_register rfl rfl,
    (offset_roundtrip h).2⟩

theorem ldiL (a : Reg) (v : Word) : Statement (.ldiL a v) := fun _ =>
  ⟨rfl, record_fits_register rfl rfl, v.isLt⟩

theorem ldiB (a : Reg) (v : Word) : Statement (.ldiB a v) := fun _ =>
  ⟨rfl, record_fits_register rfl rfl, v.isLt⟩

theorem ldiS (a : Reg) (v : Word) : Statement (.ldiS a v) := fun _ =>
  ⟨rfl, record_fits_register rfl rfl, v.isLt⟩

theorem mov (a b : Reg) : Statement (.mov a b) := fun _ =>
  ⟨rfl, record_fits_register rfl rfl, Nat.zero_lt_one⟩

theorem gsr (a : Reg) (n : Nat) : Statement (.gsr a n) := fun h =>
  have h : n ≤ 255 := by simpa [Instr.wellFormed, immFits] using h
  ⟨rfl, record_fits_short rfl rfl (Int.natCast_nonneg n) (by simpa [Instr.parts] using h),
    Nat.zero_lt_one⟩

theorem ssr (a : Reg) (n : Nat) : Statement (.ssr a n) := fun h =>
  have h : n ≤ 255 := by simpa [Instr.wellFormed, immFits] using h
  ⟨rfl, record_fits_short rfl rfl (Int.natCast_nonneg n) (by simpa [Instr.parts] using h),
    Nat.zero_lt_one⟩

theorem swi (v : Word) : Statement (.swi v) := fun _ =>
  ⟨rfl, record_fits_register rfl rfl, v.isLt⟩

theorem brk : Statement (.brk) := fun _ =>
  ⟨rfl, record_fits_register rfl rfl, Nat.zero_lt_one⟩

theorem nop : Statement (.nop) := fun _ =>
  ⟨rfl, record_fits_register rfl rfl, Nat.zero_lt_one⟩

end Sys2Proof.Laws.Rebuild
end

