-- ==== Sys2Proof/Tests/Slice0.lean ====
section
/-! SUPPORT. The model's own tests. Expected values come from the test vectors of
spec/95_test_vectors.md (named V with its section, or S for the source's worked examples) and from the
tables of spec/30_encoding.md; and one witness for the hypotheses of every statement that has some. -/

namespace Sys2Proof.Tests

set_option Elab.async false

open Sys2Proof.Machine

/-! ### Well-formedness refuses what no encoding holds -/

theorem test_wellFormed_displacement :
    (Instr.beq 512).wellFormed = false ∧ (Instr.bne (-513)).wellFormed = false ∧
    (Instr.bge 512).wellFormed = false ∧ (Instr.bgt (-513)).wellFormed = false ∧
    (Instr.ble 512).wellFormed = false ∧ (Instr.blt (-513)).wellFormed = false ∧
    (Instr.bgeu 512).wellFormed = false ∧ (Instr.bgtu (-513)).wellFormed = false ∧
    (Instr.bleu 512).wellFormed = false ∧ (Instr.bltu (-513)).wellFormed = false ∧
    (Instr.beq 511).wellFormed = true ∧ (Instr.beq (-512)).wellFormed = true := by decide

theorem test_wellFormed_immediate :
    (Instr.inc 2 256).wellFormed = false ∧ (Instr.dec 2 256).wellFormed = false ∧
    (Instr.gsr 2 256).wellFormed = false ∧ (Instr.ssr 2 256).wellFormed = false ∧
    (Instr.inc 2 255).wellFormed = true := by decide

theorem test_wellFormed_offset :
    (Instr.ldoB 2 3 32768).wellFormed = false ∧ (Instr.ldoS 2 3 (-32769)).wellFormed = false ∧
    (Instr.ldoL 2 3 32768).wellFormed = false ∧ (Instr.stoB 2 3 (-32769)).wellFormed = false ∧
    (Instr.stoS 2 3 32768).wellFormed = false ∧ (Instr.stoL 2 3 (-32769)).wellFormed = false ∧
    (Instr.stoL 2 3 32767).wellFormed = true ∧ (Instr.ldoB 2 3 (-32768)).wellFormed = true := by
  decide

/-! ### Decoding: one word of every opcode, written out from spec/30_encoding.md R101 to R109 -/

theorem test_decode_arithmetic :
    decodeTableWord 16 0x0523 = some (.add 2 3) ∧
    decodeTableWord 16 0x2923 = some (.sub 2 3) ∧
    decodeTableWord 16 0x2A23 = some (.neg 2 3) ∧
    decodeTableWord 16 0x8AF1 = some (.inc 10 0xF1) ∧
    decodeTableWord 16 0x9AF1 = some (.dec 10 0xF1) ∧
    decodeTableWord 16 0x2F23 = some (.mul 2 3) ∧
    decodeTableWord 16 0x1523 = some (.mulX 2 3) ∧
    decodeTableWord 16 0x1423 = some (.umulX 2 3) ∧
    decodeTableWord 16 0x3123 = some (.div 2 3) ∧
    decodeTableWord 16 0x3223 = some (.udiv 2 3) ∧
    decodeTableWord 16 0x3323 = some (.mod 2 3) ∧
    decodeTableWord 16 0x3423 = some (.umod 2 3) := by
  decide +kernel

theorem test_decode_logic :
    decodeTableWord 16 0x2623 = some (.and 2 3) ∧
    decodeTableWord 16 0x2B23 = some (.or 2 3) ∧
    decodeTableWord 16 0x2E23 = some (.xor 2 3) ∧
    decodeTableWord 16 0x2C23 = some (.not 2 3) ∧
    decodeTableWord 16 0x2823 = some (.ashl 2 3) ∧
    decodeTableWord 16 0x2D23 = some (.ashr 2 3) ∧
    decodeTableWord 16 0x2723 = some (.lshr 2 3) ∧
    decodeTableWord 16 0x1023 = some (.sexB 2 3) ∧
    decodeTableWord 16 0x1123 = some (.sexS 2 3) ∧
    decodeTableWord 16 0x1223 = some (.zexB 2 3) ∧
    decodeTableWord 16 0x1323 = some (.zexS 2 3) := by
  decide +kernel

theorem test_decode_branch :
    decodeTableWord 16 0x0E23 = some (.cmp 2 3) ∧
    decodeTableWord 16 0xC3FC = some (.beq (-4)) ∧
    decodeTableWord 16 0xC7FC = some (.bne (-4)) ∧
    decodeTableWord 16 0xDBFC = some (.bge (-4)) ∧
    decodeTableWord 16 0xCFFC = some (.bgt (-4)) ∧
    decodeTableWord 16 0xDFFC = some (.ble (-4)) ∧
    decodeTableWord 16 0xCBFC = some (.blt (-4)) ∧
    decodeTableWord 16 0xE3FC = some (.bgeu (-4)) ∧
    decodeTableWord 16 0xD7FC = some (.bgtu (-4)) ∧
    decodeTableWord 16 0xE7FC = some (.bleu (-4)) ∧
    decodeTableWord 16 0xD3FC = some (.bltu (-4)) := by
  decide +kernel

theorem test_decode_jump :
    decodeTableWord 16 0x2523 = some (.jmp 2) ∧
    decodeTableWord 48 0x8001FFFE1A23 = some (.jmpa 0x8001FFFE#32) ∧
    decodeTableWord 16 0x1923 = some (.jsr 2) ∧
    decodeTableWord 48 0x8001FFFE0323 = some (.jsra 0x8001FFFE#32) ∧
    decodeTableWord 16 0x0423 = some .ret := by
  decide +kernel

theorem test_decode_stack :
    decodeTableWord 16 0x0623 = some (.push 2 3) ∧
    decodeTableWord 16 0x0723 = some (.pop 2 3) := by
  decide +kernel

theorem test_decode_loadStore :
    decodeTableWord 16 0x1C23 = some (.ldB 2 3) ∧
    decodeTableWord 16 0x2123 = some (.ldS 2 3) ∧
    decodeTableWord 16 0x0A23 = some (.ldL 2 3) ∧
    decodeTableWord 16 0x1E23 = some (.stB 2 3) ∧
    decodeTableWord 16 0x2323 = some (.stS 2 3) ∧
    decodeTableWord 16 0x0B23 = some (.stL 2 3) ∧
    decodeTableWord 48 0x8001FFFE1D23 = some (.ldaB 2 0x8001FFFE#32) ∧
    decodeTableWord 48 0x8001FFFE2223 = some (.ldaS 2 0x8001FFFE#32) ∧
    decodeTableWord 48 0x8001FFFE0823 = some (.ldaL 2 0x8001FFFE#32) ∧
    decodeTableWord 48 0x8001FFFE1F23 = some (.staB 2 0x8001FFFE#32) ∧
    decodeTableWord 48 0x8001FFFE2423 = some (.staS 2 0x8001FFFE#32) ∧
    decodeTableWord 48 0x8001FFFE0923 = some (.staL 2 0x8001FFFE#32) ∧
    decodeTableWord 32 0x80013623 = some (.ldoB 2 3 (-32767)) ∧
    decodeTableWord 32 0x80013823 = some (.ldoS 2 3 (-32767)) ∧
    decodeTableWord 32 0x80010C23 = some (.ldoL 2 3 (-32767)) ∧
    decodeTableWord 32 0x80013723 = some (.stoB 2 3 (-32767)) ∧
    decodeTableWord 32 0x80013923 = some (.stoS 2 3 (-32767)) ∧
    decodeTableWord 32 0x80010D23 = some (.stoL 2 3 (-32767)) := by
  decide +kernel

theorem test_decode_immediate :
    decodeTableWord 48 0x8001FFFE0123 = some (.ldiL 2 0x8001FFFE#32) ∧
    decodeTableWord 48 0x8001FFFE1B23 = some (.ldiB 2 0x8001FFFE#32) ∧
    decodeTableWord 48 0x8001FFFE2023 = some (.ldiS 2 0x8001FFFE#32) ∧
    decodeTableWord 16 0x0223 = some (.mov 2 3) := by
  decide +kernel

theorem test_decode_system :
    decodeTableWord 16 0xAAF1 = some (.gsr 10 0xF1) ∧
    decodeTableWord 16 0xBAF1 = some (.ssr 10 0xF1) ∧
    decodeTableWord 48 0x8001FFFE3023 = some (.swi 0x8001FFFE#32) ∧
    decodeTableWord 16 0x3523 = some .brk ∧
    decodeTableWord 16 0x0F23 = some .nop := by
  decide +kernel

/-- S1, S2, S3: the worked examples of the three formats. -/
theorem test_decode_source_examples :
    decodeTableWord 16 0xC1FF = some (.beq 511) ∧ decodeTableWord 16 0xC200 = some (.beq (-512)) ∧
    decodeTableWord 16 0xC3FF = some (.beq (-1)) ∧ decodeTableWord 16 0x8F00 = some (.inc 15 0) ∧
    decodeTableWord 16 0x80FF = some (.inc 0 255) ∧ decodeTableWord 16 0x05F0 = some (.add 15 0) ∧
    decodeTableWord 16 0x050F = some (.add 0 15) := by decide +kernel

/-- V2.8: illegal words, and the bits an opcode does not use are ignored. -/
theorem test_decode_illegal_and_unused :
    decodeTableWord 16 0x0000 = none ∧ decodeTableWord 16 0x1600 = none ∧
    decodeTableWord 16 0x3A00 = none ∧ decodeTableWord 16 0x4000 = none ∧
    decodeTableWord 16 0x7FFF = none ∧ decodeTableWord 16 0xE800 = none ∧
    decodeTableWord 16 0xFFFF = none ∧ decodeTableWord 16 0x0FAB = some .nop := by decide +kernel

/-- In big-endian order the high byte of each word comes first (spec/20_memory.md R61). -/
theorem test_decode_big_endian :
    decode OpcodeMap.standard .big [0x01#8, 0x20#8, 0x12#8, 0x34#8, 0x56#8, 0x78#8, 0x99#8] =
      .ok (.ldiL 2 0x12345678#32, [0x99#8]) := by decide +kernel

theorem test_decode_truncated :
    decode OpcodeMap.standard .little [0x20#8, 0x01#8, 0x12#8, 0x34#8, 0x56#8] =
      .error .truncated := by decide +kernel

/-! ### One step on a small machine -/

/-- The parameters of the vectors: 4 KiB of memory, physical. -/
def small : Config := { Config.standard with memSize := 0x1000 }

/-- The machine with `$r0` and `$r1` set. -/
def vec (a b : Word) : State := ((State.initial small []).setX 2 a).setX 3 b

/-- The state after stepping the instruction whose words are `w`, the first in the low bits. -/
def after (s : State) (w : Nat) : Option State := nextState (step (s.withFetchWord 48 w))

/-- `$r0` after the instruction. -/
def r0 (w : Nat) (a b : Word) : Option Word := (after (vec a b) w).map (·.x 2)

/-- The instruction faults with this kind, `$r0` unchanged and nothing counted. -/
def faults (s : State) (w : Nat) (k : FaultKind) : Bool :=
  match after s w with
  | some t => t.result == some (.faulted k) && t.x 2 == s.x 2 && t.icount == 0#64 &&
      t.run == .running
  | none => false

/-- Four bytes put at an address, lowest first. -/
def put (s : State) (a : Nat) (v : Word) : State := s.setMem (s.mem.store .little a .long v)

/-- The long at an address. -/
def long (t : State) (a : Nat) : Word := t.mem.load .little a .long

/-- V2.1. -/
theorem test_add :
    r0 0x0523 0xFFFFFFFF#32 0x1#32 = some 0x0#32 ∧
    r0 0x0523 0x7FFFFFFF#32 0x1#32 = some 0x80000000#32 := by decide +kernel

/-- V2.1. -/
theorem test_sub :
    r0 0x2923 0x0#32 0x1#32 = some 0xFFFFFFFF#32 ∧
    r0 0x2923 0x80000000#32 0x1#32 = some 0x7FFFFFFF#32 := by decide +kernel

/-- V2.1. -/
theorem test_neg :
    r0 0x2A23 0x9#32 0x80000000#32 = some 0x80000000#32 ∧
    r0 0x2A23 0x9#32 0x1#32 = some 0xFFFFFFFF#32 := by decide +kernel

/-- V2.1. -/
theorem test_mul :
    r0 0x2F23 0x10000#32 0x10000#32 = some 0x0#32 ∧
    r0 0x2F23 0xFFFFFFFF#32 0xFFFFFFFF#32 = some 0x1#32 := by decide +kernel

/-- V2.1. -/
theorem test_mulX :
    r0 0x1523 0xFFFFFFFF#32 0x1#32 = some 0xFFFFFFFF#32 ∧
    r0 0x1523 0x80000000#32 0x80000000#32 = some 0x40000000#32 := by decide +kernel

/-- V2.1. -/
theorem test_umulX :
    r0 0x1423 0xFFFFFFFF#32 0xFFFFFFFF#32 = some 0xFFFFFFFE#32 ∧
    r0 0x1423 0x80000000#32 0x2#32 = some 0x1#32 := by decide +kernel

/-- V2.1. -/
theorem test_div :
    r0 0x3123 0x7#32 0xFFFFFFFE#32 = some 0xFFFFFFFD#32 ∧
    r0 0x3123 0x80000000#32 0xFFFFFFFF#32 = some 0x80000000#32 := by decide +kernel

/-- V2.1. -/
theorem test_udiv :
    r0 0x3223 0xFFFFFFFF#32 0x2#32 = some 0x7FFFFFFF#32 := by decide +kernel

/-- V2.1. -/
theorem test_mod :
    r0 0x3323 0xFFFFFFF9#32 0x2#32 = some 0xFFFFFFFF#32 := by decide +kernel

/-- V2.1. -/
theorem test_umod :
    r0 0x3423 0xFFFFFFFF#32 0xA#32 = some 0x5#32 := by decide +kernel

/-- V2.1. -/
theorem test_inc :
    r0 0x8201 0xFFFFFFFF#32 0x0#32 = some 0x0#32 := by decide +kernel

/-- V2.1. -/
theorem test_inc_unsigned :
    r0 0x82FF 0x1#32 0x0#32 = some 0x100#32 := by decide +kernel

/-- V2.1. -/
theorem test_dec :
    r0 0x92FF 0x0#32 0x0#32 = some 0xFFFFFF01#32 := by decide +kernel

/-- V2.1, S9. -/
theorem test_division_faults :
    faults (vec 5 0) 0x3123 .divisionByZero = true ∧
    faults (vec 5 0) 0x3223 .divisionByZero = true ∧
    faults (vec 5 0) 0x3323 .divisionByZero = true ∧
    faults (vec 5 0) 0x3423 .divisionByZero = true ∧
    faults (vec 0x80000000 0xFFFFFFFF) 0x3323 .remainderOverflow = true := by decide +kernel

/-- V2.2. -/
theorem test_and :
    r0 0x2623 0xF0F0F0F0#32 0xFF00FF00#32 = some 0xF000F000#32 := by decide +kernel

/-- V2.2. -/
theorem test_or :
    r0 0x2B23 0xF0F0F0F0#32 0xF000000#32 = some 0xFFF0F0F0#32 := by decide +kernel

/-- V2.2. -/
theorem test_xor :
    r0 0x2E23 0xFFFF0000#32 0xFF00FF0#32 = some 0xF00F0FF0#32 := by decide +kernel

/-- V2.2. -/
theorem test_not :
    r0 0x2C23 0x5#32 0xFFFF#32 = some 0xFFFF0000#32 := by decide +kernel

/-- V2.2. -/
theorem test_ashl :
    r0 0x2823 0x1#32 0x1F#32 = some 0x80000000#32 ∧
    r0 0x2823 0x3#32 0x4#32 = some 0x30#32 := by decide +kernel

/-- V2.2. -/
theorem test_ashr :
    r0 0x2D23 0x80000000#32 0x1F#32 = some 0xFFFFFFFF#32 ∧
    r0 0x2D23 0xFFFFFFF0#32 0x2#32 = some 0xFFFFFFFC#32 := by decide +kernel

/-- V2.2. -/
theorem test_lshr :
    r0 0x2723 0x80000000#32 0x1F#32 = some 0x1#32 ∧
    r0 0x2723 0xFFFFFFF0#32 0x4#32 = some 0xFFFFFFF#32 := by decide +kernel

/-- V2.2. -/
theorem test_sexB :
    r0 0x1023 0x0#32 0x12345680#32 = some 0xFFFFFF80#32 ∧
    r0 0x1023 0x0#32 0x7F#32 = some 0x7F#32 := by decide +kernel

/-- V2.2. -/
theorem test_sexS :
    r0 0x1123 0x0#32 0x18000#32 = some 0xFFFF8000#32 := by decide +kernel

/-- V2.2. -/
theorem test_zexB :
    r0 0x1223 0x0#32 0xFFFFFF80#32 = some 0x80#32 := by decide +kernel

/-- V2.2. -/
theorem test_zexS :
    r0 0x1323 0x0#32 0x12348000#32 = some 0x8000#32 := by decide +kernel

/-- V2.2. -/
theorem test_shift_faults :
    faults (vec 1 32) 0x2823 .shiftAmountOutOfRange = true ∧
    faults (vec 1 32) 0x2D23 .shiftAmountOutOfRange = true ∧
    faults (vec 1 0xFFFFFFFF) 0x2723 .shiftAmountOutOfRange = true := by decide +kernel

/-- V2.2, under SHIFT_OVERSIZE = mask5. -/
theorem test_shift_mask5 :
    let s := { vec 1 32 with cfg := { small with shiftOversize := .mask5 } }
    (after s 0x2823).map (·.x 2) = some 1 ∧
    (after (s.setX 3 0xFFFFFFFF) 0x2723).map (·.x 2) = some 0 := by decide +kernel

/-- V2.3: signed and unsigned disagree. -/
theorem test_cmp :
    (after (vec 0xFFFFFFFF 1) 0x0E23).map (·.cs) = some ⟨.less, .greater⟩ ∧
    (after (vec 0x80000000 0x7FFFFFFF) 0x0E23).map (·.cs) = some ⟨.less, .greater⟩ ∧
    (after (vec 5 5) 0x0E23).map (·.cs) = some ⟨.equal, .equal⟩ ∧
    (after (vec 0 0xFFFFFFFF) 0x0E23).map (·.cs) = some ⟨.greater, .less⟩ := by decide +kernel

/-- Whether each branch, in V2.3's order of columns, is taken under a status: displacement 5 at IP 0. -/
def taken (c : CompareStatus) : List Bool :=
  [0x30, 0x31, 0x32, 0x33, 0x36, 0x37, 0x34, 0x35, 0x38, 0x39].map fun op =>
    (after ((vec 0 0).setCs c) (op * 1024 + 5)).map (·.ip) == some 6#31

/-- V2.3: the rows (0, 0) and (-1, -1) of the table. -/
theorem test_branches_taken_agree :
    taken ⟨.equal, .equal⟩ = [true, false, false, false, true, true, false, false, true, true] ∧
    taken ⟨.less, .less⟩ = [false, true, true, false, false, true, true, false, false, true] := by
  decide +kernel

/-- V2.3: the rows (-1, +1) and (+1, -1) of the table. -/
theorem test_branches_taken_differ :
    taken ⟨.less, .greater⟩ = [false, true, true, false, false, true, false, true, true, false] ∧
    taken ⟨.greater, .less⟩ = [false, true, false, true, true, false, true, false, false, true] := by
  decide +kernel

/-- V2.3: branch targets. -/
theorem test_branch_targets :
    (after { vec 0 0 with ip := 100 } 0xC00A).map (·.ip) = some 111#31 ∧
    (after ({ vec 0 0 with ip := 100 }.setCs ⟨.less, .less⟩) 0xC7FC).map (·.ip) = some 97#31 ∧
    (after { vec 0 0 with ip := 5 } 0xC3FF).map (·.ip) = some 5#31 ∧
    faults (vec 0 0) 0xC3FE .ipOutOfRange = true := by decide +kernel

/-- V2.4's start: SP = FP = 0xFFC, `$r3` set. -/
def call (ip : BitVec 31) (r3 : Word) : State :=
  { ((vec 0 0).setX fp 0xFFC).setX sp 0xFFC with ip := ip }.setX 5 r3

theorem test_jmp :
    (after (call 7 0x100) 0x2550).map (·.ip) = some 0x80#31 ∧
    faults (call 7 0x101) 0x2550 .jumpToUnalignedAddress = true := by decide +kernel

theorem test_jmpa :
    (after (call 0 0) 0x101A00).map (·.ip) = some 8#31 ∧
    faults (call 0 0) 0x211A00 .jumpToUnalignedAddress = true := by decide +kernel

theorem test_jsr :
    (after (call 10 0x40) 0x1950).map (fun t =>
      [long t 0xFF8, long t 0xFF4, long t 0xFF0, t.x sp, t.x fp]) =
        some [0, 11, 0xFFC, 0xFF0, 0xFF0] ∧
    (after (call 10 0x40) 0x1950).map (·.ip) = some 0x20#31 := by decide +kernel

theorem test_jsr_odd_target :
    (after (call 10 0x41) 0x1950).map (fun t => [long t 0xFF4, t.x sp, t.x fp]) =
      some [11, 0xFF0, 0xFF0] ∧
    faults (call 10 0x41) 0x1950 .jumpToUnalignedAddress = true := by decide +kernel

theorem test_jsra :
    (after (call 3 0) 0x140300).map (fun t => [long t 0xFF4, t.x sp, t.x fp]) =
      some [6, 0xFF0, 0xFF0] ∧
    (after (call 3 0) 0x140300).map (·.ip) = some 10#31 := by decide +kernel

/-- V2.4: a frame at 0xFF0. -/
def frame (ret : Word) : State := put (put ((call 0 0).setX fp 0xFF0) 0xFF0 0xFFC) 0xFF4 ret

theorem test_ret :
    (after (frame 11) 0x0400).map (fun t => [t.x sp, t.x fp]) = some [0xFFC, 0xFFC] ∧
    (after (frame 11) 0x0400).map (·.ip) = some 11#31 ∧
    (after (frame 0x80000000) 0x0400).map (fun t => [t.x sp, t.x fp]) = some [0xFFC, 0xFFC] ∧
    faults (frame 0x80000000) 0x0400 .ipOutOfRange = true := by decide +kernel

theorem test_ret_second_pop_faults :
    (after (put (call 0 0) 0xFFC 0x777) 0x0400).map (fun t => [t.x sp, t.x fp]) =
      some [0x1000, 0x777] ∧
    faults (put (call 0 0) 0xFFC 0x777) 0x0400 .memoryOutOfRange = true := by decide +kernel

/-- V2.5: the source is the old value, also of the pointer itself; a failed store leaves the pointer
decremented. -/
theorem test_push :
    (after ((vec 0x1234 0).setX sp 0x800) 0x0612).map (fun t => [t.x sp, long t 0x7FC]) =
      some [0x7FC, 0x1234] ∧
    (after ((vec 0 0).setX sp 0x1000) 0x0611).map (fun t => [t.x sp, long t 0xFFC]) =
      some [0xFFC, 0x1000] ∧
    (after ((vec 0 0).setX sp 2) 0x0612).map (·.x sp) = some 0xFFFFFFFE ∧
    faults ((vec 0 0).setX sp 2) 0x0612 .memoryOutOfRange = true := by decide +kernel

theorem test_pop :
    (after (put ((vec 0 0).setX sp 0xFEC) 0xFEC 0x1234) 0x0714).map (fun t => [t.x 4, t.x sp]) =
      some [0x1234, 0xFF0] ∧
    (after (put ((vec 0 0).setX sp 0xFF0) 0xFF0 0x1234) 0x0711).map (·.x sp) = some 0xFF4 ∧
    faults ((vec 0 0).setX sp 0xFFE) 0x0712 .memoryOutOfRange = true := by decide +kernel

/-- V2.6: M[0x100..0x107] = 80 FF 34 12 78 56 00 00. -/
def data (a b : Word) : State := put (put (vec a b) 0x100 0x1234FF80) 0x104 0x5678

/-- `$r0` after a load. -/
def loaded (w : Nat) (b : Word) : Option Word := (after (data 0x99 b) w).map (·.x 2)

/-- A byte or a long after a store. -/
def stored (w : Nat) (a b : Word) (at_ : Nat) : Option Word :=
  (after (data a b) w).map (fun t => long t at_)

/-- V2.6. -/
theorem test_ldB :
    loaded 0x1C23 0x100 = some 0x80 := by decide +kernel

/-- V2.6. -/
theorem test_ldS :
    loaded 0x2123 0x100 = some 0xFF80 ∧
    loaded 0x2123 0x101 = some 0x34FF := by decide +kernel

/-- V2.6. -/
theorem test_ldL :
    loaded 0x0A23 0x103 = some 0x567812 ∧
    faults (data 7 0xFFD) 0x0A23 .memoryOutOfRange = true := by decide +kernel

/-- V2.6. -/
theorem test_ldaB :
    loaded 0x1001D20 0 = some 0x80 := by decide +kernel

/-- V2.6. -/
theorem test_ldaS :
    loaded 0x1022220 0 = some 0x1234 := by decide +kernel

/-- V2.6. -/
theorem test_ldaL :
    loaded 0x1040820 0 = some 0x5678 := by decide +kernel

/-- V2.6. -/
theorem test_ldoB :
    loaded 0xFFFF3623 0x101 = some 0x80 := by decide +kernel

/-- V2.6. -/
theorem test_ldoS :
    loaded 0x00023823 0x100 = some 0x1234 := by decide +kernel

/-- V2.6. -/
theorem test_ldoL :
    loaded 0x00040C23 0x100 = some 0x5678 ∧
    faults (data 7 0) 0xFFFC0C23 .memoryOutOfRange = true := by decide +kernel

/-- V2.6. -/
theorem test_stB :
    stored 0x1E23 0x200 0xABCD 0x200 = some 0xCD := by decide +kernel

/-- V2.6. -/
theorem test_stS :
    stored 0x2323 0x200 0x12345678 0x200 = some 0x5678 := by decide +kernel

/-- V2.6. -/
theorem test_stL :
    stored 0x0B23 0x303 0x12345678 0x303 = some 0x12345678 := by decide +kernel

/-- V2.6. -/
theorem test_staB :
    stored 0x3001F20 0x1FF 0 0x300 = some 0xFF := by decide +kernel

/-- V2.6. -/
theorem test_staS :
    stored 0x3002420 0xBEEF 0 0x300 = some 0xBEEF := by decide +kernel

/-- V2.6. -/
theorem test_staL :
    stored 0x3000920 0xDEADBEEF 0 0x300 = some 0xDEADBEEF := by decide +kernel

/-- V2.6. -/
theorem test_stoB :
    stored 0x00103723 0x200 0x41 0x210 = some 0x41 := by decide +kernel

/-- V2.6. -/
theorem test_stoS :
    stored 0xFFFE3923 0x200 0x0102 0x1FE = some 0x0102 := by decide +kernel

/-- V2.6. -/
theorem test_stoL :
    stored 0x00080D23 0xFF0 0xDEADBEEF 0xFF8 = some 0xDEADBEEF ∧
    faults (data 0xFFFFFFFF 0) 0x7FFF0D23 .memoryOutOfRange = true := by decide +kernel

/-- V2.7. -/
theorem test_ldiL :
    r0 0x123456780120 0 0 = some 0x12345678 ∧
    faults { vec 7 0 with ip := 0x7FE } 0x0120 .memoryOutOfRange = true := by decide +kernel

/-- V2.7. -/
theorem test_ldiB : r0 0x123456F01B20 0 0 = some 0xF0 := by decide +kernel

/-- V2.7. -/
theorem test_ldiS : r0 0xFFFF80002020 0 0 = some 0x8000 := by decide +kernel

/-- V2.7. -/
theorem test_mov :
    (after (vec 0 0xDEADBEEF) 0x0223).map (fun t => [t.x 2, t.x 3]) =
      some [0xDEADBEEF, 0xDEADBEEF] := by decide +kernel

/-- V2.8. -/
theorem test_gsr :
    (after ((vec 0 0).setSr 9 7) 0xA209).map (·.x 2) = some 7 ∧
    faults (vec 5 0) 0xA20A .specialRegisterIndexInvalid = true := by decide +kernel

/-- V2.8. -/
theorem test_ssr :
    (after (vec 0 7) 0xB309).map (·.sr 9) = some 7 ∧ (after (vec 0 5) 0xB306).map (·.sr 6) = some 5 ∧
    faults (vec 5 0) 0xB2FF .specialRegisterIndexInvalid = true := by decide +kernel

/-- V2.8. -/
theorem test_swi :
    (after (vec 0 0) 0x53000).map (·.sr 3) = some 5 ∧
    faults (vec 0 0) 0x53000 .softwareInterrupt = true := by decide +kernel

/-- V2.8. -/
theorem test_brk :
    (after (vec 0 0) 0x3500).map (fun t => (t.run, t.result, t.icount)) =
      some (.halted, some .halted, 1#64) := by decide +kernel

/-- V2.8. -/
theorem test_nop :
    (after { vec 0 0 with ip := 4 } 0x0FAB).map (fun t => (t.ip, t.icount)) =
      some (5#31, 1#64) := by decide +kernel

/-- V2.8: no extension word is read for an illegal word, so one at the very end of memory is illegal and
not out of range. -/
theorem test_illegal :
    faults { vec 0 0 with ip := 0x7FF } 0x1600 .illegalOpcode = true ∧
    faults (vec 0 0) 0xE800 .illegalOpcode = true := by decide +kernel

/-! ### Translation: V2.9 -/

/-- V2.9's setup, with the page-table entries of T1, T3, T5, T7, T8 and T9. -/
def paged : State :=
  let s := State.initial { small with memSize := 0x10000, mode := .paged, pdBase := 0x8000 } []
  let s := put (put s 0x8000 0x9003) 0x9004 0x3003
  put (put (put (put s 0x9008 0x4001) 0x9010 0x10001) 0x9014 0xFC01) 0x9018 0x2C03

/-- The state after T1. -/
def pagedFilled : State := paged.fillTlb 1 ⟨1, 0x3003⟩

/-- T1 and T2: the miss fills, then the hit is used and changes nothing. -/
theorem test_translate_miss_and_hit :
    paged.translate 0x1234 .read = .ok 0x3234 pagedFilled ∧
    pagedFilled.translate 0x1234 .write = .ok 0x3234 pagedFilled := by decide +kernel

/-- T3: the write check comes after the fill. -/
theorem test_translate_read_only :
    paged.translate 0x2000 .write = .raise .pageReadOnly (paged.fillTlb 2 ⟨2, 0x4001⟩) := by
  decide +kernel

/-- T5, T6, T7: the three faults of a walk leave the TLB alone. -/
theorem test_translate_walk_faults :
    paged.translate 0x3000 .read = .raise .pageNotPresent paged ∧
    paged.translate 0x400000 .read = .raise .pageDirectoryEntryNotPresent paged ∧
    paged.translate 0x4000 .read = .raise .physicalAddressOutOfRange paged := by decide +kernel

/-- T8, T9, T10: the recheck, the mask's sum, and one translation for a whole access. -/
theorem test_translate_targets :
    paged.memRead 0x5FFE .long = .raise .memoryOutOfRange (paged.fillTlb 5 ⟨5, 0xFC01⟩) ∧
    paged.translate 0x6500 .read = .ok 0x3100 (paged.fillTlb 6 ⟨6, 0x2C03⟩) ∧
    pagedFilled.target 0x1FFE .read = .ok 0x3FFE pagedFilled := by decide +kernel

/-- T11: a stale entry still hits. T13: after a flush the walk sees the edited table. -/
theorem test_translate_stale :
    (put pagedFilled 0x9004 0).translate 0x1234 .read = .ok 0x3234 (put pagedFilled 0x9004 0) ∧
    (put pagedFilled 0x9004 0).flushTlb.translate 0x1234 .read =
      .raise .pageNotPresent (put pagedFilled 0x9004 0).flushTlb := by decide +kernel

/-! ### Memory and the host's acts -/

/-- Writing the byte an unlisted address reads as removes its entry. -/
theorem test_memory_canonical :
    Memory.write (Memory.write [] 5 7#8) 5 0#8 = [] ∧
    Memory.write [(3, 1#8), (9, 2#8)] 5 7#8 = [(3, 1#8), (5, 7#8), (9, 2#8)] ∧
    (Memory.write [(3, 1#8), (9, 2#8)] 3 7#8).wf := by decide

/-- S4: overlapping accesses of several widths. -/
theorem test_memory_widths :
    (Memory.store (Memory.store [] .little 3 .long 0x12345678) .little 5 .short 0xBEEF).load .little 3
      .long = 0xBEEF5678 ∧
    (Memory.store [] .big 3 .long 0x12345678).read 3 = 0x12#8 := by decide +kernel

/-- S5: the bounds of physical accesses. -/
theorem test_memory_bounds :
    (vec 0 0).physRead 0xFFC .long = .ok 0 (vec 0 0) ∧
    (vec 0 0).physRead 0xFFD .long = .raise .memoryOutOfRange (vec 0 0) ∧
    (vec 0 0).physRead 0xFFE .short = .ok 0 (vec 0 0) ∧
    (vec 0 0).physRead 0xFFF .short = .raise .memoryOutOfRange (vec 0 0) ∧
    (vec 0 0).physRead 0xFFFFFFFF .long = .raise .memoryOutOfRange (vec 0 0) := by decide +kernel

/-- The entry of `execute` on P1's machine (spec/70_reset_and_hazards.md R362). -/
theorem test_enter :
    ((vec 0 0).enter 0x10).x sp = 0xFFC ∧ ((vec 0 0).enter 0x10).x fp = 0xFFC ∧
    ((vec 0 0).enter 0x10).ip = 8#31 ∧
    ((vec 0 0).enter 0x11).result = some (.faulted .jumpToUnalignedAddress) := by decide +kernel

/-- The textual form of spec/30_encoding.md R116. -/
theorem test_assembler :
    Machine.Instr.asm (.ldoL 3 0 4) = "ldo.l $r1, 4($fp)" ∧
    Machine.Instr.asm (.push 1 2) = "push $sp, $r0" := by
  decide +kernel


/-- Does the answer have a next state? -/
def isNext (o : StepResult) : Bool := (nextState o).isSome

/-- The next state of an answer that has one. -/
def nextOf (o : StepResult) : State := (nextState o).getD State.reset

theorem eq_next {o : StepResult} (h : isNext o = true) : o = .next (nextOf o) := by
  cases o with
  | next s => rfl
  | fault f => exact absurd h (by simp [isNext, nextState])
  | refused r => exact absurd h (by simp [isNext, nextState])

/-! ### Witnesses: for every statement with hypotheses, data that meet them, clause by clause -/

/-- The word-index range: an instruction of 1, 2 or 3 words completes at IP 0, and at the last word the
next IP is out of range. -/
theorem witness_wordIndexRange :
    (vec 0 0).ip.toNat + 3 < 2 ^ 31 ∧
    2 ^ 31 ≤ ({ vec 0 0 with ip := 0x7FFFFFFF#31 }).ip.toNat + 1 ∧
    ({ vec 0 0 with ip := 0x7FFFFFFE#31 }).ip.toNat + 1 < 2 ^ 31 := by decide +kernel

theorem witness_EncodedInstructionsDecodeToThemselves :
    OpcodeMap.standard.Lawful ∧ (Instr.bleu (-512)).wellFormed = true ∧
    (Instr.stoL 15 0 32767).wellFormed = true ∧ (Instr.ssr 15 255).wellFormed = true :=
  ⟨OpcodeMap.standard_lawful, by decide⟩

theorem witness_DecodedInstructionsAreWellFormedAndExact :
    decode OpcodeMap.standard .little [0x23#8, 0x05#8, 0xFF#8] = .ok (.add 2 3, [0xFF#8]) := by
  decide +kernel

/-- Words at the edges of the three formats. -/
theorem witness_EveryWordSplitsIntoItsFields :
    0xC000 ≤ (0xC000#16).toNat ∧ 0xC000 ≤ (0xFFFF#16).toNat ∧
    0x8000 ≤ (0x8000#16).toNat ∧ (0xBFFF#16).toNat < 0xC000 ∧ (0x7FFF#16).toNat < 0x8000 := by
  decide

theorem witness_UnusedBitsNeverMakeAWordIllegal :
    OpcodeMap.standard.Lawful ∧
    (0x0FAB#16).toNat / 2 ^ 8 = OpcodeMap.standard.valueOf .nop ∧
    (0x8FFF#16).toNat / 2 ^ 12 = OpcodeMap.standard.valueOf .inc ∧
    (0xE7FF#16).toNat / 2 ^ 10 = OpcodeMap.standard.valueOf .bleu :=
  ⟨OpcodeMap.standard_lawful, by decide +kernel⟩

/-- Both results of MOD_OVERFLOW, and divisors next to the excluded pair. -/
theorem witness_DivisionAndRemainder :
    (vec 5 0).x 3 = 0#32 ∧ (vec 5 1).x 3 ≠ 0#32 ∧
    ((vec 0x80000000 0xFFFFFFFF).x 2 = 0x80000000#32 ∧
      (vec 0x80000000 0xFFFFFFFF).x 3 = 0xFFFFFFFF#32) ∧
    small.modOverflow = .fault ∧ ({ small with modOverflow := .zero }).modOverflow = .zero ∧
    ¬ ((vec 0x80000000 1).x 2 = 0x80000000#32 ∧ (vec 0x80000000 1).x 3 = 0xFFFFFFFF#32) := by
  decide +kernel

/-- Amounts 31, 32 masked and 32 faulting. -/
theorem witness_ShiftsByTheAmountInB :
    ((vec 1 31).x 3).toNat < 32 ∧ 32 ≤ ((vec 1 32).x 3).toNat ∧
    ({ small with shiftOversize := .mask5 }).shiftOversize = .mask5 ∧
    small.shiftOversize = .fault := by decide +kernel

/-- The three orders, signed and unsigned. -/
theorem witness_CompareWritesBothScalars :
    s32 ((vec 0x80000000 0).x 2) < s32 ((vec 0x80000000 0).x 3) ∧
    s32 ((vec 5 5).x 2) = s32 ((vec 5 5).x 3) ∧
    s32 ((vec 0 0xFFFFFFFF).x 2) > s32 ((vec 0 0xFFFFFFFF).x 3) ∧
    ((vec 0 0xFFFFFFFF).x 2).toNat < ((vec 0 0xFFFFFFFF).x 3).toNat ∧
    ((vec 5 5).x 2).toNat = ((vec 5 5).x 3).toNat ∧
    ((vec 0x80000000 0).x 2).toNat > ((vec 0x80000000 0).x 3).toNat := by decide +kernel

/-- Targets of branches in and out of range: the displacement -2 at IP 0, and 0 at the last word but
one. -/
theorem witness_BranchesTestTheirScalar :
    (vec 0 0).cs.signed = .equal ∧ (vec 0 0).cs.unsigned = .equal ∧
    (((vec 0 0).ip.toNat : Int) + 1 + (-2) < 0) ∧
    (let s : State := { vec 0 0 with ip := 0x7FFFFFFE#31 };
      0 ≤ (s.ip.toNat : Int) + 1 + 0 ∧ (s.ip.toNat : Int) + 1 + 0 < 2 ^ 31 ∧
      2 ^ 31 ≤ (s.ip.toNat : Int) + 1 + 1) := by decide +kernel

theorem witness_BranchAfterCompareFollowsTheRelation :
    exec (.cmp 2 3) (vec 1 2) = .next (nextOf (exec (.cmp 2 3) (vec 1 2))) ∧
    (vec 1 2).ip.toNat + 1 < 2 ^ 31 := ⟨eq_next (by decide +kernel), by decide +kernel⟩

/-- Targets 0 and 0xFFFFFFFE are even, 0xFFFFFFFF odd. -/
theorem witness_JumpsReachEvenTargets :
    ((vec 0xFFFFFFFE 0).x 2).toNat % 2 = 0 ∧ ((vec 0xFFFFFFFF 0).x 2).toNat % 2 = 1 ∧
    (0#32).toNat % 2 = 0 ∧ (1#32).toNat % 2 = 1 := by decide +kernel

/-- SP at the last place a push and a pop fit, and one past it. -/
theorem witness_InternalPushAndPop :
    (((call 0 0).setX sp 4).setX sp 0).target 0 .write =
      .ok 0 (((call 0 0).setX sp 4).setX sp 0) ∧
    0 + 4 ≤ (call 0 0).cfg.memSize ∧
    ((call 0 0).setX sp 0xFFD).memWrite 0xFFD .long 7 =
      .raise .memoryOutOfRange ((call 0 0).setX sp 0xFFD) ∧
    (call 0 0).target 0xFFC .read = .ok 0xFFC (call 0 0) ∧ 0xFFC + 4 ≤ (call 0 0).cfg.memSize ∧
    ((call 0 0).setX sp 0xFFD).memRead 0xFFD .long =
      .raise .memoryOutOfRange ((call 0 0).setX sp 0xFFD) := by decide +kernel

/-- The value an operation gave, with the state it left. -/
def okState {α : Type} (r : Res α) (d : State) : State :=
  match r with
  | .ok _ s => s
  | .raise _ _ => d

/-- Did the operation raise this? -/
def raises {α : Type} (r : Res α) (k : FaultKind) : Bool :=
  match r with
  | .ok _ _ => false
  | .raise j _ => j == k

/-- `call` after the three pushes of a Jsr. -/
def pushed1 (s : State) : State := okState (s.push32 0#32) s
def pushed2 (s : State) : State := okState ((pushed1 s).push32 (BitVec.ofNat 32 (s.ip.toNat + 1))) s
def pushed3 (s : State) : State := okState ((pushed2 s).push32 (s.x fp)) s

/-- The three pushes go through from SP = 0xFFC and from SP = 12. -/
theorem witness_CallsPushTheirFrame :
    (∀ s ∈ [call 10 0x40, (call 10 0x41).setX sp 12],
      s.push32 0#32 = .ok () (pushed1 s) ∧
      (pushed1 s).push32 (BitVec.ofNat 32 (s.ip.toNat + 1)) = .ok () (pushed2 s) ∧
      (pushed2 s).push32 (s.x fp) = .ok () (pushed3 s)) ∧
    ((call 10 0x40).x 5).toNat % 2 = 0 ∧ ((call 10 0x41).x 5).toNat % 2 = 1 := by decide +kernel

/-- The first, second or third push faults from SP = 0, 4 or 8. -/
theorem witness_FaultingCallsKeepEarlierPushes :
    raises (((call 10 0).setX sp 0).push32 0#32) .memoryOutOfRange = true ∧
    (let s := (call 10 0).setX sp 4;
      s.push32 0#32 = .ok () (pushed1 s) ∧
      raises ((pushed1 s).push32 (BitVec.ofNat 32 (s.ip.toNat + 1))) .memoryOutOfRange = true) ∧
    (let s := (call 10 0).setX sp 8;
      s.push32 0#32 = .ok () (pushed1 s) ∧
      (pushed1 s).push32 (BitVec.ofNat 32 (s.ip.toNat + 1)) = .ok () (pushed2 s) ∧
      raises ((pushed2 s).push32 (s.x fp)) .memoryOutOfRange = true) := by decide +kernel

/-- SP = 12 and SP = 0x1000: the lowest and the highest frame; both targets. -/
theorem witness_CallFrameInPhysicalMemory :
    (call 10 0).cfg.mode = .physical ∧ ((call 10 0).setX sp 12).x sp = 12#32 ∧
    ((call 10 0).setX sp 0x1000).x sp = 0x1000#32 ∧
    (∀ k ∈ ([1, 2, 3] : List Nat), (u32 (((12#32).toNat : Int) - 4 * k)).toNat + 4 ≤ small.memSize ∧
      (u32 (((0x1000#32).toNat : Int) - 4 * k)).toNat + 4 ≤ small.memSize) ∧
    ((call 10 0x40).x 5).toNat % 2 = 0 ∧ ((call 10 0x41).x 5).toNat % 2 = 1 := by decide +kernel

/-- `frame` after its first two pops. -/
def popped1 (s : State) : State := okState (s.setX sp (s.x fp)).pop32 s
def popped2 (s : State) : State := okState ((popped1 s).setX fp 0xFFC).pop32 s
def popped3 (s : State) : State := okState (popped2 s).pop32 s

/-- The frame's three pops go through with this return IP. -/
def PopsGoThrough (r : Word) : Prop :=
  ((frame r).setX sp ((frame r).x fp)).pop32 = .ok 0xFFC (popped1 (frame r)) ∧
  ((popped1 (frame r)).setX fp 0xFFC).pop32 = .ok r (popped2 (frame r)) ∧
  (popped2 (frame r)).pop32 = .ok 0 (popped3 (frame r))

/-- The return IP at each side of 2^31. -/
theorem witness_ReturnPopsTheFrame :
    PopsGoThrough 0x7FFFFFFF#32 ∧ PopsGoThrough 0x80000000#32 := by
  unfold PopsGoThrough
  decide +kernel

/-- The first, second or third pop faults from FP = 0xFFD, 0xFFC or 0xFF8. -/
theorem witness_FaultingReturnsKeepEarlierPops :
    (let s := (call 0 0).setX fp 0xFFD;
      raises (s.setX sp (s.x fp)).pop32 .memoryOutOfRange = true) ∧
    (let s := put ((call 0 0).setX fp 0xFFC) 0xFFC 0xFFC;
      (s.setX sp (s.x fp)).pop32 = .ok 0xFFC (popped1 s) ∧
      raises ((popped1 s).setX fp 0xFFC).pop32 .memoryOutOfRange = true) ∧
    (let s := put (put ((call 0 0).setX fp 0xFF8) 0xFF8 0xFFC) 0xFFC 5;
      (s.setX sp (s.x fp)).pop32 = .ok 0xFFC (popped1 s) ∧
      ((popped1 s).setX fp 0xFFC).pop32 = .ok 5 (popped2 s) ∧
      raises (popped2 s).pop32 .memoryOutOfRange = true) := by decide +kernel

/-- The state after a call, from which the callee returns at once. -/
def called : State := nextOf (exec (.jsr 5) (call 10 0x40))

theorem witness_ReturnRestoresTheCaller :
    (call 10 0x40).cfg.mode = .physical ∧ exec (.jsr 5) (call 10 0x40) = .next called ∧
    (call 10 0x40).ip.toNat + 1 < 2 ^ 31 ∧
    (∀ k ∈ [1, 2, 3],
      (u32 (((call 10 0x40).x sp).toNat - 4 * (k : Int))).toNat + 4 ≤ small.memSize) ∧
    called.cfg = (call 10 0x40).cfg ∧ called.x fp = called.x fp :=
  ⟨by decide +kernel, eq_next (by decide +kernel), by decide +kernel, by decide +kernel,
    by decide +kernel, rfl⟩

/-- A push whose store fits, at its lowest address, and one that wraps below 0. -/
theorem witness_PushStoresBelowItsPointer :
    (let s := ((vec 7 0).setX sp 4).setX sp 0;
      s.target 0 .write = .ok 0 s ∧ 0 + 4 ≤ s.cfg.memSize) ∧
    (let s := (vec 7 0).setX sp 0xFFFFFFFE;
      s.memWrite 0xFFFFFFFE .long 7 = .raise .memoryOutOfRange s) := by decide +kernel

/-- A pop at the last long of memory, and one past it. -/
theorem witness_PopLoadsAtItsPointer :
    (vec 0 0).target 0xFFC .read = .ok 0xFFC (vec 0 0) ∧ 0xFFC + 4 ≤ (vec 0 0).cfg.memSize ∧
    (vec 0 0).memRead 0xFFD .long = .raise .memoryOutOfRange (vec 0 0) := by decide +kernel

/-- SP = 4: the push stores at address 0. -/
theorem witness_PopUndoesPush :
    (let s := (vec 7 0).setX sp 4;
      s.cfg.mode = .physical ∧ (3 : Reg) ≠ sp ∧ s.ip.toNat + 2 < 2 ^ 31 ∧
      (u32 ((s.x sp).toNat - 4)).toNat + 4 ≤ s.cfg.memSize) ∧
    exec (.push sp 2) ((vec 7 0).setX sp 4) = .next (nextOf (exec (.push sp 2) ((vec 7 0).setX sp 4))) :=
  ⟨by decide +kernel, eq_next (by decide +kernel)⟩

/-- A load and a store at the last place they fit, in both modes, and where they do not. -/
theorem witness_LoadsAndStores :
    (vec 0 0).target 0xFFF .read = .ok 0xFFF (vec 0 0) ∧ 0xFFF + 1 ≤ (vec 0 0).cfg.memSize ∧
    (vec 0 0).memRead 0xFFF .short = .raise .memoryOutOfRange (vec 0 0) ∧
    paged.target 0x1234 .write = .ok 0x3234 pagedFilled ∧ 0x3234 + 4 ≤ paged.cfg.memSize ∧
    (vec 0 0).memWrite 0xFFD .long 7 = .raise .memoryOutOfRange (vec 0 0) ∧
    paged.memWrite 0x2000 .byte 7 = .raise .pageReadOnly (paged.fillTlb 2 ⟨2, 0x4001⟩) := by
  decide +kernel

/-- A register+offset sum at each end of the 32 bits. -/
theorem witness_LoadsReadTheirAddress_offset :
    ((0 : Nat) : Int) = ((vec 0 4).x 3).toNat + (-4) ∧
    ((0xFFFFFFFF : Nat) : Int) = ((vec 0 0xFFFFFFFE).x 3).toNat + 1 ∧ 0xFFFFFFFF < 2 ^ 32 := by
  decide +kernel

/-- The sums -1 and 2^32. -/
theorem witness_OffsetSumOutside32BitsFaults :
    (((vec 0 3).x 3).toNat : Int) + (-4) < 0 ∧
    2 ^ 32 ≤ (((vec 0 0xFFFFFFFF).x 3).toNat : Int) + 1 ∧
    (((vec 3 0).x 2).toNat : Int) + (-4) < 0 ∧
    2 ^ 32 ≤ (((vec 0xFFFFFFFF 0).x 2).toNat : Int) + 1 := by decide +kernel

theorem witness_PhysicalAccessesAreBounded :
    small.memSize < 0xFFD + Width.long.bytes ∧ 0xFFC + Width.long.bytes ≤ small.memSize := by decide

theorem witness_WidthsShareOneByteArray :
    (vec 0 0).physWrite 3 .long 0x12345678 = .ok () (put (vec 0 0) 3 0x12345678) := by
  decide +kernel

theorem witness_SpecialRegistersArePlainStorage : 10 ≤ 10 ∧ (9 : Fin 10).val = 9 := by decide

/-- A state about to run `ldi.l $r0, 0x12345678` at the last place it fits. -/
def ready3 : State := { vec 0 0 with ip := 0x7FD#31 }.withFetchWord 48 0x123456780120

theorem witness_StepRunsTheDecodedInstruction :
    ready3.run = .running ∧ ready3.result = none ∧ ready3.cfg.mode = .physical ∧
    ready3.fetchAddress + 6 ≤ ready3.cfg.memSize ∧
    decode ready3.cfg.opcodeMap ready3.cfg.endian (ready3.mem.readBytes ready3.fetchAddress 6) =
      .ok (.ldiL 2 0x12345678#32, []) := by decide +kernel

/-- One state for each kind of extension, and one whose extension is out of range. -/
theorem witness_StepFetchesThroughTheAccessor :
    (∀ p ∈ [((vec 0 0).withFetchWord 48 0x0523, 0x0523#32, Opcode.add),
        (ready3, 0x0120#32, Opcode.ldiL),
        ((vec 0 0).withFetchWord 48 0x00040C23, 0x0C23#32, Opcode.ldoL),
        ({ vec 0 0 with ip := 0x7FE#31 }.withFetchWord 48 0x0120, 0x0120#32, Opcode.ldiL)],
      p.1.run = .running ∧ p.1.result = none ∧
      p.1.memRead (2 * p.1.ip.toNat) .short = .ok p.2.1 p.1 ∧
      p.1.cfg.opcodeMap.find (decodeRecord (p.2.1.setWidth 16)).format
        (decodeRecord (p.2.1.setWidth 16)).field = some p.2.2) ∧
    Opcode.add.ext = none ∧ Opcode.ldiL.ext = some .long ∧ Opcode.ldoL.ext = some .short ∧
    ready3.memRead (2 * (ready3.ip.toNat + 1)) .long = .ok 0x12345678 ready3 ∧
    (let s := (vec 0 0).withFetchWord 48 0x00040C23;
      s.memRead 2 .short = .ok 4 s) ∧
    (let s : State := { vec 0 0 with ip := 0x7FE#31 }.withFetchWord 48 0x0120;
      s.memRead (2 * (s.ip.toNat + 1)) .long = .raise .memoryOutOfRange s) := by decide +kernel

theorem witness_IllegalWordsFaultAtDispatch :
    (let s := (vec 0 0).withFetchWord 16 0x1600;
      s.run = .running ∧ s.result = none ∧ s.memRead (2 * s.ip.toNat) .short = .ok 0x1600 s ∧
      s.cfg.opcodeMap.find (decodeRecord ((0x1600#32).setWidth 16)).format
        (decodeRecord ((0x1600#32).setWidth 16)).field = none) := by decide +kernel

/-- The first fetch past the end of memory, and one from a page that is not present. -/
theorem witness_FetchFaultsEndTheRun :
    (let s : State := { vec 0 0 with ip := 0x800#31 };
      s.run = .running ∧ s.result = none ∧
      s.memRead (2 * s.ip.toNat) .short = .raise .memoryOutOfRange s) ∧
    (let s : State := { paged with ip := 0x1800#31 };
      s.memRead (2 * s.ip.toNat) .short = .raise .pageNotPresent s) := by decide +kernel

theorem witness_NoStepAfterTheRunHasEnded :
    (vec 0 0).halt.run = .halted ∧ (0xFFFFFFFE#32).toNat % 2 = 0 ∧
    (let s := (vec 0 0).takeFault .divisionByZero;
      s.run = .running ∧ s.result = some (.faulted .divisionByZero)) ∧
    (vec 0 0).run = .running ∧ (vec 0 0).result = none := by decide +kernel

/-- A hit, writable and not. -/
theorem witness_TlbHitsUseTheCachedEntry :
    (pagedFilled.slot (((0x1234#32).toNat / 2 ^ 12) % 1024)).tag.toNat = (0x1234#32).toNat / 2 ^ 12 ∧
    (pagedFilled.slot 1).pte.getLsbD pagedFilled.cfg.pteRw = true ∧
    ((paged.fillTlb 2 ⟨2, 0x4001⟩).slot 2).pte.getLsbD paged.cfg.pteRw = false := by decide +kernel

theorem witness_HitsResolveToTheCachedEntry :
    (let cached := pagedFilled.slot (((0x1234#32).toNat / 2 ^ 12) % 1024);
      cached.tag.toNat = (0x1234#32).toNat / 2 ^ 12 ∧ cached.pte ≠ 0#32) := by decide +kernel

/-- The long a walk reads, as the statement writes it. -/
def word (s : State) (a : Nat) : Word := BitVec.ofNat 32 (assembled s a 4)

/-- Every clause of the walk: both tables out of range, not present and present, a frame at MEM_SIZE and
below it, a page writable and not. -/
theorem witness_TlbMissesWalkTheTables :
    (paged.slot (((0x1234#32).toNat / 2 ^ 12) % 1024)).tag.toNat ≠ (0x1234#32).toNat / 2 ^ 12 ∧
    (let c : Config := { paged.cfg with pdBase := 0xFFFD };
      c.memSize < c.pdBase.toNat + (0x1234#32).toNat / 2 ^ 22 * 4 + 4) ∧
    paged.cfg.pdBase.toNat + (0x1234#32).toNat / 2 ^ 22 * 4 + 4 ≤ paged.cfg.memSize ∧
    (word paged (0x8000 + (0x400000#32).toNat / 2 ^ 22 * 4)).getLsbD paged.cfg.pteP = false ∧
    (word paged 0x8000).getLsbD paged.cfg.pteP = true ∧
    (let s := put paged 0x8000 0x10001;
      s.cfg.memSize < (word s 0x8000 &&& s.cfg.frameMask).toNat +
        ((0x1234#32).toNat / 2 ^ 12) % 1024 * 4 + 4) ∧
    (word paged 0x8000 &&& paged.cfg.frameMask).toNat + 4 + 4 ≤ paged.cfg.memSize ∧
    (word paged 0x900C).getLsbD paged.cfg.pteP = false ∧
    (word paged 0x9004).getLsbD paged.cfg.pteP = true ∧
    paged.cfg.memSize ≤ (word paged 0x9010 &&& paged.cfg.frameMask).toNat ∧
    (word paged 0x9004 &&& paged.cfg.frameMask).toNat < paged.cfg.memSize ∧
    (word paged 0x9008).getLsbD paged.cfg.pteRw = false ∧
    (word paged 0x9004).getLsbD paged.cfg.pteRw = true := by decide +kernel

theorem witness_AccessorFollowsTheMode :
    (vec 0 0).cfg.mode = .physical ∧ paged.cfg.mode = .paged ∧ 0xFFFFFFFF < 2 ^ 32 ∧
    2 ^ 32 ≤ 0x100000000 ∧
    paged.translate (BitVec.ofNat 32 0x1234) .read = .ok 0x3234 pagedFilled ∧
    paged.translate (BitVec.ofNat 32 0x1234) .write = .ok 0x3234 pagedFilled ∧
    paged.translate (BitVec.ofNat 32 0x3000) .read = .raise .pageNotPresent paged ∧
    paged.translate (BitVec.ofNat 32 0x3000) .write = .raise .pageNotPresent paged := by
  decide +kernel

/-- A paged machine that fetches `add $r0, $r1` at V = 0x1000: the step fills TLB[1]. -/
def pagedAdd : State := { paged with ip := 0x800#31 }.withFetchWord 16 0x0523

/-- A step with a next state that fills a slot; it meets the premises of the statements about every
step. -/
theorem witness_NoStepInvalidatesATlbSlot :
    step pagedAdd = .next (nextOf (step pagedAdd)) ∧ pagedAdd.slot 1 = TlbEntry.empty ∧
    (nextOf (step pagedAdd)).slot 1 = ⟨1, 0x3003⟩ :=
  ⟨eq_next (by decide +kernel), by decide +kernel⟩

/-- Its memory and TLB are in canonical form and the rest of the invariant holds. -/
theorem witness_EveryStepKeepsTheMachineInvariant : pagedAdd.Inv where
  legal := by decide +kernel
  memWf := by decide +kernel
  memInside := by decide +kernel
  tlbWf := by decide +kernel
  tlbFilled := by decide +kernel
  tlbPaged := by decide +kernel
  haltedReturned := by decide +kernel
  traceOff := by decide +kernel

theorem witness_ConstructedMachinesMeetTheInvariant :
    State.construct small [(5, 7#8), (0x2000, 1#8)] = some (State.initial small [(5, 7#8)]) := by
  decide +kernel

theorem witness_ParametersNeverChange :
    step ready3 = .next (nextOf (step ready3)) := eq_next (by decide +kernel)

theorem witness_OnlyCompareWritesTheStatus :
    exec (.add 2 3) (vec 1 2) = .next (nextOf (exec (.add 2 3) (vec 1 2))) ∧
    (∀ a b, Instr.add 2 3 ≠ .cmp a b) := ⟨eq_next (by decide +kernel), by intro a b h; cases h⟩

/-- Ssr and Swi each change a special register. -/
theorem witness_OnlySsrAndSwiWriteSpecialRegisters :
    (nextOf (exec (.ssr 2 9) (vec 7 0))).sr 9 ≠ (vec 7 0).sr 9 ∧
    (nextOf (exec (.swi 5) (vec 7 0))).sr 3 ≠ (vec 7 0).sr 3 := by decide +kernel

theorem witness_OnlyStoresPushesAndCallsWriteMemory :
    exec (.ldL 2 3) (vec 1 2) = .next (nextOf (exec (.ldL 2 3) (vec 1 2))) ∧
    (Instr.ldL 2 3).opcode ∉ ([.stB, .stS, .stL, .staB, .staS, .staL, .stoB, .stoS, .stoL, .push,
      .jsr, .jsra] : List Opcode) := ⟨eq_next (by decide +kernel), by decide +kernel⟩

/-- A step of each of the three outcomes. -/
theorem witness_CompletedInstructionsAreCounted :
    (after (vec 1 2) 0x0523).map (·.result) = some none ∧
    (after (vec 1 2) 0x3500).map (·.result) = some (some .halted) ∧
    (after (vec 1 0) 0x3123).map (·.result) = some (some (.faulted .divisionByZero)) := by
  decide +kernel

/-- With an observer, `ldi.l` leaves two calls in the trace. -/
theorem witness_TraceObserverChangesNothing :
    (after { vec 0 0 with cfg := { small with trace := true } } 0x123456780120).map (·.trace) =
      some [.instruction ⟨.register, 1, 2, 0, 0⟩ 0, .immediate32 0x12345678] := by decide +kernel

/-- Construction at each bound of MEM_SIZE and just outside it. -/
theorem witness_ConstructionState :
    (State.construct { small with memSize := 4 } []).isSome = true ∧
    (State.construct { small with memSize := 2 ^ 32 } []).isSome = true ∧
    State.construct { small with memSize := 2 } [] = none ∧
    State.construct { small with memSize := 2 ^ 32 + 2 } [] = none ∧
    State.construct { small with memSize := 5 } [] = none ∧
    Memory.wf [(5, 7#8)] ∧
    State.construct small [(5, 7#8)] = some (State.initial small [(5, 7#8)]) := by decide +kernel

/-- Even and odd starts, and both bounds of MEM_SIZE. -/
theorem witness_ExecuteEntrySetsOnlyItsRegisters :
    (vec 0 0).cfg.Legal ∧ ({ small with memSize := 4 }).Legal ∧ Config.standard.Legal ∧
    (0xFFFFFFFE#32).toNat % 2 = 0 ∧ (0xFFFFFFFF#32).toNat % 2 = 1 := by decide +kernel

/-- An odd offset, an odd length, bytes that just fit and bytes that do not. -/
theorem witness_CopyInWritesItsBytes :
    1 % 2 = 1 ∧ [7#8].length % 2 = 1 ∧ 0xFFE % 2 = 0 ∧ [1#8, 2#8].length % 2 = 0 ∧
    0xFFE + [1#8, 2#8].length ≤ small.memSize ∧ small.memSize < 0x1000 + [1#8, 2#8].length ∧
    (vec 0 0).copyIn 0xFFE [1#8, 2#8] = .done ((vec 0 0).setMem [(0xFFE, 1#8), (0xFFF, 2#8)]) := by
  decide +kernel

end Sys2Proof.Tests
end

section
/-! PROOF. The scope family: the two extensions as integers, Cmp's two scalars, the active accessor in
each mode, and the parameters a step keeps. -/

namespace Sys2Proof.Machine

/-! ### Sign and zero extension (spec/00_scope.md R9) -/

/-- The weight of the sign bit is taken off the low `n` bits. -/
theorem sext_eq_u32 {n : Nat} (hn : 0 < n) (v : Word) :
    sext n v = u32 ((v.toNat : Int) % 2 ^ n - if v.getLsbD (n - 1) then 2 ^ n else 0) := by
  have hmsb : (v.setWidth n).msb = v.getLsbD (n - 1) := by simp [BitVec.msb_setWidth, hn]
  rw [sext, BitVec.signExtend, u32, BitVec.toInt_eq_msb_cond, hmsb]
  cases v.getLsbD (n - 1) <;> simp

theorem zext_eq_ofNat (n : Nat) (v : Word) : zext n v = BitVec.ofNat 32 (v.toNat % 2 ^ n) :=
  BitVec.eq_of_toNat_eq (by simp [zext])

/-- An instruction that ends in writing a sign extension of `x[b]` writes R9's integer. -/
theorem writesRegister_of_sext {i : Instr} {s : State} {a b : Reg} (n : Nat) (hn : 0 < n)
    (h : exec i s = s.writeReg a (sext n (s.x b)) 1) :
    WritesRegister i s a
      (u32 (((s.x b).toNat : Int) % 2 ^ n - if (s.x b).getLsbD (n - 1) then 2 ^ n else 0)) 1 := by
  rw [← sext_eq_u32 hn]
  exact writesRegister_of_writeReg h

/-- An instruction that ends in writing a zero extension of `x[b]` writes R9's remainder. -/
theorem writesRegister_of_zext {i : Instr} {s : State} {a b : Reg} (n : Nat)
    (h : exec i s = s.writeReg a (zext n (s.x b)) 1) :
    WritesRegister i s a (BitVec.ofNat 32 ((s.x b).toNat % 2 ^ n)) 1 := by
  rw [← zext_eq_ofNat]
  exact writesRegister_of_writeReg h

/-- Settles O13: each of the four ends in writing an extension of `x[b]`, of 8 or 16 bits. -/
theorem extensionsOfTheLowBits : Obligations.ExtensionsOfTheLowBits := fun _ _ _ =>
  ⟨writesRegister_of_sext 8 (by decide) rfl, writesRegister_of_sext 16 (by decide) rfl,
    writesRegister_of_zext 8 rfl, writesRegister_of_zext 16 rfl⟩

/-! ### Compare (spec/43_compare_branch.md R210) -/

theorem cmp3_of_lt {a b : Int} (h : a < b) : cmp3 a b = .less := if_pos h

theorem cmp3_of_eq {a b : Int} (h : a = b) : cmp3 a b = .equal := by simp [cmp3, h]

theorem cmp3_of_gt {a b : Int} (h : a > b) : cmp3 a b = .greater := by
  rw [cmp3, if_neg (by omega), if_neg (by omega)]

/-- Completing after a write of the status leaves that status, and all else outside the IP, ICOUNT and
the end of the run as before, whether or not the next IP is in range. -/
theorem State.complete_setCs_frame (s : State) (c : CompareStatus) (n : Int) :
    ((s.setCs c).complete n).cs = c ∧ KeepsRegs s ((s.setCs c).complete n) [] ∧
      KeepsSpecials s ((s.setCs c).complete n) ∧ KeepsMemory s ((s.setCs c).complete n) ∧
      ((s.setCs c).complete n).tlb = s.tlb := by
  obtain ⟨hregs, hsregs, hcs, hmem, htlb, -⟩ := (s.setCs c).complete_fields n
  refine ⟨hcs, fun r _ => ?_, fun j => ?_, fun p => ?_, htlb⟩
  · rw [State.x, hregs]; rfl
  · rw [State.sr, hsregs]; rfl
  · rw [State.byte, hmem]; rfl

/-- Settles O14: Cmp completes after writing the status, whose two scalars `cmp3` gives. -/
theorem compareWritesBothScalars : Obligations.CompareWritesBothScalars := by
  intro s a b
  obtain ⟨hcs, hregs, hsregs, hmem, htlb⟩ :=
    s.complete_setCs_frame (compareStatus (s.x a) (s.x b)) (s.seqIp 1)
  obtain ⟨hin, hout⟩ := s.complete_seq (s.setCs (compareStatus (s.x a) (s.x b))) 1
  refine ⟨_, rfl, ?_⟩
  rw [hcs]
  refine ⟨cmp3_of_lt, cmp3_of_eq, cmp3_of_gt, fun h => cmp3_of_lt (by omega),
    fun h => cmp3_of_eq (by omega), fun h => cmp3_of_gt (by omega), hregs, hsregs, hmem, htlb,
    fun h => ?_, fun h => ?_⟩
  · obtain ⟨hadv, hip⟩ := hin h
    rw [hadv]
    exact ⟨⟨rfl, rfl, rfl, rfl, rfl⟩, hip, rfl⟩
  · rw [hout h]
    exact ⟨rfl, rfl, rfl, rfl, rfl⟩

/-! ### The active accessor (spec/20_memory.md R70) -/

theorem State.target_paged (s : State) {a : Nat} (k : AccessKind) (hm : s.cfg.mode = .paged)
    (ha : a < 2 ^ 32) : s.target a k = s.translate (BitVec.ofNat 32 a) k := by
  rw [State.target, hm]
  exact if_neg (by omega)

theorem State.target_paged_beyond (s : State) {a : Nat} (k : AccessKind)
    (hm : s.cfg.mode = .paged) (ha : 2 ^ 32 ≤ a) :
    s.target a k = .raise .memoryOutOfRange s := by
  rw [State.target, hm]
  exact if_pos ha

/-- Settles O45: the address the access goes to is the mode's, and the physical access follows it. -/
theorem accessorFollowsTheMode : Obligations.AccessorFollowsTheMode := by
  intro s a w v
  refine ⟨fun hm => ?_, fun hm ha => ?_, fun hm ha => ?_⟩
  · exact ⟨State.memRead_of_target w (s.target_physical a .read hm),
      State.memWrite_of_target w v (s.target_physical a .write hm)⟩
  · have hr := s.target_paged .read hm ha
    have hw := s.target_paged .write hm ha
    exact ⟨fun _ _ h => State.memRead_of_target w (hr.trans h),
      fun _ _ h => State.memWrite_of_target w v (hw.trans h),
      fun _ _ h => State.memRead_of_target_raise w (hr.trans h),
      fun _ _ h => State.memWrite_of_target_raise w v (hw.trans h)⟩
  · exact ⟨State.memRead_of_target_raise w (s.target_paged_beyond .read hm ha),
      State.memWrite_of_target_raise w v (s.target_paged_beyond .write hm ha)⟩

/-! ### The parameters (spec/10_state.md R47) -/

/-- Settles O49: a step is a sequence of micro-writes, and none of them writes the parameters. -/
theorem parametersNeverChange : Obligations.ParametersNeverChange :=
  fun _ _ h => (step_micros h).cfg_eq

end Sys2Proof.Machine
end

section
/-! PROOF. The state family: the invariant over the micro-writes, the TRACE observer erased from every
operation, the constructed state, and Brk. -/

namespace Sys2Proof.Machine

/-! ### The machine's invariant (spec/10_state.md R49) -/

/-- What a walk fills keeps the TLB's part of the invariant. -/
theorem Tlb.fill_filled {c : Config} {t : Tlb} {i : Nat} {e : TlbEntry}
    (he : TlbEntry.Filled c i e) (ht : ∀ p ∈ t, TlbEntry.Filled c p.1 p.2) :
    ∀ p ∈ t.fill i e, TlbEntry.Filled c p.1 p.2 := by
  intro p hp
  rcases t.fill_mem i e p hp with rfl | hp
  · exact he
  · exact ht p hp

/-- Each micro-write keeps the invariant: its guard is what the fields it writes need. -/
theorem Micro.inv {s t : State} (h : Micro s t) (hs : s.Inv) : t.Inv := by
  cases h with
  | setX _ _ | setSr _ _ | setCs _ | advance _ _ _ => exact { hs with }
  | store p w v fits =>
    exact { hs with
      memWf := s.mem.store_wf _ p w v hs.memWf
      memInside := s.mem.store_inside _ p w v _ hs.memInside fits }
  | fill i e paged filled =>
    exact { hs with
      tlbWf := s.tlb.fill_wf i e hs.tlbWf
      tlbFilled := Tlb.fill_filled filled hs.tlbFilled
      tlbPaged := fun physical => nomatch paged.symm.trans physical }
  | emit e =>
    have off : s.cfg.trace = false → (s.emit e).trace = [] := fun h => by simp [h, hs.traceOff h]
    exact { hs with traceOff := off }
  | takeFault _ | halt => exact { hs with haltedReturned := fun _ => Option.some_ne_none _ }

/-- Settles O47: a step is a sequence of micro-writes, and each of them keeps the invariant. -/
theorem everyStepKeepsTheMachineInvariant : Obligations.EveryStepKeepsTheMachineInvariant :=
  fun _ _ hs h => Micros.keeps (fun _ _ => Micro.inv) (step_micros h) hs

/-! ### The TRACE observer (spec/10_state.md R48)

An operation is blind to the observer when it commutes with `State.untraced`. The lemmas follow the
operations' own structure: `andThen`, a choice by `if`, and `finish`. -/

@[simp] theorem State.untraced_run (s : State) : s.untraced.run = s.run := rfl
@[simp] theorem State.untraced_result (s : State) : s.untraced.result = s.result := rfl
@[simp] theorem State.untraced_opcodeMap (s : State) :
    s.untraced.cfg.opcodeMap = s.cfg.opcodeMap := rfl
@[simp] theorem State.untraced_fetchAddress (s : State) :
    s.untraced.fetchAddress = s.fetchAddress := rfl

/-- The same result, in the machine without the observer. -/
def Res.untraced {α : Type} : Res α → Res α
  | .ok a s => .ok a s.untraced
  | .raise k s => .raise k s.untraced

/-- The same answer, from the machine without the observer. -/
def answerUntraced : StepResult → StepResult
  | .next s => .next s.untraced
  | .fault r => .fault r
  | .refused r => .refused r

theorem Res.andThen_untraced {α β : Type} {r r' : Res α} {f f' : α → State → Res β}
    (hr : r' = r.untraced) (hf : ∀ a s, f' a s.untraced = (f a s).untraced) :
    r'.andThen f' = (r.andThen f).untraced := by
  subst hr
  cases r with
  | ok a s => exact hf a s
  | raise k s => rfl

theorem Res.ite_untraced {α : Type} {c : Prop} [Decidable c] {r r' q q' : Res α}
    (hr : r' = r.untraced) (hq : q' = q.untraced) :
    (if c then r' else q') = (if c then r else q).untraced := by
  rw [hr, hq, apply_ite Res.untraced]

theorem State.complete_untraced (s : State) (n : Int) :
    s.untraced.complete n = (s.complete n).untraced :=
  (apply_ite State.untraced (0 ≤ n ∧ n < 2 ^ 31) (s.advance n) (s.takeFault .ipOutOfRange)).symm

theorem finish_untraced {r r' : Res Int} (h : r' = r.untraced) :
    finish r' = answerUntraced (finish r) := by
  subst h
  cases r with
  | ok n s => exact congrArg Host.Outcome.next (s.complete_untraced n)
  | raise k s => rfl

/-- A TRACE call leaves nothing that the machine without the observer holds. -/
theorem State.emit_untraced (s : State) (e : TraceEvent) :
    s.untraced.emit e = (s.emit e).untraced := rfl

/-! #### Memory accesses -/

theorem State.physRead_untraced (s : State) (a : Nat) (w : Width) :
    s.untraced.physRead a w = (s.physRead a w).untraced := Res.ite_untraced rfl rfl

theorem State.physWrite_untraced (s : State) (a : Nat) (w : Width) (v : Word) :
    s.untraced.physWrite a w v = (s.physWrite a w v).untraced := Res.ite_untraced rfl rfl

theorem State.walk_untraced (s : State) (v : Word) : s.untraced.walk v = (s.walk v).untraced :=
  Res.andThen_untraced (s.physRead_untraced _ _) fun _ s1 =>
    Res.ite_untraced rfl <|
      Res.andThen_untraced (s1.physRead_untraced _ _) fun _ _ =>
        Res.ite_untraced rfl (Res.ite_untraced rfl rfl)

theorem State.resolvePte_untraced (s : State) (v : Word) :
    s.untraced.resolvePte v = (s.resolvePte v).untraced := Res.ite_untraced rfl (s.walk_untraced v)

theorem State.translate_untraced (s : State) (v : Word) (k : AccessKind) :
    s.untraced.translate v k = (s.translate v k).untraced :=
  Res.andThen_untraced (s.resolvePte_untraced v) fun _ _ => Res.ite_untraced rfl rfl

theorem State.target_untraced (s : State) (a : Nat) (k : AccessKind) :
    s.untraced.target a k = (s.target a k).untraced := by
  cases hm : s.cfg.mode with
  | physical => rw [s.target_physical a k hm]; exact s.untraced.target_physical a k hm
  | paged =>
    by_cases ha : a < 2 ^ 32
    · rw [s.target_paged k hm ha, ← State.translate_untraced]
      exact s.untraced.target_paged k hm ha
    · rw [s.target_paged_beyond k hm (by omega)]
      exact s.untraced.target_paged_beyond k hm (by omega)

theorem State.memRead_untraced (s : State) (a : Nat) (w : Width) :
    s.untraced.memRead a w = (s.memRead a w).untraced :=
  Res.andThen_untraced (s.target_untraced a .read) fun p s1 => s1.physRead_untraced p w

theorem State.memWrite_untraced (s : State) (a : Nat) (w : Width) (v : Word) :
    s.untraced.memWrite a w v = (s.memWrite a w v).untraced :=
  Res.andThen_untraced (s.target_untraced a .write) fun p s1 => s1.physWrite_untraced p w v

/-! #### The shared parts of instructions -/

theorem State.writeReg_untraced (s : State) (a : Reg) (v : Word) (k : Nat) :
    s.untraced.writeReg a v k = answerUntraced (s.writeReg a v k) :=
  congrArg Host.Outcome.next ((s.setX a v).complete_untraced _)

theorem State.writeRegOr_untraced (s : State) (a : Reg) (r : Except FaultKind Word) (k : Nat) :
    s.untraced.writeRegOr a r k = answerUntraced (s.writeRegOr a r k) := by
  cases r with
  | ok v => exact s.writeReg_untraced a v k
  | error f => rfl

theorem State.branchIf_untraced (s : State) (c : Bool) (d : Int) :
    s.untraced.branchIf c d = answerUntraced (s.branchIf c d) :=
  congrArg Host.Outcome.next (s.complete_untraced _)

theorem State.loadReg_untraced (s : State) (a : Reg) (ea : Nat) (w : Width) (k : Nat) :
    s.untraced.loadReg a ea w k = (s.loadReg a ea w k).untraced :=
  Res.andThen_untraced (s.memRead_untraced ea w) fun _ _ => rfl

theorem State.storeVal_untraced (s : State) (ea : Nat) (w : Width) (v : Word) (k : Nat) :
    s.untraced.storeVal ea w v k = (s.storeVal ea w v k).untraced :=
  Res.andThen_untraced (s.memWrite_untraced ea w v) fun _ _ => rfl

theorem State.eaOffset_untraced (s : State) (r : Reg) (off : Int) :
    s.untraced.eaOffset r off = (s.eaOffset r off).untraced := Res.ite_untraced rfl rfl

theorem jumpTo_untraced (t : Word) (s : State) :
    jumpTo t s.untraced = (jumpTo t s).untraced := Res.ite_untraced rfl rfl

theorem State.push32_untraced (s : State) (v : Word) :
    s.untraced.push32 v = (s.push32 v).untraced := (s.setX sp _).memWrite_untraced _ .long v

theorem State.pop32_untraced (s : State) : s.untraced.pop32 = s.pop32.untraced :=
  Res.andThen_untraced (s.memRead_untraced _ _) fun _ _ => rfl

theorem State.callFrame_untraced (s : State) (r : Nat) :
    s.untraced.callFrame r = (s.callFrame r).untraced :=
  Res.andThen_untraced (s.push32_untraced _) fun _ s1 =>
    Res.andThen_untraced (s1.push32_untraced _) fun _ s2 =>
      Res.andThen_untraced (s2.push32_untraced _) fun _ _ => rfl

/-! #### Instructions -/

theorem execRet_untraced (s : State) : execRet s.untraced = answerUntraced (execRet s) :=
  finish_untraced <|
    Res.andThen_untraced (s.setX sp _).pop32_untraced fun f s1 =>
      Res.andThen_untraced (s1.setX fp f).pop32_untraced fun _ s2 =>
        Res.andThen_untraced s2.pop32_untraced fun _ _ => rfl

theorem execGsr_untraced (a : Reg) (imm : Nat) (s : State) :
    execGsr a imm s.untraced = answerUntraced (execGsr a imm s) := by
  unfold execGsr
  cases specialIndex imm with
  | some i => exact s.writeReg_untraced a (s.sr i) 1
  | none => rfl

theorem execSsr_untraced (a : Reg) (imm : Nat) (s : State) :
    execSsr a imm s.untraced = answerUntraced (execSsr a imm s) := by
  unfold execSsr
  cases specialIndex imm with
  | some i => exact congrArg Host.Outcome.next ((s.setSr i _).complete_untraced _)
  | none => rfl

/-- No instruction's meaning sees the observer, grouped by how the instruction ends. -/
theorem exec_untraced (i : Instr) (s : State) :
    exec i s.untraced = answerUntraced (exec i s) := by
  cases i with
  | add | sub | neg | inc | dec | mul | mulX | umulX | and | or | xor | not | sexB | sexS | zexB
  | zexS | ldiL | ldiB | ldiS | mov => exact s.writeReg_untraced _ _ _
  | div | udiv | mod | umod | ashl | ashr | lshr => exact s.writeRegOr_untraced _ _ _
  | beq | bne | bge | bgt | ble | blt | bgeu | bgtu | bleu | bltu =>
    exact s.branchIf_untraced _ _
  | ldB | ldS | ldL | ldaB | ldaS | ldaL => exact finish_untraced (s.loadReg_untraced _ _ _ _)
  | stB | stS | stL | staB | staS | staL => exact finish_untraced (s.storeVal_untraced _ _ _ _)
  | ldoB | ldoS | ldoL =>
    exact finish_untraced (Res.andThen_untraced (s.eaOffset_untraced _ _) fun _ s1 =>
      s1.loadReg_untraced _ _ _ _)
  | stoB | stoS | stoL =>
    exact finish_untraced (Res.andThen_untraced (s.eaOffset_untraced _ _) fun _ s1 =>
      s1.storeVal_untraced _ _ _ _)
  | cmp => exact congrArg Host.Outcome.next ((s.setCs _).complete_untraced _)
  | jmp | jmpa => exact finish_untraced (jumpTo_untraced _ s)
  | jsr | jsra =>
    exact finish_untraced (Res.andThen_untraced (s.callFrame_untraced _) fun _ s1 =>
      jumpTo_untraced _ s1)
  | ret => exact execRet_untraced s
  | push a b => exact finish_untraced ((s.setX a _).storeVal_untraced _ _ _ _)
  | pop => exact finish_untraced (Res.andThen_untraced (s.memRead_untraced _ _) fun _ _ => rfl)
  | gsr a n => exact execGsr_untraced a n s
  | ssr a n => exact execSsr_untraced a n s
  | nop => exact congrArg Host.Outcome.next (s.complete_untraced _)
  | swi | brk => rfl

/-! #### The step -/

theorem State.fetchExt_untraced (s : State) (ext : Option Width) :
    s.untraced.fetchExt ext = (s.fetchExt ext).untraced := by
  cases ext with
  | none => rfl
  | some w =>
    cases w <;> exact Res.andThen_untraced (s.memRead_untraced _ _) fun _ _ => rfl

theorem State.fetch_untraced (s : State) : s.untraced.fetch = s.fetch.untraced := by
  refine Res.andThen_untraced (s.memRead_untraced _ _) fun w s1 => ?_
  simp only [State.untraced_fetchAddress, State.emit_untraced, State.untraced_opcodeMap,
    State.emit_cfg]
  cases s1.cfg.opcodeMap.find _ _ with
  | none => rfl
  | some op => exact Res.andThen_untraced (State.fetchExt_untraced _ _) fun _ _ => rfl

theorem step_untraced (s : State) : step s.untraced = answerUntraced (step s) := by
  unfold step
  rw [s.untraced_run, s.untraced_result, s.fetch_untraced]
  cases s.run with
  | halted => rfl
  | running =>
    cases s.result with
    | some _ => rfl
    | none =>
      cases s.fetch with
      | ok i s1 => exact exec_untraced i s1
      | raise k s1 => rfl

/-- Settles O54: the step commutes with erasing the observer and its record. -/
theorem traceObserverChangesNothing : Obligations.TraceObserverChangesNothing :=
  fun s _ h => (step_untraced s).trans (congrArg answerUntraced h)

/-! ### Construction (spec/70_reset_and_hazards.md R360, R361) -/

theorem sparseGet_of_forall_ne {α : Type} {d : α} {m : List (Nat × α)} {k : Nat}
    (h : ∀ p ∈ m, p.1 ≠ k) : sparseGet d m k = d := by
  induction m with
  | nil => rfl
  | cons p rest ih =>
    rw [sparseGet, if_neg (h p List.mem_cons_self)]
    exact ih fun q hq => h q (List.mem_cons_of_mem p hq)

/-- One cell of MEM_INIT put into memory. -/
def Memory.placeCell (size : Nat) (m : Memory) (c : Host.Cell) : Memory :=
  if c.1 < size then m.write c.1 c.2 else m

theorem memoryOf_eq_foldl (size : Nat) (cells : List Host.Cell) :
    memoryOf size cells = cells.foldl (Memory.placeCell size) [] := rfl

theorem Memory.read_placeCell_same {size : Nat} {c : Host.Cell} (m : Memory) (h : c.1 < size) :
    (m.placeCell size c).read c.1 = c.2 := by
  rw [Memory.placeCell, if_pos h, Memory.read_write_same]

theorem Memory.read_placeCell_other {c : Host.Cell} {a : Nat} (m : Memory) (size : Nat)
    (h : a ≠ c.1) : (m.placeCell size c).read a = m.read a := by
  unfold Memory.placeCell
  split
  · exact m.read_write_other c.2 h
  · rfl

/-- Cells at rising addresses put into memory: each reads as given, every other byte as before. -/
theorem Memory.read_foldl_placeCell {size a : Nat} (ha : a < size) (cells : List Host.Cell)
    (hcells : cells.Pairwise (fun p q => p.1 < q.1)) (m : Memory) :
    (cells.foldl (Memory.placeCell size) m).read a = sparseGet (m.read a) cells a := by
  induction cells generalizing m with
  | nil => rfl
  | cons c rest ih =>
    obtain ⟨hlt, hrest⟩ := List.pairwise_cons.mp hcells
    rw [List.foldl_cons, ih hrest, sparseGet]
    split
    · next hc =>
      subst hc
      rw [m.read_placeCell_same ha]
      exact sparseGet_of_forall_ne fun p hp => (hlt p hp).ne'
    · next hc => rw [m.read_placeCell_other size (Ne.symm hc)]

/-- MEM_INIT in canonical form is the memory's contents below MEM_SIZE. -/
theorem read_memoryOf {size a : Nat} (ha : a < size) {m : Memory} (hm : m.wf) :
    (memoryOf size m).read a = m.read a := by
  rw [memoryOf_eq_foldl, Memory.read_foldl_placeCell ha m hm.1]
  rfl

theorem State.construct_eq_none {cfg : Config} {cells : List Host.Cell} :
    State.construct cfg cells = none ↔ ¬ cfg.Legal := by
  simp [State.construct]

theorem State.construct_eq_some {cfg : Config} {cells : List Host.Cell} {s : State} :
    State.construct cfg cells = some s ↔
      cfg.Legal ∧ State.initial cfg (memoryOf cfg.memSize cells) = s := by
  simp [State.construct]

theorem State.initial_x (cfg : Config) (m : Memory) (r : Reg) :
    (State.initial cfg m).x r = 0#32 := Vector.getElem_replicate _

theorem State.initial_sr (cfg : Config) (m : Memory) (j : Fin 10) :
    (State.initial cfg m).sr j = 0#32 := Vector.getElem_replicate _

/-- Settles O55: construction answers the initial state exactly for a legal MEM_SIZE, over the memory
that MEM_INIT's cells make. -/
theorem constructionState : Obligations.ConstructionState := by
  refine fun cfg m => ⟨State.construct_eq_none.trans (by omega), fun s hs hm => ?_⟩
  obtain ⟨-, rfl⟩ := State.construct_eq_some.mp hs
  exact ⟨State.initial_x _ _, State.initial_sr _ _, rfl, rfl, rfl, rfl, rfl, fun _ => rfl,
    fun _ ha => read_memoryOf ha hm⟩

/-! ### Halting (spec/48_system.md R303) -/

/-- Settles O36: Brk is `State.halt`, which writes the run state, the result, ICOUNT and the IP alone. -/
theorem brkHaltsAndCounts : Obligations.BrkHaltsAndCounts := fun s =>
  ⟨s.halt, rfl, s.halt_run, s.halt_result, s.halt_icount, fun r _ => s.halt_x r, s.halt_sr,
    s.halt_cs, s.halt_byte, s.halt_tlb, s.halt_cfg, s.halt_trace⟩

end Sys2Proof.Machine
end

section
/-! PROOF. The memory family: the physical accessors, translation by hit and by walk, the loads, the
fetch that faults, and what a step may do to memory and to the TLB. -/

namespace Sys2Proof.Machine

/-! ### Physical accesses (spec/20_memory.md R61 to R67) -/

/-- Settles O31: the accessors test the bound once, and a load and a store are R61's sums. -/
theorem physicalAccessesAreBounded : Obligations.PhysicalAccessesAreBounded := by
  refine fun s a w v => ⟨fun h => ?_, fun h => ⟨?_, ?_⟩⟩
  · exact ⟨s.physRead_beyond a w h, s.physWrite_beyond a w v h⟩
  · exact ⟨_, s.physRead_fits a w h, s.load_assembled a w⟩
  · exact ⟨_, s.physWrite_fits a w v h, s.setMem_storesAt _ a w v rfl, rfl, rfl, rfl, rfl, rfl, rfl,
      rfl⟩

/-- A physical write that succeeds fits, and stored its bytes. -/
theorem State.physWrite_ok {s t : State} {a : Nat} {w : Width} {v : Word}
    (h : s.physWrite a w v = .ok () t) :
    a + w.bytes ≤ s.cfg.memSize ∧ t = s.setMem (s.mem.store s.cfg.endian a w v) := by
  by_cases hfit : a + w.bytes ≤ s.cfg.memSize
  · rw [s.physWrite_fits a w v hfit] at h
    cases h
    exact ⟨hfit, rfl⟩
  · rw [s.physWrite_beyond a w v (by omega)] at h
    cases h

theorem assembled_one (s : State) (a : Nat) : assembled s a 1 = (s.byte a).toNat := by
  unfold assembled
  cases s.cfg.endian <;> simp

/-- Settles O32: the long store fits, so every read inside it does, and each byte it placed is the one
that the byte read finds. -/
theorem widthsShareOneByteArray : Obligations.WidthsShareOneByteArray := by
  intro s t a k v hw hk
  obtain ⟨hfit, ht⟩ := State.physWrite_ok hw
  obtain ⟨hplaced, -⟩ := s.setMem_storesAt t a .long v (by rw [ht, State.setMem_mem])
  have hcfg : t.cfg = s.cfg := by rw [ht, State.setMem_cfg]
  have hbyte : a + k + 1 ≤ t.cfg.memSize := by
    rw [hcfg]
    exact Nat.le_trans (Nat.add_lt_add_left hk a) hfit
  refine ⟨?_, _, t.physRead_fits (a + k) .byte hbyte, ?_⟩
  · rw [t.physRead_fits a .long (by rwa [hcfg]), hcfg, ht, State.setMem_mem, Memory.load_store_long]
  · calc (t.mem.load t.cfg.endian (a + k) .byte).toNat
      _ = (t.byte (a + k)).toNat := (t.load_assembled _ .byte).trans (assembled_one t _)
      _ = (placedByte s.cfg.endian 4 v.toNat k).toNat := congrArg BitVec.toNat (hplaced k hk)
      _ = _ := by unfold placedByte; cases s.cfg.endian <;> exact BitVec.toNat_ofNat _ _

/-! ### The parts of a virtual address, as quotients and remainders (spec/20_memory.md R71, R73) -/

theorem vTag_toNat (v : Word) : (vTag v).toNat = v.toNat / 2 ^ 12 := by
  rw [vTag, BitVec.toNat_ushiftRight, Nat.shiftRight_eq_div_pow]

theorem vTag_eq_ofNat (v : Word) : vTag v = BitVec.ofNat 32 (v.toNat / 2 ^ 12) := by
  rw [← vTag_toNat, BitVec.ofNat_toNat, BitVec.setWidth_eq]

theorem vIndex_eq_mod (v : Word) : vIndex v = v.toNat / 2 ^ 12 % 1024 := by
  rw [vIndex_eq, vTag_toNat]

theorem vTable_eq_mod (v : Word) : vTable v = v.toNat / 2 ^ 12 % 1024 := vIndex_eq_mod v

theorem vDirectory_eq_div (v : Word) : vDirectory v = v.toNat / 2 ^ 22 := by
  rw [vDirectory, BitVec.toNat_ushiftRight, Nat.shiftRight_eq_div_pow]

theorem vOffset_eq_mod (v : Word) : vOffset v = v.toNat % 4096 :=
  (BitVec.toNat_and ..).trans (Nat.and_two_pow_sub_one_eq_mod v.toNat 12)

/-! ### Translation on a hit (spec/20_memory.md R74, R75) -/

/-- The slot of `v` holds the tag of `v`. -/
def State.Hits (s : State) (v : Word) : Prop := (s.slot (vIndex v)).tag = vTag v

theorem State.hits_iff (s : State) (v : Word) :
    s.Hits v ↔ (s.slot (v.toNat / 2 ^ 12 % 1024)).tag.toNat = v.toNat / 2 ^ 12 := by
  rw [State.Hits, ← BitVec.toNat_inj, vIndex_eq_mod, vTag_toNat]

theorem State.resolvePte_of_hits {s : State} {v : Word} (h : s.Hits v) :
    s.resolvePte v = .ok (s.slot (vIndex v)).pte s := if_pos h

theorem State.resolvePte_of_not_hits {s : State} {v : Word} (h : ¬ s.Hits v) :
    s.resolvePte v = s.walk v := if_neg h

/-- Settles O59: the hit reads the slot, which no write of memory changes. -/
theorem hitsResolveToTheCachedEntry : Obligations.HitsResolveToTheCachedEntry := by
  intro s v m cached htag
  have hit : s.Hits v := (s.hits_iff v).mpr htag
  have hmem : (s.setMem m).Hits v := hit
  simp only [cached, ← vIndex_eq_mod]
  exact ⟨State.resolvePte_of_hits hit, State.resolvePte_of_hits hmem⟩

theorem State.translate_allowed {s s1 : State} {v e : Word} {kind : AccessKind}
    (h : s.resolvePte v = .ok e s1)
    (hw : ¬ (kind = .write ∧ Config.writable s1.cfg e = false)) :
    s.translate v kind = .ok (Config.frame s1.cfg e + vOffset v) s1 := by
  rw [State.translate, h, Res.ok_andThen, if_neg hw]

theorem State.translate_readOnly {s s1 : State} {v e : Word} {kind : AccessKind}
    (h : s.resolvePte v = .ok e s1) (hw : kind = .write ∧ Config.writable s1.cfg e = false) :
    s.translate v kind = .raise .pageReadOnly s1 := by
  rw [State.translate, h, Res.ok_andThen, if_pos hw]

theorem State.translate_of_raise {s s1 : State} {v : Word} {k : FaultKind} (kind : AccessKind)
    (h : s.resolvePte v = .raise k s1) : s.translate v kind = .raise k s1 := by
  rw [State.translate, h, Res.raise_andThen]

/-- Settles O43: on a hit translation resolves to the cached entry, and only the write check follows. -/
theorem tlbHitsUseTheCachedEntry : Obligations.TlbHitsUseTheCachedEntry := by
  intro s v m htag
  obtain ⟨hres, hresMem⟩ := hitsResolveToTheCachedEntry s v m htag
  simp only [← vOffset_eq_mod]
  exact ⟨State.translate_allowed hres (nomatch ·.1), State.translate_allowed hresMem (nomatch ·.1),
    fun hw => State.translate_allowed hres (ne_false_of_eq_true hw ·.2),
    fun hw => State.translate_readOnly hres ⟨rfl, hw⟩⟩

/-! ### Translation on a miss (spec/20_memory.md R75, R77, R78) -/

/-- The address of the directory entry of `v`. -/
def State.pdeAt (s : State) (v : Word) : Nat := s.cfg.pdBase.toNat + vDirectory v * 4

/-- The directory entry of `v`. -/
def State.pde (s : State) (v : Word) : Word := s.mem.load s.cfg.endian (s.pdeAt v) .long

/-- The address of the table entry of `v`. -/
def State.pteAt (s : State) (v : Word) : Nat := Config.frame s.cfg (s.pde v) + vTable v * 4

/-- The table entry of `v`. -/
def State.pte (s : State) (v : Word) : Word := s.mem.load s.cfg.endian (s.pteAt v) .long

/-- The walk as one chain of tests, in R75's order: each fault leaves the state as it was. -/
theorem State.walk_eq (s : State) (v : Word) :
    s.walk v =
      if s.cfg.memSize < s.pdeAt v + 4 then .raise .memoryOutOfRange s
      else if Config.present s.cfg (s.pde v) = false then .raise .pageDirectoryEntryNotPresent s
      else if s.cfg.memSize < s.pteAt v + 4 then .raise .memoryOutOfRange s
      else if Config.present s.cfg (s.pte v) = false then .raise .pageNotPresent s
      else if s.cfg.memSize ≤ Config.frame s.cfg (s.pte v) then .raise .physicalAddressOutOfRange s
      else .ok (s.pte v) (s.fillTlb (vIndex v) ⟨vTag v, s.pte v⟩) := by
  rw [State.walk, ← State.pdeAt]
  by_cases hpde : s.cfg.memSize < s.pdeAt v + 4
  · rw [if_pos hpde, s.physRead_beyond _ .long hpde, Res.raise_andThen]
  rw [if_neg hpde, s.physRead_fits _ .long (Nat.le_of_not_lt hpde), Res.ok_andThen, ← State.pde,
    ← State.pteAt]
  by_cases hpte : s.cfg.memSize < s.pteAt v + 4
  · rw [if_pos hpte, s.physRead_beyond _ .long hpte, Res.raise_andThen]
  rw [if_neg hpte, s.physRead_fits _ .long (Nat.le_of_not_lt hpte), Res.ok_andThen, ← State.pte]

/-- A long at `p` is the word that R61's sums give. -/
theorem State.ofNat_assembled_long (s : State) (p : Nat) :
    BitVec.ofNat 32 (assembled s p 4) = s.mem.load s.cfg.endian p .long := by
  have h := congrArg (BitVec.ofNat 32) (s.load_assembled p .long)
  rw [BitVec.ofNat_toNat, BitVec.setWidth_eq] at h
  exact h.symm

/-- Settles O44: on a miss the walk's chain of tests decides, each clause passing one more of them; a
completed walk is followed by the write check on the entry it filled. -/
theorem tlbMissesWalkTheTables : Obligations.TlbMissesWalkTheTables := by
  intro s v kind hmiss
  simp only [← vDirectory_eq_div, ← vTag_eq_ofNat, ← vOffset_eq_mod, ← vTable_eq_mod,
    s.ofNat_assembled_long]
  have hres : s.resolvePte v = s.walk v :=
    State.resolvePte_of_not_hits fun hit => hmiss ((s.hits_iff v).mp hit)
  rw [s.walk_eq v] at hres
  refine ⟨fun hpde => State.translate_of_raise kind (hres.trans (if_pos hpde)), fun hpde => ?_⟩
  replace hres := hres.trans (if_neg (Nat.not_lt.mpr hpde))
  refine ⟨fun hp => State.translate_of_raise kind (hres.trans (if_pos hp)), fun hp => ?_⟩
  replace hres := hres.trans (if_neg (ne_false_of_eq_true hp))
  refine ⟨fun hpte => State.translate_of_raise kind (hres.trans (if_pos hpte)), fun hpte => ?_⟩
  replace hres := hres.trans (if_neg (Nat.not_lt.mpr hpte))
  refine ⟨fun hp => State.translate_of_raise kind (hres.trans (if_pos hp)), fun hp => ?_⟩
  replace hres := hres.trans (if_neg (ne_false_of_eq_true hp))
  refine ⟨fun hf => State.translate_of_raise kind (hres.trans (if_pos hf)), fun hf => ?_⟩
  replace hres := hres.trans (if_neg (Nat.not_le.mpr hf))
  exact ⟨State.translate_readOnly hres, State.translate_allowed hres⟩

/-! ### The fetch that faults (spec/40_execution_loop.md R131) -/

/-- The operation does not end in the fault `k`. -/
def Res.NeverRaises {α : Type} (r : Res α) (k : FaultKind) : Prop := ∀ s, r ≠ .raise k s

theorem Res.NeverRaises.andThen {α β : Type} {r : Res α} {f : α → State → Res β} {k : FaultKind}
    (hr : r.NeverRaises k) (hf : ∀ a s, (f a s).NeverRaises k) : (r.andThen f).NeverRaises k := by
  intro t h
  rcases Res.andThen_eq_raise.mp h with h | ⟨a, s, -, h⟩
  · exact hr t h
  · exact hf a s t h

theorem State.physRead_never_readOnly (s : State) (a : Nat) (w : Width) :
    (s.physRead a w).NeverRaises .pageReadOnly := by
  intro t
  unfold State.physRead
  split <;> simp

theorem State.resolvePte_never_readOnly (s : State) (v : Word) :
    (s.resolvePte v).NeverRaises .pageReadOnly := by
  intro t
  by_cases hit : s.Hits v
  · simp [State.resolvePte_of_hits hit]
  · rw [State.resolvePte_of_not_hits hit, State.walk_eq]
    split_ifs <;> simp

theorem State.target_read_never_readOnly (s : State) (a : Nat) :
    (s.target a .read).NeverRaises .pageReadOnly := by
  intro t
  cases hm : s.cfg.mode with
  | physical => simp [s.target_physical a .read hm]
  | paged =>
    by_cases ha : a < 2 ^ 32
    · rw [s.target_paged .read hm ha]
      exact (s.resolvePte_never_readOnly _).andThen (fun _ _ _ => by simp) t
    · simp [s.target_paged_beyond .read hm (Nat.le_of_not_lt ha)]

/-- No read through the accessor raises PageReadOnly: only the write check does (R79). -/
theorem State.memRead_never_readOnly (s : State) (a : Nat) (w : Width) :
    (s.memRead a w).NeverRaises .pageReadOnly :=
  (s.target_read_never_readOnly a).andThen fun p s1 => s1.physRead_never_readOnly p w

theorem step_of_fetch_raise {s s1 : State} {k : FaultKind} (hrun : s.run = .running)
    (hres : s.result = none) (h : s.fetch = .raise k s1) : step s = .next (s1.takeFault k) := by
  rw [step, hrun, hres, h]

theorem State.fetch_of_word_raise {s s1 : State} {k : FaultKind}
    (h : s.memRead s.fetchAddress .short = .raise k s1) : s.fetch = .raise k s1 := by
  rw [State.fetch, h, Res.raise_andThen]

/-- What differs in the TLB at most keeps all else. -/
theorem OnlyTlb.keeps {s t : State} (h : OnlyTlb s t) :
    KeepsRegs s t [] ∧ KeepsSpecials s t ∧ t.cs = s.cs ∧ KeepsMemory s t := by
  rw [h]
  exact ⟨fun _ _ => rfl, fun _ => rfl, rfl, fun _ => rfl⟩

/-- A fault taken with the control fields as before ends the run, and counts nothing. -/
theorem SameControl.faulted {s t : State} (h : SameControl s t) (k : FaultKind) :
    Faulted s (t.takeFault k) k := ⟨rfl, h.run, h.icount, h.cfg, h.trace⟩

/-- Settles O41: the read's fault is the fetch's, and the read changed the TLB at most. -/
theorem fetchFaultsEndTheRun : Obligations.FetchFaultsEndTheRun := by
  intro s s1 k hrun hres hread
  have ho := State.memRead_raise_onlyTlb hread
  obtain ⟨hregs, hsregs, hcs, hmem⟩ := ho.keeps
  refine ⟨?_, _, step_of_fetch_raise hrun hres (State.fetch_of_word_raise hread),
    ho.sameControl.faulted k, hregs, hsregs, hcs, hmem, rfl⟩
  rintro rfl
  exact s.memRead_never_readOnly _ _ s1 hread

/-! ### Loads (spec/46_load_store.md R260, R263) -/

/-- Completing keeps everything but the IP, ICOUNT and the end of the run. -/
theorem State.complete_keeps (s : State) (n : Int) :
    KeepsRegs s (s.complete n) [] ∧ KeepsSpecials s (s.complete n) ∧ (s.complete n).cs = s.cs ∧
      KeepsMemory s (s.complete n) ∧ (s.complete n).tlb = s.tlb := by
  obtain ⟨hregs, hsregs, hcs, hmem, htlb, -⟩ := s.complete_fields n
  refine ⟨fun r _ => ?_, fun j => ?_, hcs, fun a => ?_, htlb⟩
  · rw [State.x, hregs, State.x]
  · rw [State.sr, hsregs, State.sr]
  · rw [State.byte, hmem, State.byte]

/-- The end of an instruction that kept the control fields and completes at the next one. -/
theorem SameControl.complete_seq {s t : State} (h : SameControl s t) (words : Nat) :
    (s.ip.toNat + words < 2 ^ 31 → KeepsControl s (t.complete (s.seqIp words)) ∧
      Completes s (t.complete (s.seqIp words)) (s.ip.toNat + words)) ∧
    (2 ^ 31 ≤ s.ip.toNat + words → Faulted s (t.complete (s.seqIp words)) .ipOutOfRange) := by
  obtain ⟨hin, hout⟩ := s.complete_seq t words
  constructor
  · intro hlt
    obtain ⟨hadv, hip⟩ := hin hlt
    rw [hadv]
    exact ⟨⟨h.run, h.result, h.cfg, h.free, h.trace⟩, hip, congrArg (· + 1) h.icount⟩
  · intro hle
    rw [hout hle]
    exact h.faulted _

/-- An instruction that ends in a load at `ea` loads from it. -/
theorem loadsFrom_of_loadReg {i : Instr} {s : State} {a : Reg} {ea : Nat} {w : Width} {words : Nat}
    (h : exec i s = finish (s.loadReg a ea w words)) : LoadsFrom i s a ea w words := by
  constructor
  · intro p s1 ht hfit
    have ho := State.target_ok_onlyTlb ht
    rw [State.loadReg, State.memRead_fits ht hfit, Res.ok_andThen, finish_ok] at h
    generalize hv : s.mem.load s.cfg.endian p w = v at h
    have hcontrol : SameControl s (s1.setX a v) := ho.sameControl.trans (.setX s1 a v)
    obtain ⟨-, hsregs, hcs, hmem⟩ := ho.keeps
    obtain ⟨hregs', hsregs', hcs', hmem', htlb'⟩ := (s1.setX a v).complete_keeps (s.seqIp words)
    refine ⟨_, h, ?_, fun r hr => ?_, fun j => (hsregs' j).trans (hsregs j), hcs'.trans hcs,
      fun q => (hmem' q).trans (hmem q), htlb', hcontrol.complete_seq words⟩
    · rw [hregs' a List.not_mem_nil, State.setX_x_same, ← hv, s.load_assembled]
    · rw [hregs' r List.not_mem_nil, State.setX_x_other s1 v (by simpa using hr), ho.x]
  · intro k s1 hread
    have ho := State.memRead_raise_onlyTlb hread
    obtain ⟨hregs, hsregs, hcs, hmem⟩ := ho.keeps
    rw [State.loadReg, hread, Res.raise_andThen, finish_raise] at h
    exact ⟨_, h, hregs, hsregs, hcs, hmem, rfl, ho.sameControl.faulted k⟩

/-- A register+offset sum that is a 32-bit address is the effective address. -/
theorem State.eaOffset_inRange {s : State} {r : Reg} {off : Int} {ea : Nat}
    (hea : (ea : Int) = (s.x r).toNat + off) (hlt : ea < 2 ^ 32) :
    s.eaOffset r off = .ok ea s := by
  unfold State.eaOffset
  simp only [← hea, Int.toNat_natCast]
  exact if_pos (by omega)

/-- A register+offset load whose sum is the address `ea` loads from it. -/
theorem loadsFrom_of_offset {i : Instr} {s : State} {a b : Reg} {off : Int} {ea : Nat} {w : Width}
    {words : Nat} (hea : (ea : Int) = (s.x b).toNat + off) (hlt : ea < 2 ^ 32)
    (h : exec i s = finish ((s.eaOffset b off).andThen fun ea s1 => s1.loadReg a ea w words)) :
    LoadsFrom i s a ea w words := by
  rw [State.eaOffset_inRange hea hlt, Res.ok_andThen] at h
  exact loadsFrom_of_loadReg h

/-- Settles O28: each of the nine ends in a load at its address, register-indirect, absolute or
register+offset. -/
theorem loadsReadTheirAddress : Obligations.LoadsReadTheirAddress := fun _ _ _ _ _ _ =>
  ⟨loadsFrom_of_loadReg rfl, loadsFrom_of_loadReg rfl, loadsFrom_of_loadReg rfl,
    loadsFrom_of_loadReg rfl, loadsFrom_of_loadReg rfl, loadsFrom_of_loadReg rfl,
    fun hea hlt => ⟨loadsFrom_of_offset hea hlt rfl, loadsFrom_of_offset hea hlt rfl,
      loadsFrom_of_offset hea hlt rfl⟩⟩

/-! ### What a step may do to the TLB and to memory (spec/20_memory.md R78, R88) -/

/-- The slot is as in `s`, or one that a completed walk filled. -/
def SlotKeptOrFilled (s : State) (j : Nat) (t : State) : Prop :=
  t.cfg = s.cfg ∧ (t.slot j = s.slot j ∨ TlbEntry.Filled s.cfg j (t.slot j))

/-- Only a fill writes a slot, and its guard is what a completed walk gives. -/
theorem Micro.slotKeptOrFilled {s t u : State} {j : Nat} (h : Micro t u)
    (ht : SlotKeptOrFilled s j t) : SlotKeptOrFilled s j u := by
  cases h with
  | fill i e _ filled =>
    obtain ⟨hcfg, hslot⟩ := ht
    refine ⟨hcfg, ?_⟩
    by_cases hj : j = i
    · subst hj
      rw [State.fillTlb_slot_same, ← hcfg]
      exact .inr filled
    · rwa [State.fillTlb_slot_other _ _ hj]
  | setX | setSr | setCs | store | emit | advance | takeFault | halt => exact ht

/-- Settles O46: a step is a sequence of micro-writes, and of these only the fill of a completed walk
writes a slot. -/
theorem noStepInvalidatesATlbSlot : Obligations.NoStepInvalidatesATlbSlot := by
  intro s t j h
  obtain ⟨-, hslot⟩ : SlotKeptOrFilled s j t :=
    Micros.keeps (fun _ _ => Micro.slotKeptOrFilled) (step_micros h) ⟨rfl, .inl rfl⟩
  exact hslot.imp_right fun ⟨_, htag, hplace, hpresent, hframe⟩ => ⟨htag, hplace, hpresent, hframe⟩

/-- Settles O52: an instruction that does not store ends in a state reached by register writes and TLB
fills, and no end of an instruction writes memory. -/
theorem onlyStoresPushesAndCallsWriteMemory : Obligations.OnlyStoresPushesAndCallsWriteMemory := by
  intro s t i h hop
  have kept : Kept (·.mem = s.mem) := ⟨fun _ _ _ h => h, fun _ _ _ h => h⟩
  have ends : EndsIn (·.mem = s.mem) i (exec i s) :=
    exec_ends kept i rfl (fun _ _ _ _ _ h => h) (fun _ _ _ _ h => h) (absurd · hop)
  refine ends.keeps h (fun u n hu => ?_) (fun _ _ hu => hu) (fun _ hu => hu)
  obtain ⟨-, -, -, hmem, -⟩ := u.complete_fields n
  exact hmem.trans hu

/-! ### The host's copy (spec/70_reset_and_hazards.md R366) -/

/-- Settles O57: `copyIn` tests in R366's order, and what it writes are the bytes at the offset. -/
theorem copyInWritesItsBytes : Obligations.CopyInWritesItsBytes := by
  refine fun s offset bytes => ⟨fun hodd => if_pos hodd, fun hoff hlen => ?_⟩
  have heven : ¬ (offset % 2 = 1 ∨ bytes.length % 2 = 1) := by omega
  refine ⟨fun hbig => (if_neg heven).trans (if_pos hbig), fun hfit => ?_⟩
  refine ⟨_, (if_neg heven).trans (if_neg (Nat.not_lt.mpr hfit)), ?_, ?_, ?_⟩
  · exact fun k hk => s.mem.read_writeBytes_inside offset bytes k hk
  · exact fun a ha => s.mem.read_writeBytes_outside offset bytes a ha
  · exact ⟨fun _ _ => rfl, fun _ => rfl, rfl, rfl, rfl, rfl, rfl, rfl, rfl, rfl, rfl⟩

end Sys2Proof.Machine
end

section
/-! PROOF. The encoding family: the fields of every word, well-formed instructions and the records that
fit a word, the round trip of R118, and the words of the default opcode map. -/

namespace Sys2Proof

open Machine

/-! ### The fields of a word (spec/30_encoding.md R101 to R103) -/

/-- A 10-bit field is signed as R103 says. -/
theorem signedField_ten (v : Nat) :
    signedField 10 v = if v ≤ 511 then (v : Int) else (v : Int) - 1024 := by
  unfold signedField
  split <;> split <;> omega

/-- The top two bits of a word are both set: branch format. -/
theorem decodeRecord_branch {w : Half} (h : 0xC000 ≤ w.toNat) :
    decodeRecord w = ⟨.branch, w.toNat / 1024, 0, 0,
      if w.toNat % 1024 ≤ 511 then (w.toNat % 1024 : Int) else (w.toNat % 1024 : Int) - 1024⟩ := by
  have hw := w.isLt
  have top : bits w 15 14 = 3 := by simp only [bits]; omega
  have field : bits w 15 10 = w.toNat / 1024 := by simp only [bits]; omega
  have disp : bits w 9 0 = w.toNat % 1024 := by simp only [bits]; omega
  rw [decodeRecord, if_pos top, field, disp, signedField_ten]
  rfl

/-- The top two bits of a word are 10: short-immediate format. -/
theorem decodeRecord_shortImm {w : Half} (hlo : 0x8000 ≤ w.toNat) (hhi : w.toNat < 0xC000) :
    decodeRecord w = ⟨.shortImm, w.toNat / 4096, Fin.ofNat 16 (w.toNat / 256), 0,
      (w.toNat % 256 : Int)⟩ := by
  have top : bits w 15 14 = 2 := by simp only [bits]; omega
  have field : bits w 15 12 = w.toNat / 4096 := by simp only [bits]; omega
  have reg : Fin.ofNat 16 (bits w 11 8) = Fin.ofNat 16 (w.toNat / 256) := by
    simp [bits, Fin.ext_iff]
  have imm : bits w 7 0 = w.toNat % 256 := by simp only [bits]; omega
  rw [decodeRecord, if_neg (by omega), if_pos top, field, reg, imm]
  rfl

/-- The top bit of a word is clear: register format. -/
theorem decodeRecord_register {w : Half} (h : w.toNat < 0x8000) :
    decodeRecord w = ⟨.register, w.toNat / 256, Fin.ofNat 16 (w.toNat / 16),
      Fin.ofNat 16 w.toNat, 0⟩ := by
  have top : bits w 15 14 < 2 := by simp only [bits]; omega
  have field : bits w 15 8 = w.toNat / 256 := by simp only [bits]; omega
  have regA : Fin.ofNat 16 (bits w 7 4) = Fin.ofNat 16 (w.toNat / 16) := by
    simp [bits, Fin.ext_iff]
  have regB : Fin.ofNat 16 (bits w 3 0) = Fin.ofNat 16 w.toNat := by
    simp [bits, Fin.ext_iff]
  rw [decodeRecord, if_neg (by omega), if_neg (by omega), field, regA, regB]

/-- Settles O3: the word's value lies in one of three ranges, one for each format. -/
theorem everyWordSplitsIntoItsFields : Obligations.EveryWordSplitsIntoItsFields := fun _ =>
  ⟨decodeRecord_branch, decodeRecord_shortImm, decodeRecord_register⟩

/-- The fields of every word fit the word's format. -/
theorem decodeRecord_fits (w : Half) : (decodeRecord w).Fits := by
  have hw := w.isLt
  rcases Nat.lt_or_ge w.toNat 0x8000 with hreg | hge
  · rw [decodeRecord_register hreg]
    exact ⟨decide_eq_true (Nat.div_lt_of_lt_mul hreg), rfl⟩
  rcases Nat.lt_or_ge w.toNat 0xC000 with hshort | hbranch
  · rw [decodeRecord_shortImm hge hshort]
    simp only [Record.Fits, Format.admits, Bool.and_eq_true, decide_eq_true_eq, true_and]
    omega
  · rw [decodeRecord_branch hbranch]
    simp only [Record.Fits, Format.admits, Bool.and_eq_true, decide_eq_true_eq, true_and]
    split <;> omega

/-! ### Well-formed operands -/

theorem dispFits_iff {d : Int} : dispFits d = true ↔ -512 ≤ d ∧ d ≤ 511 := by simp [dispFits]

theorem immFits_iff {n : Nat} : immFits n = true ↔ n ≤ 255 := by simp [immFits]

theorem offFits_iff {o : Int} : offFits o = true ↔ -32768 ≤ o ∧ o ≤ 32767 := by simp [offFits]

/-- The offset that an extension word holds fits the word (R107). -/
theorem offFits_signedField (v : Nat) : offFits (signedField 16 (v % 65536)) = true := by
  rw [offFits_iff, signedField]
  split <;> omega

/-- A 16-bit offset is read back from its two's complement (R107). -/
theorem signedField_offset {o : Int} (h : offFits o = true) :
    signedField 16 ((BitVec.ofNat 32 (o % 65536).toNat).toNat % 65536) = o := by
  rw [offFits_iff] at h
  rw [BitVec.toNat_ofNat, signedField]
  split <;> omega

/-! ### Instructions and their parts -/

/-- An instruction is made for the opcode its parts name. -/
theorem Parts.build_opcode (p : Parts) : p.build.opcode = p.op := by
  obtain ⟨op, a, b, value, ext⟩ := p
  cases op <;> rfl

/-- Fields that fit the word of an opcode make a well-formed instruction. -/
theorem Parts.build_wellFormed {op : Opcode} {r : Record} (hop : op.format = r.format) (h : r.Fits)
    (x : Word) : (Parts.build ⟨op, r.a, r.b, r.value, x⟩).wellFormed = true := by
  obtain ⟨f, k, a, b, value⟩ := r
  obtain ⟨-, hvalue⟩ := h
  subst hop
  cases op with
  | inc | dec | gsr | ssr =>
    obtain ⟨-, hlo, hhi⟩ := hvalue
    exact immFits_iff.mpr (Int.toNat_le.mpr hhi)
  | beq | bne | bge | bgt | ble | blt | bgeu | bgtu | bleu | bltu =>
    obtain ⟨-, -, hbounds⟩ := hvalue
    exact dispFits_iff.mpr hbounds
  | ldoB | ldoS | ldoL | stoB | stoS | stoL => exact offFits_signedField x.toNat
  | _ => rfl

/-- The fields of a well-formed instruction fit its word under a lawful map. -/
theorem Instr.record_fits {m : OpcodeMap} (hm : m.Lawful) {i : Instr} (hw : i.wellFormed = true) :
    (i.parts.record m).Fits := by
  refine ⟨hm.admits i.parts.op, ?_⟩
  cases i with
  | inc _ n | dec _ n | gsr _ n | ssr _ n =>
    exact ⟨rfl, Int.natCast_nonneg n, Int.ofNat_le.mpr (immFits_iff.mp hw)⟩
  | beq | bne | bge | bgt | ble | blt | bgeu | bgtu | bleu | bltu =>
    exact ⟨rfl, rfl, dispFits_iff.mp hw⟩
  | _ => rfl

/-- The extension of an instruction fits the bytes its opcode has for it (R105). -/
theorem Instr.ext_fits (i : Instr) : i.parts.ext.toNat < 256 ^ extBytes i.opcode.ext := by
  cases i with
  | jmpa v | jsra v | swi v | ldaB _ v | ldaS _ v | ldaL _ v | staB _ v | staS _ v | staL _ v
  | ldiL _ v | ldiB _ v | ldiS _ v => exact v.isLt
  | ldoB _ _ o | ldoS _ _ o | ldoL _ _ o | stoB _ _ o | stoS _ _ o | stoL _ _ o =>
    change (BitVec.ofNat 32 (o % 65536).toNat).toNat < 256 ^ 2
    rw [BitVec.toNat_ofNat]
    omega
  | _ => exact Nat.one_pos

/-- A well-formed instruction is rebuilt from its parts. -/
theorem Instr.build_parts {i : Instr} (hw : i.wellFormed = true) : i.parts.build = i := by
  cases i with
  | ldoB a b o | ldoS a b o | ldoL a b o | stoB a b o | stoS a b o | stoL a b o =>
    simp only [Instr.parts, Parts.build, signedField_offset hw]
  | _ => rfl

/-! ### The round trip (R118) -/

/-- Settles O1: the word gives back its record, whose opcode the map finds; the extension gives back
its value; and the instruction is rebuilt from these parts. -/
theorem encodedInstructionsDecodeToThemselves :
    Obligations.EncodedInstructionsDecodeToThemselves := by
  intro m e i rest hm hw
  have ext : BitVec.ofNat 32 (i.parts.ext.toNat % 256 ^ extBytes i.opcode.ext) = i.parts.ext := by
    rw [Nat.mod_eq_of_lt i.ext_fits, BitVec.ofNat_toNat, BitVec.setWidth_eq]
  have word := decode_of_record (e := e) (i.record_fits hm hw) (hm.find_valueOf i.opcode)
    (valueBytes e (extBytes i.opcode.ext) i.parts.ext.toNat ++ rest)
  rw [encode, List.append_assoc, word, takeExt_valueBytes, ext]
  exact congrArg (fun j => Except.ok (j, rest)) (i.build_parts hw)

/-! ### What the decoder accepts -/

/-- An extension is read from the first bytes and the others are left. -/
theorem takeExt_eq_some {e : Endian} {n : Nat} {bytes rest : List Byte} {x : Word}
    (h : takeExt e n bytes = some (x, rest)) : n ≤ bytes.length ∧ rest = bytes.drop n := by
  unfold takeExt at h
  split at h
  · cases h
    exact ⟨‹_›, rfl⟩
  · cases h

/-- Accepted bytes are a word whose opcode is in the map and an extension, and the instruction is
made of these. -/
theorem decode_eq_ok {m : OpcodeMap} {e : Endian} {bytes rest : List Byte} {i : Instr}
    (h : decode m e bytes = .ok (i, rest)) :
    ∃ (b0 b1 : Byte) (tail : List Byte) (w : Half) (op : Opcode) (x : Word),
      bytes = b0 :: b1 :: tail ∧ w = BitVec.ofNat 16 (bytesValue e [b0, b1]) ∧
      m.find (decodeRecord w).format (decodeRecord w).field = some op ∧
      takeExt e (extBytes op.ext) tail = some (x, rest) ∧
      i = Parts.build ⟨op, (decodeRecord w).a, (decodeRecord w).b, (decodeRecord w).value, x⟩ := by
  unfold decode at h
  split at h
  · next b0 b1 tail =>
    dsimp only at h
    split at h
    · cases h
    · next op hfind =>
      split at h
      · cases h
      · next x rest' hext =>
        cases h
        exact ⟨b0, b1, tail, _, op, x, rfl, rfl, hfind, hext, rfl⟩
  · cases h

/-- The lengths of R105, opcode by opcode. -/
theorem Opcode.words_eq (op : Opcode) :
    op.words =
      if op ∈ [.ldiL, .ldiB, .ldiS, .ldaL, .ldaB, .ldaS, .staL, .staB, .staS, .jmpa, .jsra, .swi]
      then 3
      else if op ∈ [.ldoL, .ldoB, .ldoS, .stoL, .stoB, .stoS] then 2 else 1 := by
  cases op <;> decide

/-- Settles O2: the fields of the word fit it, and the word's two bytes and the extension's are what
is consumed. -/
theorem decodedInstructionsAreWellFormedAndExact :
    Obligations.DecodedInstructionsAreWellFormedAndExact := by
  refine ⟨fun m e bytes rest i h => ?_, Opcode.words_eq⟩
  obtain ⟨b0, b1, tail, w, op, x, rfl, -, hfind, hext, rfl⟩ := decode_eq_ok h
  obtain ⟨-, hformat⟩ := OpcodeMap.find_some_mem hfind
  obtain ⟨hlen, hrest⟩ := takeExt_eq_some hext
  rw [Parts.build_opcode, Opcode.words_bytes]
  refine ⟨Parts.build_wellFormed hformat (decodeRecord_fits w) x, ?_, ?_⟩
  · simp only [List.length_cons]
    omega
  · rw [hrest, Nat.add_comm 2]
    rfl

/-! ### The default opcode map (R109)

An opcode's format and extension choose the form of its words; its value in the map and the instruction
it makes are then read off. -/

/-- The one-word words of a register-format opcode. -/
theorem registerWords (op : Opcode) (hf : op.format = .register := by rfl)
    (he : op.words = 1 := by rfl) :
    DecodesRR (OpcodeMap.standard.valueOf op) fun a b => Parts.build ⟨op, a, b, 0, 0⟩ :=
  decodesRR_of op rfl hf he fun _ _ => rfl

/-- The words of an opcode with a 32-bit immediate. -/
theorem immediateWords (op : Opcode) (hf : op.format = .register := by rfl)
    (he : op.ext = some .long := by rfl) :
    DecodesImm (OpcodeMap.standard.valueOf op) fun a b v => Parts.build ⟨op, a, b, 0, v⟩ :=
  decodesImm_of op rfl hf he fun _ _ _ => rfl

/-- The words of an opcode with a 16-bit offset, whose instruction holds the offset signed. -/
theorem offsetWords (op : Opcode) {f : Reg → Reg → Int → Instr}
    (hf : op.format = .register := by rfl) (he : op.ext = some .short := by rfl)
    (hb : ∀ a b v, Parts.build ⟨op, a, b, 0, v⟩ = f a b (signedField 16 (v.toNat % 65536)) := by
      intros; rfl) :
    DecodesOff (OpcodeMap.standard.valueOf op) f :=
  decodesOff_of op rfl hf he hb

/-- The words of a short-immediate opcode. -/
theorem shortWords (op : Opcode) (hf : op.format = .shortImm := by rfl)
    (he : op.ext = none := by rfl) :
    DecodesShort (OpcodeMap.standard.valueOf op) fun a n => Parts.build ⟨op, a, 0, (n : Int), 0⟩ :=
  decodesShort_of op rfl hf he fun _ _ => rfl

/-- The words of a branch opcode. -/
theorem branchWords (op : Opcode) (hf : op.format = .branch := by rfl)
    (he : op.ext = none := by rfl) :
    DecodesBranch (OpcodeMap.standard.valueOf op) fun d => Parts.build ⟨op, 0, 0, d, 0⟩ :=
  decodesBranch_of op rfl hf he fun _ => rfl

/-- Settles O6: the form of each opcode's words, at the value the map gives it. -/
theorem defaultOpcodeMapWordsDecode : Obligations.DefaultOpcodeMapWordsDecode :=
  ⟨immediateWords .ldiL, registerWords .mov, immediateWords .jsra, registerWords .ret,
    registerWords .add, registerWords .push, registerWords .pop, immediateWords .ldaL,
    immediateWords .staL, registerWords .ldL, registerWords .stL, offsetWords .ldoL,
    offsetWords .stoL, registerWords .cmp, registerWords .nop, registerWords .sexB,
    registerWords .sexS, registerWords .zexB, registerWords .zexS, registerWords .umulX,
    registerWords .mulX, registerWords .jsr, immediateWords .jmpa, immediateWords .ldiB,
    registerWords .ldB, immediateWords .ldaB, registerWords .stB, immediateWords .staB,
    immediateWords .ldiS, registerWords .ldS, immediateWords .ldaS, registerWords .stS,
    immediateWords .staS, registerWords .jmp, registerWords .and, registerWords .lshr,
    registerWords .ashl, registerWords .sub, registerWords .neg, registerWords .or,
    registerWords .not, registerWords .ashr, registerWords .xor, registerWords .mul,
    immediateWords .swi, registerWords .div, registerWords .udiv, registerWords .mod,
    registerWords .umod, registerWords .brk, offsetWords .ldoB, offsetWords .stoB,
    offsetWords .ldoS, offsetWords .stoS, shortWords .inc, shortWords .dec, shortWords .gsr,
    shortWords .ssr, branchWords .beq, branchWords .bne, branchWords .blt, branchWords .bgt,
    branchWords .bltu, branchWords .bgtu, branchWords .bge, branchWords .ble, branchWords .bgeu,
    branchWords .bleu⟩

end Sys2Proof
end

section
/-! PROOF. The execution family: what a fetch answers once its word is read, the three ends of a step, the
decoded instruction in physical mode, and where there is no step. -/

namespace Sys2Proof.Machine

/-! ### The fetch, once its word is read (spec/40_execution_loop.md R131 to R136) -/

/-- The opcode that OPCODE_MAP gives a word. -/
def State.opcodeOf (s : State) (w : Half) : Option Opcode :=
  s.cfg.opcodeMap.find (decodeRecord w).format (decodeRecord w).field

/-- The instruction that an opcode, the fields of its word and its extension make. -/
def instructionOf (op : Opcode) (w : Half) (x : Word) : Instr :=
  Parts.build ⟨op, (decodeRecord w).a, (decodeRecord w).b, (decodeRecord w).value, x⟩

/-- The state `s1` that the read of the word left, after the TRACE call for that word. -/
def State.traceWord (s s1 : State) (w : Half) : State :=
  s1.emit (.instruction (decodeRecord w) s.fetchAddress)

theorem step_of_fetch_ok {s s1 : State} {i : Instr} (hrun : s.run = .running)
    (hres : s.result = none) (h : s.fetch = .ok i s1) : step s = exec i s1 := by
  rw [step, hrun, hres, h]

theorem State.fetchExt_some_long (s : State) : s.fetchExt (some .long) = s.imm32 := rfl

theorem State.fetchExt_some_short (s : State) : s.fetchExt (some .short) = s.off16 := rfl

theorem State.fetchExt_long {s s1 : State} {x : Word}
    (h : s.memRead s.extAddress .long = .ok x s1) :
    s.fetchExt (some .long) = .ok x (s1.emit (.immediate32 x)) := by
  rw [State.fetchExt_some_long, State.imm32, h, Res.ok_andThen]

theorem State.fetchExt_short {s s1 : State} {x : Word}
    (h : s.memRead s.extAddress .short = .ok x s1) :
    s.fetchExt (some .short) = .ok x (s1.emit (.immediate16 (x.setWidth 16))) := by
  rw [State.fetchExt_some_short, State.off16, h, Res.ok_andThen]

/-- A faulting read of an opcode's extension ends the fetch of the extension. -/
theorem State.fetchExt_raise {s s1 : State} {op : Opcode} {wd : Width} {k : FaultKind}
    (hop : op.ext = some wd) (h : s.memRead s.extAddress wd = .raise k s1) :
    s.fetchExt op.ext = .raise k s1 := by
  rcases op.ext_cases with hx | hx | hx <;> rw [hx] at hop ⊢ <;> cases hop
  · rw [State.fetchExt_some_short, State.off16, h, Res.raise_andThen]
  · rw [State.fetchExt_some_long, State.imm32, h, Res.raise_andThen]

section
variable {s s1 : State} {w : Word} (hread : s.memRead s.fetchAddress .short = .ok w s1)
include hread

/-- The word's read keeps the IP, so the extension is read after the word of `s`. -/
theorem State.traceWord_extAddress :
    (s.traceWord s1 (w.setWidth 16)).extAddress = s.extAddress :=
  congrArg (fun ip : BitVec 31 => 2 * (ip.toNat + 1)) (State.memRead_ok_onlyTlb hread).sameControl.ip

theorem State.fetch_illegal (hop : s.opcodeOf (w.setWidth 16) = none) :
    s.fetch = .raise .illegalOpcode (s.traceWord s1 (w.setWidth 16)) := by
  have hcfg : s1.cfg = s.cfg := (State.memRead_ok_onlyTlb hread).sameControl.cfg
  rw [State.opcodeOf, ← hcfg] at hop
  simp only [State.fetch, hread, Res.ok_andThen, State.emit_cfg, hop, State.traceWord]

theorem State.fetch_legal {op : Opcode} (hop : s.opcodeOf (w.setWidth 16) = some op) :
    s.fetch = ((s.traceWord s1 (w.setWidth 16)).fetchExt op.ext).andThen fun x s3 =>
      .ok (instructionOf op (w.setWidth 16) x) s3 := by
  have hcfg : s1.cfg = s.cfg := (State.memRead_ok_onlyTlb hread).sameControl.cfg
  rw [State.opcodeOf, ← hcfg] at hop
  simp only [State.fetch, hread, Res.ok_andThen, State.emit_cfg, hop, State.traceWord,
    instructionOf]

variable (hrun : s.run = .running) (hres : s.result = none) {op : Opcode}
  (hop : s.opcodeOf (w.setWidth 16) = some op)
include hrun hres hop

/-- Where the extension is read too, the step runs the instruction. -/
theorem step_of_fetchExt_ok {x : Word} {s3 : State}
    (hext : (s.traceWord s1 (w.setWidth 16)).fetchExt op.ext = .ok x s3) :
    step s = exec (instructionOf op (w.setWidth 16) x) s3 :=
  step_of_fetch_ok hrun hres (by rw [State.fetch_legal hread hop, hext, Res.ok_andThen])

/-- Where the extension's read faults, the step ends in that fault. -/
theorem step_of_fetchExt_raise {k : FaultKind} {s3 : State}
    (hext : (s.traceWord s1 (w.setWidth 16)).fetchExt op.ext = .raise k s3) :
    step s = .next (s3.takeFault k) :=
  step_of_fetch_raise hrun hres (by rw [State.fetch_legal hread hop, hext, Res.raise_andThen])

end

/-- Settles O39: the word's opcode says which extension is read, and that read how the step goes on. -/
theorem stepFetchesThroughTheAccessor : Obligations.StepFetchesThroughTheAccessor := by
  intro s s1 w op hrun hres hread r s2 hop
  have runs {x s3} := step_of_fetchExt_ok hread hrun hres hop (x := x) (s3 := s3)
  have addr : s2.extAddress = 2 * (s.ip.toNat + 1) := State.traceWord_extAddress hread
  rw [← addr]
  refine ⟨fun hn => runs ?_, fun hl x s3 h => runs ?_, fun hs x s3 h => runs ?_,
    fun wd k s3 hwd h => ?_⟩
  · rw [hn]; rfl
  · rw [hl]; exact State.fetchExt_long h
  · rw [hs]; exact State.fetchExt_short h
  · exact step_of_fetchExt_raise hread hrun hres hop (State.fetchExt_raise hwd h)

/-- Settles O40: the fetch raises before an extension is read, from the state that the read of the word
and the TRACE call left. -/
theorem illegalWordsFaultAtDispatch : Obligations.IllegalWordsFaultAtDispatch := by
  intro s s1 w hrun hres hread hop
  have ho := State.memRead_ok_onlyTlb hread
  obtain ⟨hregs, hsregs, hcs, hmem⟩ := ho.keeps
  exact ⟨_, step_of_fetch_raise hrun hres (State.fetch_illegal hread hop), rfl,
    ho.sameControl.icount, ho.sameControl.run, ho.sameControl.cfg, hregs, hsregs, hcs, hmem, rfl, rfl⟩

/-! ### How a step ends (spec/40_execution_loop.md R138, spec/60_exceptions.md R326) -/

/-- The machine runs, its call has not returned, and ICOUNT is `n`. -/
def RunningAt (n : BitVec 64) (u : State) : Prop :=
  u.result = none ∧ u.run = .running ∧ u.icount = n

/-- The call has returned Halted at the count `n`. -/
def HaltedAt (n : BitVec 64) (u : State) : Prop :=
  u.result = some .halted ∧ u.run = .halted ∧ u.icount = n

/-- The call has returned a fault at the count `n`, and the machine is not Halted. -/
def FaultedAt (n : BitVec 64) (u : State) : Prop :=
  ∃ k, u.result = some (.faulted k) ∧ u.run = .running ∧ u.icount = n

section
variable {P : State → Prop} (K : Kept P) (hemit : ∀ u e, P u → P (u.emit e))
include K hemit

theorem Kept.fetchExt {s : State} (hs : P s) (op : Opcode) : P (s.fetchExt op.ext).after := by
  rcases op.ext_cases with hx | hx | hx <;> rw [hx]
  · exact hs
  · exact Res.andThen_keeps (K.memRead hs _ _) fun _ s1 h1 => hemit s1 _ h1
  · exact Res.andThen_keeps (K.memRead hs _ _) fun _ s1 h1 => hemit s1 _ h1

/-- A fetch fills TLB slots and makes TRACE calls, and does nothing else. -/
theorem Kept.fetch {s : State} (hs : P s) : P s.fetch.after := by
  have h1 := K.memRead hs s.fetchAddress .short
  cases hread : s.memRead s.fetchAddress .short with
  | raise k s1 =>
    rw [hread] at h1
    rw [State.fetch_of_word_raise hread]
    exact h1
  | ok w s1 =>
    rw [hread] at h1
    have h2 : P (s.traceWord s1 (w.setWidth 16)) := hemit s1 _ h1
    cases hop : s.opcodeOf (w.setWidth 16) with
    | none =>
      rw [State.fetch_illegal hread hop]
      exact h2
    | some op =>
      rw [State.fetch_legal hread hop]
      exact Res.andThen_keeps (K.fetchExt hemit h2 op) fun _ _ h3 => h3

end

theorem RunningAt.kept (n : BitVec 64) : Kept (RunningAt n) := ⟨fun _ _ _ h => h, fun _ _ _ h => h⟩

section
variable {n : BitVec 64} {u : State} (h : RunningAt n u)
include h

theorem RunningAt.fetch : RunningAt n u.fetch.after :=
  (RunningAt.kept n).fetch (fun _ _ h1 => h1) h

theorem RunningAt.takeFault (k : FaultKind) : FaultedAt n (u.takeFault k) := by
  obtain ⟨-, hrun, hcount⟩ := h
  exact ⟨k, rfl, hrun, hcount⟩

theorem RunningAt.halt : HaltedAt (n + 1) u.halt := by
  obtain ⟨-, -, hcount⟩ := h
  exact ⟨rfl, rfl, congrArg (· + 1) hcount⟩

/-- Completing counts the instruction, or ends in IpOutOfRange and does not. -/
theorem RunningAt.complete (ip : Int) :
    RunningAt (n + 1) (u.complete ip) ∨ FaultedAt n (u.complete ip) := by
  by_cases hip : 0 ≤ ip ∧ ip < 2 ^ 31
  · rw [u.complete_inRange hip.1 hip.2]
    obtain ⟨hres, hrun, hcount⟩ := h
    exact .inl ⟨hres, hrun, congrArg (· + 1) hcount⟩
  · rw [u.complete_outOfRange (by omega)]
    exact .inr (h.takeFault _)

/-- The three ends of an instruction, which keeps the count up to its end. -/
theorem RunningAt.ends {i : Instr} {t : State} (ht : exec i u = .next t) :
    RunningAt (n + 1) t ∨ (HaltedAt (n + 1) t ∧ i = .brk) ∨ FaultedAt n t := by
  obtain ⟨v, hv, ⟨ip, he⟩ | ⟨k, he⟩ | ⟨hi, he⟩⟩ : EndsIn (RunningAt n) i (exec i u) :=
    exec_ends (RunningAt.kept n) i h (fun _ _ _ _ _ h1 => h1) (fun _ _ _ _ h1 => h1)
      fun _ _ _ _ _ h1 => h1
  all_goals
    rw [he] at ht
    cases ht
  · exact (hv.complete ip).imp_right .inr
  · exact .inr (.inr (hv.takeFault k))
  · exact .inr (.inl ⟨hv.halt, hi⟩)

end

/-- Settles O53: the fetch keeps the count and the run, so its fault, or the end of the fetched
instruction, is the end of the step. -/
theorem completedInstructionsAreCounted : Obligations.CompletedInstructionsAreCounted := by
  intro s t ht
  rcases step_cases s with ⟨-, h⟩ | ⟨-, -, h⟩ | ⟨hrun, hres, hstep⟩
  · rw [h] at ht; cases ht
  · rw [h] at ht; cases ht
  have hfetch : RunningAt s.icount s.fetch.after := RunningAt.fetch ⟨hres, hrun, rfl⟩
  rcases hstep with ⟨i, s1, hf, h⟩ | ⟨k, s1, hf, h⟩ <;> rw [hf] at hfetch
  · rcases hfetch.ends (h.symm.trans ht) with hc | ⟨⟨hres', hrun', hcount⟩, rfl⟩ | hfault
    · exact .inl hc
    · exact .inr (.inl ⟨hres', hrun', hcount, s1, hf⟩)
    · exact .inr (.inr hfault)
  · rw [h] at ht
    cases ht
    exact .inr (.inr (hfetch.takeFault k))

/-! ### The decoded instruction in physical mode -/

/-- The state with the fetch's TRACE calls recorded. -/
def State.traceFetch (s : State) (w : Half) (ext : Option Width) (x : Word) : State :=
  { s with trace := s.trace ++ fetchEvents s w ext x }

theorem State.traceFetch_none (s : State) (w : Half) (x : Word) :
    s.traceFetch w none x = s.traceWord s w := by
  unfold State.traceFetch State.traceWord State.emit fetchEvents
  cases s.cfg.trace <;> simp

theorem State.traceFetch_long (s : State) (w : Half) (x : Word) :
    s.traceFetch w (some .long) x = (s.traceWord s w).emit (.immediate32 x) := by
  unfold State.traceFetch State.traceWord State.emit fetchEvents
  cases s.cfg.trace <;> simp

theorem State.traceFetch_short (s : State) (w : Half) (x : Word) :
    s.traceFetch w (some .short) x = (s.traceWord s w).emit (.immediate16 (x.setWidth 16)) := by
  unfold State.traceFetch State.traceWord State.emit fetchEvents
  cases s.cfg.trace <;> simp

/-- The extension that an instruction holds is the one it was made of, as far as TRACE records it. -/
theorem State.traceFetch_instructionOf (s : State) (w w' : Half) (op : Opcode) (x : Word) :
    s.traceFetch w (instructionOf op w' x).opcode.ext (instructionOf op w' x).parts.ext =
      s.traceFetch w op.ext x := by
  cases op with
  | ldoB | ldoS | ldoL | stoB | stoS | stoL =>
    have off : (BitVec.ofNat 32 (signedField 16 (x.toNat % 65536) % 65536).toNat).setWidth 16 =
        x.setWidth 16 := by
      apply BitVec.eq_of_toNat_eq
      simp only [BitVec.toNat_setWidth, BitVec.toNat_ofNat, signedField]
      split <;> omega
    exact (s.traceFetch_short w _).trans (off ▸ (s.traceFetch_short w x).symm)
  | _ => rfl

/-- The word at `2·IP` of physical memory. -/
def State.codeWord (s : State) : Half :=
  BitVec.ofNat 16 (bytesValue s.cfg.endian (s.mem.readBytes s.fetchAddress 2))

/-- The extension after that word. -/
def State.codeExt (s : State) (ext : Option Width) : Word :=
  BitVec.ofNat 32 (bytesValue s.cfg.endian (s.mem.readBytes s.extAddress (extBytes ext)))

theorem State.codeExt_none (s : State) : s.codeExt none = 0#32 := by
  unfold State.codeExt
  cases s.cfg.endian <;> rfl

theorem State.extAddress_eq (s : State) : s.extAddress = s.fetchAddress + 2 := Nat.mul_succ 2 _

/-- What the decoder makes of bytes at `2·IP` that it uses up. -/
theorem State.decode_code {s : State} {i : Instr} {n : Nat}
    (h : decode s.cfg.opcodeMap s.cfg.endian (s.mem.readBytes s.fetchAddress n) = .ok (i, [])) :
    ∃ op, s.opcodeOf s.codeWord = some op ∧ n = 2 + extBytes op.ext ∧
      i = instructionOf op s.codeWord (s.codeExt op.ext) := by
  obtain ⟨b0, b1, tail, w, op, x, hbytes, hw, hop, hext, hi⟩ := decode_eq_ok h
  obtain ⟨hlen, hrest⟩ := takeExt_eq_some hext
  match n, hbytes with
  | k + 2, rfl =>
    have hk : k = extBytes op.ext := by
      have hle := List.drop_eq_nil_iff.mp hrest.symm
      rw [Memory.readBytes_length] at hle hlen
      exact Nat.le_antisymm hle hlen
    have hx : s.codeExt op.ext = x := by
      rw [takeExt, if_pos hlen, ← hk, List.take_of_length_le (by simp)] at hext
      rw [State.codeExt, State.extAddress_eq, ← hk]
      exact congrArg Prod.fst (Option.some.inj hext)
    obtain rfl : w = s.codeWord := hw
    exact ⟨op, hop, by omega, by rw [hi, hx]; rfl⟩

theorem State.memRead_physical {s : State} {a : Nat} {w : Width} (hm : s.cfg.mode = .physical)
    (hfit : a + w.bytes ≤ s.cfg.memSize) :
    s.memRead a w = .ok (s.mem.load s.cfg.endian a w) s :=
  State.memRead_fits (s.target_physical a .read hm) hfit

theorem State.codeWord_eq_load (s : State) :
    (s.mem.load s.cfg.endian s.fetchAddress .short).setWidth 16 = s.codeWord :=
  BitVec.setWidth_ofNat_of_le (by decide) _

/-- The fetch of an extension that lies in physical memory. -/
theorem State.fetchExt_physical {s : State} (hm : s.cfg.mode = .physical) (w : Half) (op : Opcode)
    (hfit : s.extAddress + extBytes op.ext ≤ s.cfg.memSize) :
    (s.traceWord s w).fetchExt op.ext =
      .ok (s.codeExt op.ext) (s.traceFetch w op.ext (s.codeExt op.ext)) := by
  have hm' : (s.traceWord s w).cfg.mode = .physical := hm
  rcases op.ext_cases with hx | hx | hx <;> rw [hx] at hfit ⊢
  · rw [State.traceFetch_none, State.codeExt_none]; rfl
  · rw [State.traceFetch_short]
    exact State.fetchExt_short (State.memRead_physical hm' hfit)
  · rw [State.traceFetch_long]
    exact State.fetchExt_long (State.memRead_physical hm' hfit)

/-- Settles O38: the bytes that decode are the word and the extension that the step fetches, and TRACE
records the extension that the instruction holds. -/
theorem stepRunsTheDecodedInstruction : Obligations.StepRunsTheDecodedInstruction := by
  intro s i n hrun hres hm hfit hdecode
  obtain ⟨op, hop, rfl, rfl⟩ := State.decode_code hdecode
  have hread := State.memRead_physical (a := s.fetchAddress) (w := .short) hm
    (by simp only [Width.bytes]; omega)
  have hext := State.fetchExt_physical hm s.codeWord op (by rw [s.extAddress_eq]; omega)
  rw [← s.codeWord_eq_load] at hop hext
  rw [step_of_fetchExt_ok hread hrun hres hop hext, s.codeWord_eq_load]
  exact congrArg (exec _) (s.traceFetch_instructionOf _ _ op _).symm

/-! ### No step after the run has ended (spec/40_execution_loop.md R146, R327) -/

theorem step_of_halted {s : State} (h : s.run = .halted) : step s = .fault .halted := by
  rw [step, h]

theorem step_of_returned {s : State} {r : RunResult} (hrun : s.run = .running)
    (hres : s.result = some r) : step s = .fault .runEnded := by
  rw [step, hrun, hres]

/-- A running machine has a next state: an instruction or the fault of its fetch gives one. -/
theorem step_of_running {s : State} (hrun : s.run = .running) (hres : s.result = none) :
    ∃ t, step s = .next t := by
  cases hf : s.fetch with
  | ok i s1 =>
    obtain ⟨t, ht, -⟩ := exec_runs i s1
    exact ⟨t, (step_of_fetch_ok hrun hres hf).trans ht⟩
  | raise k s1 => exact ⟨_, step_of_fetch_raise hrun hres hf⟩

/-- Entered at an even start, the machine runs and its call has not returned. -/
theorem State.enter_running (s : State) {start : Word} (h : start.toNat % 2 = 0) :
    (s.enter start).run = .running ∧ (s.enter start).result = none := by
  rw [State.enter, if_neg (by omega)]
  exact ⟨rfl, rfl⟩

/-- Settles O42: the run state and the result decide whether there is a step. -/
theorem noStepAfterTheRunHasEnded : Obligations.NoStepAfterTheRunHasEnded := by
  refine fun s => ⟨step_of_halted, fun start heven => ?_, fun hrun r => step_of_returned hrun,
    step_of_running⟩
  obtain ⟨hrun, hres⟩ := s.enter_running heven
  exact step_of_running hrun hres

end Sys2Proof.Machine
end

section
/-! PROOF. The arithmetic family: each of these instructions ends in one `writeReg`, whose value is the
rule's integer formula. -/

namespace Sys2Proof.Machine

/-! ### Multiplication (spec/41_arithmetic.md R165 to R167) -/

/-- Settles O9: each product ends in `writeReg`; `aluMul`, `aluMulX` and `aluUmulX` are the halves R165
to R167 name, of the exact product. -/
theorem productsKeepTheirHalf : Obligations.ProductsKeepTheirHalf := by
  intro s a b
  have hmul : exec (.mul a b) s = s.writeReg a (aluMul (s.x a) (s.x b)) 1 := rfl
  have hmulX : exec (.mulX a b) s = s.writeReg a (aluMulX (s.x a) (s.x b)) 1 := rfl
  have humulX : exec (.umulX a b) s = s.writeReg a (aluUmulX (s.x a) (s.x b)) 1 := rfl
  exact ⟨writesRegister_of_writeReg hmul, writesRegister_of_writeReg hmulX,
    writesRegister_of_writeReg humulX⟩

/-! ### Addition and subtraction (spec/41_arithmetic.md R160 to R164) -/

/-- Neg subtracts from zero (R162). -/
theorem aluSub_zero_left (v : Word) : aluSub 0#32 v = u32 (0 - v.toNat) := rfl

/-- Settles O8: each ends in `writeReg` of the integer result modulo 2^32; Neg is the subtraction from
zero. -/
theorem additiveArithmeticWraps : Obligations.AdditiveArithmeticWraps := by
  intro s a b n
  have hadd : exec (.add a b) s = s.writeReg a (aluAdd (s.x a) (s.x b)) 1 := rfl
  have hsub : exec (.sub a b) s = s.writeReg a (aluSub (s.x a) (s.x b)) 1 := rfl
  have hneg : exec (.neg a b) s = s.writeReg a (u32 (0 - (s.x b).toNat)) 1 :=
    congrArg (s.writeReg a · 1) (aluSub_zero_left (s.x b))
  have hinc : exec (.inc a n) s = s.writeReg a (u32 ((s.x a).toNat + n)) 1 := rfl
  have hdec : exec (.dec a n) s = s.writeReg a (u32 ((s.x a).toNat - n)) 1 := rfl
  exact ⟨writesRegister_of_writeReg hadd, writesRegister_of_writeReg hsub,
    writesRegister_of_writeReg hneg, writesRegister_of_writeReg hinc,
    writesRegister_of_writeReg hdec⟩

end Sys2Proof.Machine
end

section
/-! PROOF. The logic family: each of these instructions ends in one `writeReg` of a bitwise operation,
whose bits are the operands' bits combined. -/

namespace Sys2Proof.Machine

/-! ### Bitwise logic (spec/42_logic_extend.md R190 to R193) -/

/-- Settles O11: each ends in `writeReg` of the bitwise operation on `x[A]` and `x[B]`, Not of the
complement of `x[B]` alone; bit `k` of the complement needs `k < 32`, for above the word it has no ones. -/
theorem bitwiseLogicBitByBit : Obligations.BitwiseLogicBitByBit := by
  intro s a b
  have hand : exec (.and a b) s = s.writeReg a (s.x a &&& s.x b) 1 := rfl
  have hor : exec (.or a b) s = s.writeReg a (s.x a ||| s.x b) 1 := rfl
  have hxor : exec (.xor a b) s = s.writeReg a (s.x a ^^^ s.x b) 1 := rfl
  have hnot : exec (.not a b) s = s.writeReg a (~~~ s.x b) 1 := rfl
  refine ⟨_, _, _, _, writesRegister_of_writeReg hand, writesRegister_of_writeReg hor,
    writesRegister_of_writeReg hxor, writesRegister_of_writeReg hnot, fun k hk => ?_⟩
  have hcompl : (~~~ s.x b).getLsbD k = !(s.x b).getLsbD k := by simp [hk]
  exact ⟨BitVec.getLsbD_and, BitVec.getLsbD_or, BitVec.getLsbD_xor, hcompl⟩

end Sys2Proof.Machine
end

section
/-! PROOF. The branch family: what the sign of a scalar says about the comparison, and where a branch
goes. -/

namespace Sys2Proof.Machine

/-! ### The sign of a scalar (spec/10_state.md R39) -/

theorem Cmp3.toInt_eq_zero_iff {c : Cmp3} : c.toInt = 0 ↔ c = .equal := by
  cases c <;> decide

theorem Cmp3.toInt_neg_iff {c : Cmp3} : c.toInt < 0 ↔ c = .less := by
  cases c <;> decide

theorem Cmp3.toInt_pos_iff {c : Cmp3} : c.toInt > 0 ↔ c = .greater := by
  cases c <;> decide

theorem Cmp3.toInt_nonneg_iff {c : Cmp3} : c.toInt ≥ 0 ↔ c ≠ .less :=
  Int.not_lt.symm.trans (not_congr toInt_neg_iff)

theorem Cmp3.toInt_nonpos_iff {c : Cmp3} : c.toInt ≤ 0 ↔ c ≠ .greater :=
  Int.not_lt.symm.trans (not_congr toInt_pos_iff)

/-! ### The ten branches (spec/43_compare_branch.md R211 to R221) -/

/-- An instruction that ends in `branchIf` goes to the displaced word exactly where `p` holds, if its
test `q` says the same. -/
theorem goesTo_of_branchIf {i : Instr} {s : State} {d : Int} {q p : Prop} [Decidable q] [Decidable p]
    (hq : q ↔ p) (h : exec i s = s.branchIf (decide q) d) :
    GoesTo i s (if p then (s.ip.toNat + 1 : Int) + d else s.ip.toNat + 1) := by
  apply goesTo_of_complete
  simp only [h, State.branchIf, decide_eq_true_eq, hq, s.seqIp_eq, Nat.cast_one]

/-- Settles O15: each branch ends in `branchIf` of its test of the scalar's sign. -/
theorem branchesTestTheirScalar : Obligations.BranchesTestTheirScalar := by
  intro s d
  exact ⟨goesTo_of_branchIf Cmp3.toInt_eq_zero_iff rfl,
    goesTo_of_branchIf (not_congr Cmp3.toInt_eq_zero_iff) rfl,
    goesTo_of_branchIf Cmp3.toInt_nonneg_iff rfl, goesTo_of_branchIf Cmp3.toInt_pos_iff rfl,
    goesTo_of_branchIf Cmp3.toInt_nonpos_iff rfl, goesTo_of_branchIf Cmp3.toInt_neg_iff rfl,
    goesTo_of_branchIf Cmp3.toInt_nonneg_iff rfl, goesTo_of_branchIf Cmp3.toInt_pos_iff rfl,
    goesTo_of_branchIf Cmp3.toInt_nonpos_iff rfl, goesTo_of_branchIf Cmp3.toInt_neg_iff rfl⟩

end Sys2Proof.Machine
end

section
/-! PROOF. The jump and call family: where `JumpTo` ends, the words below SP that a call pushes and a
return pops, and the frame in physical memory between the two. -/

namespace Sys2Proof.Machine

/-! ### Jumps (spec/44_jump_call_return.md R230 to R232) -/

theorem jumpTo_even {v : Word} (s : State) (h : v.toNat % 2 = 0) :
    jumpTo v s = .ok (v.toNat / 2 : Nat) s := if_neg (by omega)

theorem jumpTo_odd {v : Word} (s : State) (h : v.toNat % 2 = 1) :
    jumpTo v s = .raise .jumpToUnalignedAddress s := if_pos h

/-- An instruction that ends in `JumpTo` goes to an even target's word. -/
theorem goesTo_of_jumpTo {i : Instr} {s : State} {v : Word} (h : exec i s = finish (jumpTo v s))
    (heven : v.toNat % 2 = 0) : GoesTo i s (v.toNat / 2) := by
  rw [jumpTo_even s heven, finish_ok] at h
  exact goesTo_of_complete h

/-- An instruction that ends in `JumpTo` stops at an odd target. -/
theorem stopsWith_of_jumpTo {i : Instr} {s : State} {v : Word} (h : exec i s = finish (jumpTo v s))
    (hodd : v.toNat % 2 = 1) : StopsWith i s .jumpToUnalignedAddress := by
  rw [jumpTo_odd s hodd, finish_raise] at h
  exact stopsWith_of_takeFault h

/-- Settles O17: both instructions are `JumpTo`, which tests the target's parity and writes nothing. -/
theorem jumpsReachEvenTargets : Obligations.JumpsReachEvenTargets := by
  intro s a v
  have hjmp : exec (.jmp a) s = finish (jumpTo (s.x a) s) := rfl
  have hjmpa : exec (.jmpa v) s = finish (jumpTo v s) := rfl
  exact ⟨goesTo_of_jumpTo hjmp, stopsWith_of_jumpTo hjmp, goesTo_of_jumpTo hjmpa,
    stopsWith_of_jumpTo hjmpa⟩

/-! ### The words below SP (R233) -/

theorem u32_congr {a b : Int} (h : a % 2 ^ 32 = b % 2 ^ 32) : u32 a = u32 b :=
  BitVec.eq_of_toNat_eq (by simp only [u32, BitVec.toNat_ofInt]; omega)

/-- The address `k` words below SP, where the `k`-th of successive pushes stores. -/
def State.below (s : State) (k : Nat) : Word := u32 ((s.x sp).toNat - 4 * k)

theorem State.below_zero (s : State) : s.below 0 = s.x sp := by simp [State.below, u32]

theorem State.below_toNat (s : State) (k : Nat) :
    ((s.below k).toNat : Int) = ((s.x sp).toNat - 4 * k) % 2 ^ 32 := by
  rw [State.below, u32, BitVec.toNat_ofInt]
  omega

theorem State.u32_below_sub (s : State) (k : Nat) :
    u32 ((s.below k).toNat - 4) = s.below (k + 1) :=
  u32_congr (by rw [s.below_toNat]; omega)

theorem State.u32_below_add (s : State) (k : Nat) :
    u32 ((s.below (k + 1)).toNat + 4) = s.below k :=
  u32_congr (by rw [s.below_toNat]; omega)

/-- The last two words of a frame do not overlap, even where SP wraps below 0. -/
theorem State.below_two_apart_three (s : State) :
    (s.below 2).toNat + Width.long.bytes ≤ (s.below 3).toNat ∨
      (s.below 3).toNat + Width.long.bytes ≤ (s.below 2).toNat := by
  have h2 := s.below_toNat 2
  have h3 := s.below_toNat 3
  rw [show Width.long.bytes = 4 from rfl]
  omega

/-- The three words below SP lie inside memory. -/
def State.FrameFits (s : State) : Prop :=
  ∀ k < 3, (s.below (k + 1)).toNat + Width.long.bytes ≤ s.cfg.memSize

/-! ### Push and pop in physical mode (spec/40_execution_loop.md R141, R142) -/

theorem State.memWrite_physical {s : State} {a : Nat} {w : Width} (v : Word)
    (hm : s.cfg.mode = .physical) (hfit : a + w.bytes ≤ s.cfg.memSize) :
    s.memWrite a w v = .ok () (s.setMem (s.mem.store s.cfg.endian a w v)) :=
  State.memWrite_fits v (s.target_physical a .write hm) hfit

/-- SP at `a`, and the long `v` stored there. -/
def State.pushAt (s : State) (a v : Word) : State :=
  (s.setX sp a).setMem (s.mem.store s.cfg.endian a.toNat .long v)

theorem State.pushAt_sp (s : State) (a v : Word) : (s.pushAt a v).x sp = a :=
  s.setX_x_same sp a

/-- The state after `CallFrame(r)`: three pushes, then FP set to SP. -/
def State.withFrame (s : State) (r : Nat) : State :=
  (((s.pushAt (s.below 1) 0#32).pushAt (s.below 2) (BitVec.ofNat 32 r)).pushAt (s.below 3)
    (s.x fp)).setX fp (s.below 3)

section
variable {s : State} (hm : s.cfg.mode = .physical) (hfit : s.FrameFits)
include hm hfit

/-- A push from `k` words below the SP of `s` stores one word lower. -/
theorem State.push32_physical {t : State} {k : Nat} (v : Word) (hk : k < 3)
    (hcfg : t.cfg = s.cfg) (hsp : t.x sp = s.below k) :
    t.push32 v = .ok () (t.pushAt (s.below (k + 1)) v) := by
  have hfit' := hfit k hk
  rw [← hcfg] at hm hfit'
  rw [State.push32_eq, hsp, s.u32_below_sub]
  exact State.memWrite_physical v hm hfit'

/-- A pop from `k + 1` words below the SP of `s` loads there and leaves SP one word higher. -/
theorem State.pop32_physical {t : State} {k : Nat} (hk : k < 3) (hcfg : t.cfg = s.cfg)
    (hsp : t.x sp = s.below (k + 1)) :
    t.pop32 = .ok (t.mem.load s.cfg.endian (s.below (k + 1)).toNat .long)
      (t.setX sp (s.below k)) := by
  have hfit' := hfit k hk
  rw [← hcfg] at hm hfit' ⊢
  rw [State.pop32, hsp, State.memRead_physical hm hfit', Res.ok_andThen, hsp, s.u32_below_add]

theorem State.callFrame_physical (r : Nat) : s.callFrame r = .ok () (s.withFrame r) := by
  rw [State.callFrame, State.push32_physical hm hfit _ (k := 0) (by decide), Res.ok_andThen,
    State.push32_physical hm hfit _ (k := 1) (by decide), Res.ok_andThen,
    State.push32_physical hm hfit _ (k := 2) (by decide), Res.ok_andThen, State.pushAt_sp,
    State.withFrame]
  -- What each push asks of the parameters and of SP, the last push first.
  · rfl
  · exact State.pushAt_sp _ _ _
  · rfl
  · exact State.pushAt_sp _ _ _
  · rfl
  · exact s.below_zero.symm

/-- Ret with FP three words below the SP of `s`: FP and the next IP are the words there and one above,
and SP is that of `s`. -/
theorem exec_ret_physical {u : State} (hcfg : u.cfg = s.cfg) (hfp : u.x fp = s.below 3) :
    ∃ v : State, exec .ret u =
        .next (v.complete (u.mem.load s.cfg.endian (s.below 2).toNat .long).toNat) ∧
      v.x sp = s.x sp ∧ v.x fp = u.mem.load s.cfg.endian (s.below 3).toNat .long ∧
      v.icount = u.icount := by
  have hret : exec .ret u = finish _ := rfl
  rw [State.pop32_physical hm hfit (k := 2) (by decide), Res.ok_andThen,
    State.pop32_physical hm hfit (k := 1) (by decide), Res.ok_andThen,
    State.pop32_physical hm hfit (k := 0) (by decide), Res.ok_andThen, finish_ok] at hret
  · refine ⟨_, hret, ?_, ?_, rfl⟩
    · exact (State.setX_x_same _ sp _).trans s.below_zero
    · simp [fp, sp]
  -- What each pop asks of the parameters and of SP, the last pop first.
  · exact hcfg
  · exact State.setX_x_same _ sp _
  · exact hcfg
  · simp [fp, sp]
  · exact hcfg
  · exact (State.setX_x_same _ sp _).trans hfp

end

/-! ### From the call to the return (R234 to R237) -/

/-- Both calls push a frame with the next instruction's word index and then jump. -/
theorem exec_call {i : Instr} {words : Nat} (s : State)
    (hi : (∃ a, i = .jsr a ∧ words = 1) ∨ (∃ v, i = .jsra v) ∧ words = 3) :
    ∃ v, exec i s =
      finish ((s.callFrame (s.ip.toNat + words)).andThen fun _ s1 => jumpTo v s1) := by
  obtain ⟨a, rfl, rfl⟩ | ⟨⟨v, rfl⟩, rfl⟩ := hi
  · exact ⟨s.x a, rfl⟩
  · exact ⟨v, rfl⟩

/-- However an instruction ends, its end keeps the registers and memory. -/
theorem finish_keeps {r : Res Int} {t : State} (h : finish r = .next t) :
    KeepsRegs r.after t [] ∧ KeepsMemory r.after t := by
  cases r with
  | ok n s =>
    injection h with h
    obtain ⟨hregs, -, -, hmem, -⟩ := s.complete_keeps n
    rw [← h]
    exact ⟨hregs, hmem⟩
  | raise k s =>
    injection h with h
    rw [← h]
    exact ⟨fun _ _ => rfl, fun _ => rfl⟩

/-- A call in physical mode leaves FP at its frame and the frame in memory, wherever it jumps. -/
theorem call_leaves_frame {i : Instr} {s t : State} {words : Nat} (hm : s.cfg.mode = .physical)
    (hfit : s.FrameFits) (hi : (∃ a, i = .jsr a ∧ words = 1) ∨ (∃ v, i = .jsra v) ∧ words = 3)
    (h : exec i s = .next t) :
    t.x fp = s.below 3 ∧ KeepsMemory (s.withFrame (s.ip.toNat + words)) t := by
  obtain ⟨v, hcall⟩ := exec_call s hi
  rw [hcall, State.callFrame_physical hm hfit, Res.ok_andThen] at h
  obtain ⟨hregs, hmem⟩ := finish_keeps h
  rw [jumpTo_after] at hregs hmem
  exact ⟨(hregs fp List.not_mem_nil).trans (State.setX_x_same _ fp _), hmem⟩

/-- The old FP is the last word pushed. -/
theorem State.load_withFrame_fp (s : State) (r : Nat) :
    (s.withFrame r).mem.load s.cfg.endian (s.below 3).toNat .long = s.x fp :=
  Memory.load_store_long _ _ _ _

/-- The push of the old FP leaves the return IP as it was pushed. -/
theorem State.load_withFrame_returnIp (s : State) (r : Nat) :
    (s.withFrame r).mem.load s.cfg.endian (s.below 2).toNat .long = BitVec.ofNat 32 r :=
  (Memory.load_store_outside _ _ _ _ _ _ _ s.below_two_apart_three).trans
    (Memory.load_store_long _ _ _ _)

/-- Settles O24: FP and the frame words are as the call left them, so Ret pops the FP and the return IP
that the call pushed. -/
theorem returnRestoresTheCaller : Obligations.ReturnRestoresTheCaller := by
  intro s t u i words hm hi hcall hip q hq1 hq2 hq3 hcfg hfp hbytes
  have hfit : s.FrameFits := by
    intro k hk
    interval_cases k
    · exact hq1
    · exact hq2
    · exact hq3
  obtain ⟨hcallFp, hmem⟩ := call_leaves_frame hm hfit hi hcall
  have hload (k : Nat) (hk : k ∈ [1, 2, 3]) :
      u.mem.load s.cfg.endian (s.below k).toNat .long =
        (s.withFrame (s.ip.toNat + words)).mem.load s.cfg.endian (s.below k).toNat .long :=
    Memory.load_congr _ _ _ fun j hj => (hbytes k hk j hj).trans (hmem _)
  obtain ⟨v, hret, hvsp, hvfp, hcount⟩ := exec_ret_physical hm hfit hcfg (hfp.trans hcallFp)
  rw [hload 2 (by simp), s.load_withFrame_returnIp, BitVec.toNat_ofNat,
    Nat.mod_eq_of_lt (by omega), State.complete_inRange _ (by omega) (by omega)] at hret
  refine ⟨_, hret, hvsp, ?_, ?_, congrArg (· + 1) hcount⟩
  · exact hvfp.trans ((hload 3 (by simp)).trans (s.load_withFrame_fp _))
  · exact Int.ofNat.inj (v.advance_ip_toNat (by omega) (by omega))

end Sys2Proof.Machine
end

section
/-! PROOF. The stack family: what Push and Pop do in physical memory, and that the second undoes the
first. -/

namespace Sys2Proof.Machine

/-! ### Push and Pop in physical mode (spec/45_stack.md R250, R251) -/

theorem u32_sub_add_four (v : Word) : u32 ((u32 (v.toNat - 4)).toNat + 4) = v := by
  apply BitVec.eq_of_toNat_eq
  simp only [u32, BitVec.toNat_ofInt]
  omega

/-- The pointer register `a` at `p`, and the long `v` stored there; `State.pushAt` is the case of SP. -/
def State.pushVia (s : State) (a : Reg) (p v : Word) : State :=
  (s.setX a p).setMem (s.mem.store s.cfg.endian p.toNat .long v)

theorem State.pushVia_x (s : State) (a : Reg) (p v : Word) (r : Reg) :
    (s.pushVia a p v).x r = if r = a then p else s.x r := s.setX_x a p r

theorem State.load_pushVia (s : State) (a : Reg) (p v : Word) :
    (s.pushVia a p v).mem.load s.cfg.endian p.toNat .long = v :=
  Memory.load_store_long _ _ _ _

/-- `v` popped into `x[b]` and the pointer register `a` left at `p`. -/
def State.popVia (s : State) (a b : Reg) (p v : Word) : State := (s.setX b v).setX a p

theorem State.popVia_x (s : State) (a b : Reg) (p v : Word) (r : Reg) :
    (s.popVia a b p v).x r = if r = a then p else if r = b then v else s.x r := by
  rw [State.popVia, State.setX_x, State.setX_x]

section
variable {s : State} (hm : s.cfg.mode = .physical) (hip : s.ip.toNat + 1 < 2 ^ 31)
include hm hip

theorem exec_push_physical (a b : Reg)
    (hfit : (u32 ((s.x a).toNat - 4)).toNat + Width.long.bytes ≤ s.cfg.memSize) :
    exec (.push a b) s =
      .next ((s.pushVia a (u32 ((s.x a).toNat - 4)) (s.x b)).advance (s.seqIp 1)) := by
  have hpush : exec (.push a b) s = finish ((s.setX a (u32 ((s.x a).toNat - 4))).storeVal
    (u32 ((s.x a).toNat - 4)).toNat .long (s.x b) 1) := rfl
  rw [hpush, State.storeVal, State.memWrite_physical (s := s.setX a _) _ hm hfit, Res.ok_andThen,
    finish_ok]
  exact congrArg _ ((s.complete_seq _ 1).1 hip).1

theorem exec_pop_physical (a b : Reg) (hfit : (s.x a).toNat + Width.long.bytes ≤ s.cfg.memSize) :
    exec (.pop a b) s =
      .next ((s.popVia a b (u32 ((s.x a).toNat + 4))
        (s.mem.load s.cfg.endian (s.x a).toNat .long)).advance (s.seqIp 1)) := by
  have hpop : exec (.pop a b) s = finish ((s.memRead (s.x a).toNat .long).andThen fun v s1 =>
    .ok (s.seqIp 1) (s1.popVia a b (u32 ((s.x a).toNat + 4)) v)) := rfl
  rw [hpop, State.memRead_physical hm hfit, Res.ok_andThen, finish_ok]
  exact congrArg _ ((s.complete_seq _ 1).1 hip).1

end

/-! ### The pair (R252) -/

/-- Settles O27: the Pop reads the long that the Push stored where it left the pointer, and adds the 4
that the Push took off, modulo 2^32. -/
theorem popUndoesPush : Obligations.PopUndoesPush := by
  intro s t a b c hm hca hip hfit hpush
  rw [exec_push_physical hm (by omega) a b hfit] at hpush
  generalize hp : u32 ((s.x a).toNat - 4) = p at hpush hfit
  injection hpush with ht
  have htip : t.ip.toNat = s.ip.toNat + 1 := by
    rw [← ht]; exact ((s.complete_seq _ 1).1 (by omega)).2
  have htx (r : Reg) : t.x r = if r = a then p else s.x r := by
    rw [← ht]; exact s.pushVia_x a p (s.x b) r
  have hta : t.x a = p := by rw [htx, if_pos rfl]
  have hcfg : t.cfg = s.cfg := by rw [← ht]; rfl
  have hload : t.mem.load t.cfg.endian p.toNat .long = s.x b := by
    rw [hcfg, ← ht]; exact s.load_pushVia a p _
  have hback : u32 (p.toNat + 4) = s.x a := by rw [← hp]; exact u32_sub_add_four _
  have hpop := exec_pop_physical (s := t) (by rwa [hcfg]) (by omega) a c
    (by rw [hta, hcfg]; exact hfit)
  rw [hta, hload, hback] at hpop
  have hux := t.popVia_x a c (s.x a) (s.x b)
  have huip := ((t.complete_seq (t.popVia a c (s.x a) (s.x b)) 1).1 (by omega)).2
  refine ⟨_, hpop, ?_, ?_, fun r hr => ?_, fun _ => rfl, by omega, rfl⟩
  · exact (hux a).trans (if_pos rfl)
  · exact (hux c).trans (by rw [if_neg hca, if_pos rfl])
  · have hrc : r ≠ c := by simpa using hr
    rw [State.advance_x, hux, htx]
    by_cases hra : r = a
    · rw [if_pos hra, hra]
    · rw [if_neg hra, if_neg hrc, if_neg hra]

end Sys2Proof.Machine
end

section
/-! PROOF. The store family: what an instruction that ends in a store keeps, and where each of the nine
stores writes. -/

namespace Sys2Proof.Machine

/-! ### Stores (spec/46_load_store.md R261, R263) -/

/-- An instruction that ends in a store at `ea` stores to it: translation changes the TLB at most, the
store the bytes of memory, and completing neither. -/
theorem storesTo_of_storeVal {i : Instr} {s : State} {ea : Nat} {w : Width} {v : Word} {words : Nat}
    (h : exec i s = finish (s.storeVal ea w v words)) : StoresTo i s ea w v words := by
  constructor
  · intro p s1 ht hfit
    have ho := State.target_ok_onlyTlb ht
    rw [State.storeVal, State.memWrite_fits v ht hfit, Res.ok_andThen, finish_ok] at h
    generalize hm : s.mem.store s.cfg.endian p w v = m at h
    have hcontrol : SameControl s (s1.setMem m) := ho.sameControl.trans (.setMem s1 m)
    obtain ⟨hregs, hsregs, hcs, -⟩ := ho.keeps
    obtain ⟨hregs', hsregs', hcs', -, htlb'⟩ := (s1.setMem m).complete_keeps (s.seqIp words)
    obtain ⟨-, -, -, hmem', -⟩ := (s1.setMem m).complete_fields (s.seqIp words)
    exact ⟨_, h, s.setMem_storesAt _ p w v (hmem'.trans hm.symm),
      fun r hr => (hregs' r hr).trans (hregs r hr), fun j => (hsregs' j).trans (hsregs j),
      hcs'.trans hcs, htlb', hcontrol.complete_seq words⟩
  · intro k s1 hwrite
    have ho := State.memWrite_raise_onlyTlb hwrite
    obtain ⟨hregs, hsregs, hcs, hmem⟩ := ho.keeps
    rw [State.storeVal, hwrite, Res.raise_andThen, finish_raise] at h
    exact ⟨_, h, hregs, hsregs, hcs, hmem, rfl, ho.sameControl.faulted k⟩

/-- A register+offset store whose sum is the address `ea` stores to it. -/
theorem storesTo_of_offset {i : Instr} {s : State} {a : Reg} {off : Int} {ea : Nat} {w : Width}
    {v : Word} {words : Nat} (hea : (ea : Int) = (s.x a).toNat + off) (hlt : ea < 2 ^ 32)
    (h : exec i s = finish ((s.eaOffset a off).andThen fun ea s1 => s1.storeVal ea w v words)) :
    StoresTo i s ea w v words := by
  rw [State.eaOffset_inRange hea hlt, Res.ok_andThen] at h
  exact storesTo_of_storeVal h

/-- Settles O29: each of the nine ends in a store at its address, register-indirect, absolute or
register+offset. -/
theorem storesWriteTheirAddress : Obligations.StoresWriteTheirAddress := by
  intro s a b v off ea
  refine ⟨?stB, ?stS, ?stL, ?staB, ?staS, ?staL, fun hea hlt => ⟨?stoB, ?stoS, ?stoL⟩⟩
  case stB | stS | stL | staB | staS | staL => exact storesTo_of_storeVal rfl
  case stoB | stoS | stoL => exact storesTo_of_offset hea hlt rfl

end Sys2Proof.Machine
end

section
/-! PROOF. The words of the opcode map: the opcode field alone decides which instruction a word is, and
which fields of the default map name none. -/

namespace Sys2Proof

open Machine

/-! ### The opcode field decides (spec/30_encoding.md R111) -/

/-- Settles O4: the value that a lawful map gives an opcode fits the field of its format, so the word
lies in the range of that format, and its record holds that format and value. -/
theorem unusedBitsNeverMakeAWordIllegal : Obligations.UnusedBitsNeverMakeAWordIllegal := by
  intro m op w hm hw
  suffices h : (decodeRecord w).format = op.format ∧ (decodeRecord w).field = m.valueOf op by
    rw [h.1, h.2]
    exact hm.find_valueOf op
  have hadmits := hm.admits op
  cases hf : op.format <;>
    simp only [hf, Format.admits, Bool.and_eq_true, decide_eq_true_eq] at hw hadmits
  case register =>
    rw [decodeRecord_register (by omega)]
    exact ⟨rfl, hw⟩
  case shortImm =>
    rw [decodeRecord_shortImm (by omega) (by omega)]
    exact ⟨rfl, hw⟩
  case branch =>
    rw [decodeRecord_branch (by omega)]
    exact ⟨rfl, hw⟩

/-! ### The unassigned values of the default map (spec/30_encoding.md R109, R112) -/

theorem standard_find_register : ∀ k < 0x80,
    (OpcodeMap.standard.find .register k = none ↔
      k = 0 ∨ (0x16 ≤ k ∧ k ≤ 0x18) ∨ 0x3A ≤ k) := by decide +kernel

theorem standard_find_shortImm : ∀ k < 0xC, 0x8 ≤ k →
    OpcodeMap.standard.find .shortImm k ≠ none := by decide +kernel

theorem standard_find_branch : ∀ k < 0x40, 0x30 ≤ k →
    (OpcodeMap.standard.find .branch k = none ↔ 0x3A ≤ k) := by decide +kernel

/-- Settles O5: in each of the three ranges of words, the field is one of the format's values, and the
default map leaves the listed ones without an opcode. -/
theorem illegalWordsOfTheDefaultMap : Obligations.IllegalWordsOfTheDefaultMap := by
  intro w
  have hw := w.isLt
  rcases Nat.lt_or_ge w.toNat 0x8000 with hreg | hge
  · have h := standard_find_register (w.toNat / 256) (by omega)
    rw [decodeRecord_register hreg, h]
    omega
  rcases Nat.lt_or_ge w.toNat 0xC000 with hshort | hbranch
  · have h := standard_find_shortImm (w.toNat / 4096) (by omega) (by omega)
    rw [decodeRecord_shortImm hge hshort]
    exact iff_of_false h (by omega)
  · have h := standard_find_branch (w.toNat / 1024) (by omega) (by omega)
    rw [decodeRecord_branch hbranch, h]
    omega

/-- Settles O7: the five legal words belong to the forms of their opcodes' words, and `0x7F` is no
register opcode. -/
theorem wordsOfTheManualDecode : Obligations.WordsOfTheManualDecode :=
  ⟨(registerWords .add) 2 3, (immediateWords .ldiL) 2 0 0x12345678, (offsetWords .stoS) 2 3 0xFFFE,
    (branchWords .bne) 0x3FC, (shortWords .ssr) 3 9, by decide +kernel⟩

end Sys2Proof
end

section
/-! PROOF. The immediate, move and system family: the loads of an immediate, the special registers, the
software interrupt and Nop. -/

namespace Sys2Proof.Machine

/-! ### Immediates and move (spec/47_immediate_move.md R290 to R293) -/

/-- Masking with `n` ones leaves the low `n` bits. -/
theorem and_ones_eq_ofNat (v : Word) {n : Nat} (hn : n ≤ 32) :
    v &&& BitVec.ofNat 32 (2 ^ n - 1) = BitVec.ofNat 32 (v.toNat % 2 ^ n) := by
  have hv := Nat.lt_of_le_of_lt (Nat.mod_le v.toNat (2 ^ n)) v.isLt
  have hpow : 2 ^ n ≤ 2 ^ 32 := Nat.pow_le_pow_right (by decide) hn
  have hones : 2 ^ n - 1 < 2 ^ 32 := by have := Nat.two_pow_pos n; omega
  apply BitVec.eq_of_toNat_eq
  rw [BitVec.toNat_and, BitVec.toNat_ofNat, BitVec.toNat_ofNat, Nat.mod_eq_of_lt hones,
    Nat.mod_eq_of_lt hv, Nat.and_two_pow_sub_one_eq_mod]

/-- Settles O33: each ends in `writeReg`; the narrow loads mask the immediate with 8 or 16 ones. -/
theorem immediatesAndMovesWriteA : Obligations.ImmediatesAndMovesWriteA := by
  intro s a b v
  have hldiL : exec (.ldiL a v) s = s.writeReg a v 3 := rfl
  have hldiB : exec (.ldiB a v) s = s.writeReg a (BitVec.ofNat 32 (v.toNat % 2 ^ 8)) 3 :=
    congrArg (s.writeReg a · 3) (and_ones_eq_ofNat v (n := 8) (by decide))
  have hldiS : exec (.ldiS a v) s = s.writeReg a (BitVec.ofNat 32 (v.toNat % 2 ^ 16)) 3 :=
    congrArg (s.writeReg a · 3) (and_ones_eq_ofNat v (n := 16) (by decide))
  have hmov : exec (.mov a b) s = s.writeReg a (s.x b) 1 := rfl
  exact ⟨writesRegister_of_writeReg hldiL, writesRegister_of_writeReg hldiB,
    writesRegister_of_writeReg hldiS, writesRegister_of_writeReg hmov⟩

/-! ### Special registers (spec/48_system.md R300, R301) -/

section
variable (s : State) (a : Reg)

theorem exec_gsr_valid (j : Fin 10) : exec (.gsr a j.val) s = s.writeReg a (s.sr j) 1 := by
  simp only [exec, execGsr, specialIndex_val]

theorem exec_gsr_invalid {n : Nat} (h : 10 ≤ n) :
    exec (.gsr a n) s = .next (s.takeFault .specialRegisterIndexInvalid) := by
  simp only [exec, execGsr, specialIndex_none h]

theorem exec_ssr_valid (j : Fin 10) :
    exec (.ssr a j.val) s = .next ((s.setSr j (s.x a)).complete (s.seqIp 1)) := by
  simp only [exec, execSsr, specialIndex_val]

theorem exec_ssr_invalid {n : Nat} (h : 10 ≤ n) :
    exec (.ssr a n) s = .next (s.takeFault .specialRegisterIndexInvalid) := by
  simp only [exec, execSsr, specialIndex_none h]

end

theorem State.setSr_sr_same (s : State) (j : Fin 10) (v : Word) : (s.setSr j v).sr j = v := by simp

theorem State.setSr_sr_other (s : State) {j l : Fin 10} (v : Word) (h : l ≠ j) :
    (s.setSr j v).sr l = s.sr l := by simp [h]

/-- Settles O34: a valid Gsr ends in `writeReg`, a valid Ssr completes after its one write, which keeps
every field that completing reads; an invalid index raises before any write. -/
theorem specialRegistersArePlainStorage : Obligations.SpecialRegistersArePlainStorage := by
  intro s a j n
  refine ⟨writesRegister_of_writeReg (exec_gsr_valid s a j), ⟨_, exec_ssr_valid s a j, ?_⟩, fun hn =>
    ⟨stopsWith_of_takeFault (exec_gsr_invalid s a hn),
      stopsWith_of_takeFault (exec_ssr_invalid s a hn)⟩⟩
  obtain ⟨hregs, hsregs, hcs, hmem, htlb⟩ := (s.setSr j (s.x a)).complete_keeps (s.seqIp 1)
  have hend := (SameControl.refl (s.setSr j (s.x a))).complete_seq 1
  exact ⟨(hsregs j).trans (s.setSr_sr_same j _), fun l hl => (hsregs l).trans (s.setSr_sr_other _ hl),
    hregs, hcs, hmem, htlb, hend⟩

/-! ### The software interrupt and Nop (spec/48_system.md R302, R304) -/

/-- Settles O35: Swi is one write of special register 3 and then the fault, which writes none of what is
claimed to be kept. -/
theorem swiStoresItsNumberThenFaults : Obligations.SwiStoresItsNumberThenFaults := fun s v =>
  ⟨(s.setSr srSwi v).takeFault .softwareInterrupt, rfl, s.setSr_sr_same srSwi v,
    fun _ hl => s.setSr_sr_other v hl, fun _ _ => rfl, rfl, fun _ => rfl, rfl, rfl, rfl, rfl, rfl,
    rfl⟩

/-- Settles O37: Nop completes at the next word and does nothing before. -/
theorem nopOnlyAdvances : Obligations.NopOnlyAdvances := fun s =>
  have hnop : exec .nop s = .next (s.complete (s.seqIp 1)) := rfl
  goesTo_of_complete (hnop.trans (by rw [s.seqIp_eq, Nat.cast_one]))

end Sys2Proof.Machine
end

section
/-! PROOF. The division and shift family: each of these instructions ends in `writeRegOr`, whose result
says whether it writes or stops. -/

namespace Sys2Proof.Machine

section
variable {i : Instr} {s : State} {a : Reg} {r : Except FaultKind Word} {words : Nat}
  (h : exec i s = s.writeRegOr a r words)
include h

/-- An instruction whose operation gives a value writes it. -/
theorem writesRegister_of_writeRegOr {v : Word} (hr : r = .ok v) : WritesRegister i s a v words := by
  subst hr
  exact writesRegister_of_writeReg h

/-- An instruction whose operation raises a fault stops with it. -/
theorem stopsWith_of_writeRegOr {k : FaultKind} (hr : r = .error k) : StopsWith i s k := by
  subst hr
  exact stopsWith_of_takeFault h

end

/-! ### Division (spec/41_arithmetic.md R168 to R171, R175) -/

section
variable {a b : Word}

theorem aluDiv_overflow : aluDiv int32Min minusOne = .ok int32Min := by decide

theorem aluMod_overflow_fault : aluMod .fault int32Min minusOne = .error .remainderOverflow := by
  decide

theorem aluMod_overflow_zero : aluMod .zero int32Min minusOne = .ok 0#32 := by decide

theorem aluDiv_quotient (hb : b ≠ 0#32) (h : ¬ (a = int32Min ∧ b = minusOne)) :
    aluDiv a b = .ok (u32 ((s32 a).tdiv (s32 b))) := (if_neg hb).trans (if_neg h)

theorem aluMod_remainder (o : ModOverflow) (hb : b ≠ 0#32) (h : ¬ (a = int32Min ∧ b = minusOne)) :
    aluMod o a b = .ok (u32 ((s32 a).tmod (s32 b))) := (if_neg hb).trans (if_neg h)

end

/-- Settles O10: each ends in `writeRegOr`, of an operation that tests the divisor first and then, where
signed, the pair INT32_MIN and -1. -/
theorem divisionAndRemainder : Obligations.DivisionAndRemainder := by
  intro s a b
  have hdiv : exec (.div a b) s = s.writeRegOr a (aluDiv (s.x a) (s.x b)) 1 := rfl
  have hudiv : exec (.udiv a b) s = s.writeRegOr a (aluUdiv (s.x a) (s.x b)) 1 := rfl
  have hmod : exec (.mod a b) s = s.writeRegOr a (aluMod s.cfg.modOverflow (s.x a) (s.x b)) 1 := rfl
  have humod : exec (.umod a b) s = s.writeRegOr a (aluUmod (s.x a) (s.x b)) 1 := rfl
  refine ⟨fun hb => ⟨?_, ?_, ?_, ?_⟩, fun hb => ⟨?_, ?_⟩, fun ⟨ha, hb⟩ => ⟨?_, fun ho => ?_,
    fun ho => ?_⟩, fun hb hpair => ⟨?_, ?_⟩⟩
  · exact stopsWith_of_writeRegOr hdiv (if_pos hb)
  · exact stopsWith_of_writeRegOr hudiv (if_pos hb)
  · exact stopsWith_of_writeRegOr hmod (if_pos hb)
  · exact stopsWith_of_writeRegOr humod (if_pos hb)
  · exact writesRegister_of_writeRegOr hudiv (if_neg hb)
  · exact writesRegister_of_writeRegOr humod (if_neg hb)
  · exact writesRegister_of_writeRegOr hdiv (by rw [ha, hb]; exact aluDiv_overflow)
  · exact stopsWith_of_writeRegOr hmod (by rw [ha, hb, ho]; exact aluMod_overflow_fault)
  · exact writesRegister_of_writeRegOr hmod (by rw [ha, hb, ho]; exact aluMod_overflow_zero)
  · exact writesRegister_of_writeRegOr hdiv (aluDiv_quotient hb hpair)
  · exact writesRegister_of_writeRegOr hmod (aluMod_remainder _ hb hpair)

/-! ### Shifts (spec/42_logic_extend.md R194 to R197) -/

section
variable {o : ShiftOversize} {b : Word} {n : Nat}

theorem shiftAmount_ok (h : b.toNat < 32 ∧ n = b.toNat ∨
    32 ≤ b.toNat ∧ o = .mask5 ∧ n = b.toNat % 32) : shiftAmount o b = .ok n := by
  obtain ⟨hlt, rfl⟩ | ⟨hle, rfl, rfl⟩ := h
  · exact if_neg (by omega)
  · have hmask : (b &&& 31#32).toNat = b.toNat % 32 :=
      (BitVec.toNat_and ..).trans (Nat.and_two_pow_sub_one_eq_mod b.toNat 5)
    exact (if_pos hle).trans (congrArg Except.ok hmask)

theorem shiftAmount_fault (h : 32 ≤ b.toNat) :
    shiftAmount .fault b = .error .shiftAmountOutOfRange := if_pos h

theorem aluShift_ok (f : Nat → Word) (h : shiftAmount o b = .ok n) :
    aluShift o f b = .ok (f n) := by rw [aluShift, h]

theorem aluShift_error (f : Nat → Word) {k : FaultKind} (h : shiftAmount o b = .error k) :
    aluShift o f b = .error k := by rw [aluShift, h]

end

/-- Settles O12: each ends in `writeRegOr` of its shift by the amount of R194, or of that amount's
fault. -/
theorem shiftsByTheAmountInB : Obligations.ShiftsByTheAmountInB := by
  intro s a b n
  have hashl : exec (.ashl a b) s = s.writeRegOr a (aluShift s.cfg.shiftOversize
    (fun n => u32 ((s.x a).toNat * 2 ^ n)) (s.x b)) 1 := rfl
  have hashr : exec (.ashr a b) s = s.writeRegOr a (aluShift s.cfg.shiftOversize
    (fun n => u32 (s32 (s.x a) / 2 ^ n)) (s.x b)) 1 := rfl
  have hlshr : exec (.lshr a b) s = s.writeRegOr a (aluShift s.cfg.shiftOversize
    (fun n => BitVec.ofNat 32 ((s.x a).toNat / 2 ^ n)) (s.x b)) 1 := rfl
  refine ⟨fun h => ?_, fun hle ho => ?_⟩
  · have hn := shiftAmount_ok h
    exact ⟨writesRegister_of_writeRegOr hashl (aluShift_ok _ hn),
      writesRegister_of_writeRegOr hashr (aluShift_ok _ hn),
      writesRegister_of_writeRegOr hlshr (aluShift_ok _ hn)⟩
  · have hk : shiftAmount s.cfg.shiftOversize (s.x b) = .error .shiftAmountOutOfRange := by
      rw [ho]; exact shiftAmount_fault hle
    exact ⟨stopsWith_of_writeRegOr hashl (aluShift_error _ hk),
      stopsWith_of_writeRegOr hashr (aluShift_error _ hk),
      stopsWith_of_writeRegOr hlshr (aluShift_error _ hk)⟩

end Sys2Proof.Machine
end

section
/-! PROOF. The compare and branch pair: the scalars that a Cmp leaves, as relations of the two values. -/

namespace Sys2Proof.Machine

/-! ### The sign of a comparison (spec/00_scope.md R13) -/

section
variable {a b : Int}

theorem cmp3_eq_less_iff : cmp3 a b = .less ↔ a < b := by
  unfold cmp3
  split_ifs <;> simp <;> omega

theorem cmp3_eq_equal_iff : cmp3 a b = .equal ↔ a = b := by
  unfold cmp3
  split_ifs <;> simp <;> omega

theorem cmp3_eq_greater_iff : cmp3 a b = .greater ↔ a > b := by
  unfold cmp3
  split_ifs <;> simp <;> omega

theorem cmp3_toInt_eq_zero_iff : (cmp3 a b).toInt = 0 ↔ a = b :=
  Cmp3.toInt_eq_zero_iff.trans cmp3_eq_equal_iff

theorem cmp3_toInt_neg_iff : (cmp3 a b).toInt < 0 ↔ a < b :=
  Cmp3.toInt_neg_iff.trans cmp3_eq_less_iff

theorem cmp3_toInt_pos_iff : (cmp3 a b).toInt > 0 ↔ a > b :=
  Cmp3.toInt_pos_iff.trans cmp3_eq_greater_iff

theorem cmp3_toInt_nonneg_iff : (cmp3 a b).toInt ≥ 0 ↔ a ≥ b :=
  (Cmp3.toInt_nonneg_iff.trans (not_congr cmp3_eq_less_iff)).trans Int.not_lt

theorem cmp3_toInt_nonpos_iff : (cmp3 a b).toInt ≤ 0 ↔ a ≤ b :=
  (Cmp3.toInt_nonpos_iff.trans (not_congr cmp3_eq_greater_iff)).trans Int.not_lt

end

/-! ### A branch after a Cmp (spec/43_compare_branch.md R222) -/

/-- The state that a Cmp below the last word leaves. -/
def State.compared (s : State) (a b : Reg) : State :=
  (s.setCs (compareStatus (s.x a) (s.x b))).advance (s.seqIp 1)

section
variable {s : State} (hip : s.ip.toNat + 1 < 2 ^ 31) (a b : Reg)
include hip

theorem exec_cmp_completes : exec (.cmp a b) s = .next (s.compared a b) :=
  congrArg Host.Outcome.next ((s.complete_seq _ 1).1 hip).1

theorem State.compared_ip : (s.compared a b).ip.toNat = s.ip.toNat + 1 :=
  ((s.complete_seq _ 1).1 hip).2

/-- After a Cmp, an instruction that ends in `branchIf` goes to the displaced word exactly where `p`
holds, if its test `q` says the same. -/
theorem goesTo_of_branchIf_compared {i : Instr} {d : Int} {q p : Prop} [Decidable q] [Decidable p]
    (hq : q ↔ p) (h : exec i (s.compared a b) = (s.compared a b).branchIf (decide q) d) :
    GoesTo i (s.compared a b) (if p then (s.ip.toNat + 2 : Int) + d else s.ip.toNat + 2) := by
  have hgo := goesTo_of_branchIf hq h
  have hnext : ((s.compared a b).ip.toNat + 1 : Int) = s.ip.toNat + 2 := by
    rw [State.compared_ip hip]
    omega
  rwa [hnext] at hgo

end

/-- Settles O16: the Cmp leaves the two comparisons in the status, and each branch tests the sign of one
of them. -/
theorem branchAfterCompareFollowsTheRelation : Obligations.BranchAfterCompareFollowsTheRelation := by
  intro s t a b d hcmp hip
  rw [exec_cmp_completes hip] at hcmp
  injection hcmp with ht
  subst ht
  have heq : (cmp3 (s32 (s.x a)) (s32 (s.x b))).toInt = 0 ↔ s.x a = s.x b :=
    cmp3_toInt_eq_zero_iff.trans BitVec.toInt_inj
  refine ⟨?beq, ?bne, ?blt, ?ble, ?bgt, ?bge, ?bltu, ?bleu, ?bgtu, ?bgeu⟩
  case beq => exact goesTo_of_branchIf_compared hip a b heq rfl
  case bne => exact goesTo_of_branchIf_compared hip a b (not_congr heq) rfl
  case blt => exact goesTo_of_branchIf_compared hip a b cmp3_toInt_neg_iff rfl
  case ble => exact goesTo_of_branchIf_compared hip a b cmp3_toInt_nonpos_iff rfl
  case bgt => exact goesTo_of_branchIf_compared hip a b cmp3_toInt_pos_iff rfl
  case bge => exact goesTo_of_branchIf_compared hip a b cmp3_toInt_nonneg_iff rfl
  case bltu =>
    exact goesTo_of_branchIf_compared hip a b (cmp3_toInt_neg_iff.trans Int.ofNat_lt) rfl
  case bleu =>
    exact goesTo_of_branchIf_compared hip a b (cmp3_toInt_nonpos_iff.trans Int.ofNat_le) rfl
  case bgtu =>
    exact goesTo_of_branchIf_compared hip a b (cmp3_toInt_pos_iff.trans Int.ofNat_lt) rfl
  case bgeu =>
    exact goesTo_of_branchIf_compared hip a b (cmp3_toInt_nonneg_iff.trans Int.ofNat_le) rfl

end Sys2Proof.Machine
end

section
/-! PROOF. The frame family: a register+offset sum that is no address, the two writers of the special
registers and the one of the status, and the host's acts between runs. -/

namespace Sys2Proof.Machine

/-! ### A sum outside 32 bits (spec/46_load_store.md R263) -/

theorem State.eaOffset_outside {s : State} {r : Reg} {off : Int}
    (h : ((s.x r).toNat : Int) + off < 0 ∨ 2 ^ 32 ≤ ((s.x r).toNat : Int) + off) :
    s.eaOffset r off = .raise .memoryOutOfRange s := if_neg (by omega)

/-- An instruction whose effective address is no address stops before its access. -/
theorem stopsWith_of_offset {i : Instr} {s : State} {r : Reg} {off : Int}
    {access : Nat → State → Res Int}
    (ho : ((s.x r).toNat : Int) + off < 0 ∨ 2 ^ 32 ≤ ((s.x r).toNat : Int) + off)
    (h : exec i s = finish ((s.eaOffset r off).andThen access)) : StopsWith i s .memoryOutOfRange := by
  rw [State.eaOffset_outside ho, Res.raise_andThen, finish_raise] at h
  exact stopsWith_of_takeFault h

/-- Settles O30: each of the six forms computes its address before anything else. -/
theorem offsetSumOutside32BitsFaults : Obligations.OffsetSumOutside32BitsFaults := fun _ _ _ _ =>
  ⟨fun ho => ⟨stopsWith_of_offset ho rfl, stopsWith_of_offset ho rfl, stopsWith_of_offset ho rfl⟩,
    fun ho => ⟨stopsWith_of_offset ho rfl, stopsWith_of_offset ho rfl, stopsWith_of_offset ho rfl⟩⟩

/-! ### Who writes the status and the special registers (spec/10_state.md R37, R39) -/

/-- Settles O50: an instruction other than Cmp ends in a state reached without a write of the status,
and no end of an instruction writes it. -/
theorem onlyCompareWritesTheStatus : Obligations.OnlyCompareWritesTheStatus := by
  intro s t i h hcmp
  have kept : Kept (·.cs = s.cs) := ⟨fun _ _ _ h => h, fun _ _ _ h => h⟩
  have ends : EndsIn (·.cs = s.cs) i (exec i s) :=
    exec_ends kept i rfl (fun a b hi => absurd hi (hcmp a b)) (fun _ _ _ _ h => h)
      fun _ _ _ _ _ h => h
  refine ends.keeps h (fun u n hu => ?_) (fun _ _ hu => hu) (fun _ hu => hu)
  obtain ⟨-, -, hcs, -⟩ := u.complete_keeps n
  exact hcs.trans hu

/-- Settles O51: an instruction that is neither of the two for this special register ends in a state
reached by writes of others at most, and no end of an instruction writes one. -/
theorem onlySsrAndSwiWriteSpecialRegisters : Obligations.OnlySsrAndSwiWriteSpecialRegisters := by
  intro s t i j h hchanged
  by_contra hwriter
  have kept : Kept (·.sr j = s.sr j) := ⟨fun _ _ _ h => h, fun _ _ _ h => h⟩
  have ends : EndsIn (·.sr j = s.sr j) i (exec i s) := by
    refine exec_ends kept i rfl (fun _ _ _ _ _ h => h) (fun l hl u v hu => ?_) fun _ _ _ _ _ h => h
    have hne : j ≠ l := fun hj => hwriter (hj ▸ hl)
    exact (u.setSr_sr_other v hne).trans hu
  refine hchanged (ends.keeps h (fun u n hu => ?_) (fun _ _ hu => hu) (fun _ hu => hu))
  obtain ⟨-, hsregs, -⟩ := u.complete_keeps n
  exact (hsregs j).trans hu

/-! ### Construction meets the invariant (spec/70_reset_and_hazards.md R360, R361) -/

/-- A cell of MEM_INIT keeps memory in canonical form. -/
theorem Memory.placeCell_wf (size : Nat) {m : Memory} (c : Host.Cell) (h : m.wf) :
    (m.placeCell size c).wf := by
  unfold Memory.placeCell
  split
  · exact m.write_wf c.1 c.2 h
  · exact h

/-- A cell of MEM_INIT puts no byte at or above MEM_SIZE. -/
theorem Memory.placeCell_inside {size : Nat} {m : Memory} (c : Host.Cell)
    (h : ∀ p ∈ m, p.1 < size) : ∀ p ∈ m.placeCell size c, p.1 < size := by
  unfold Memory.placeCell
  split
  · next hc => exact m.writeBytes_inside c.1 [c.2] size h hc
  · exact h

theorem memoryOf_wf (size : Nat) (cells : List Host.Cell) : (memoryOf size cells).wf := by
  rw [memoryOf_eq_foldl]
  exact List.foldlRecOn cells _ ⟨.nil, nofun⟩ fun _ h c _ => Memory.placeCell_wf size c h

theorem memoryOf_inside (size : Nat) (cells : List Host.Cell) :
    ∀ p ∈ memoryOf size cells, p.1 < size := by
  rw [memoryOf_eq_foldl]
  exact List.foldlRecOn (motive := fun m : Memory => ∀ p ∈ m, p.1 < size) cells _ nofun
    fun _ h c _ => Memory.placeCell_inside c h

theorem State.initial_inv {cfg : Config} {m : Memory} (hlegal : cfg.Legal) (hwf : m.wf)
    (hinside : ∀ c ∈ m, c.1 < cfg.memSize) : (State.initial cfg m).Inv where
  legal := hlegal
  memWf := hwf
  memInside := hinside
  tlbWf := ⟨.nil, nofun⟩
  tlbFilled := nofun
  tlbPaged _ := rfl
  haltedReturned := nofun
  traceOff _ := rfl

theorem Config.standard_legal : Config.standard.Legal := by decide

/-! ### The entry of `execute` (spec/70_reset_and_hazards.md R362) -/

/-- The state with SP and FP at MEM_SIZE - 4. -/
def State.stackReset (s : State) : State :=
  (s.setX sp (u32 ((s.cfg.memSize : Int) - 4))).setX fp (u32 ((s.cfg.memSize : Int) - 4))

section
variable (s : State) {start : Word}

theorem State.enter_even (h : start.toNat % 2 = 0) :
    s.enter start = { s.stackReset with
      ip := BitVec.ofNat 31 (start.toNat / 2), run := .running, result := none } :=
  if_neg (by omega)

theorem State.enter_odd (h : start.toNat % 2 = 1) :
    s.enter start = { s with result := some (.faulted .jumpToUnalignedAddress) } := if_pos h

theorem State.stackReset_x (r : Reg) :
    s.stackReset.x r =
      if r = fp ∨ r = sp then u32 ((s.cfg.memSize : Int) - 4) else s.x r := by
  rw [State.stackReset, State.setX_x, State.setX_x]
  split_ifs <;> simp_all

/-- The entry writes no field that the invariant bounds, but the end of the run, which a return marks. -/
theorem State.enter_inv (start : Word) (hs : s.Inv) : (s.enter start).Inv := by
  rcases Nat.mod_two_eq_zero_or_one start.toNat with heven | hodd
  · rw [s.enter_even heven]
    exact { hs with haltedReturned := nofun }
  · rw [s.enter_odd hodd]
    exact { hs with haltedReturned := fun _ => Option.some_ne_none _ }

end

/-- Settles O48: the constructed memory is made of MEM_INIT's cells, each of which keeps it canonical
and inside MEM_SIZE, and the state at reset has none. -/
theorem constructedMachinesMeetTheInvariant : Obligations.ConstructedMachinesMeetTheInvariant := by
  refine ⟨fun cfg cells s hs => ?_, ?_, fun s start hs => s.enter_inv start hs⟩
  · obtain ⟨hlegal, rfl⟩ := State.construct_eq_some.mp hs
    exact State.initial_inv hlegal (memoryOf_wf _ cells) (memoryOf_inside _ cells)
  · exact State.initial_inv Config.standard_legal ⟨.nil, nofun⟩ nofun

/-- The top long of a legal memory is a 32-bit address. -/
theorem Config.stackTop_toNat {c : Config} (h : c.Legal) :
    (u32 ((c.memSize : Int) - 4)).toNat = c.memSize - 4 := by
  obtain ⟨-, hlo, hhi⟩ := h
  rw [u32, BitVec.toNat_ofInt]
  omega

/-- Settles O56: an even start writes SP, FP, the IP and the end of the run; an odd one the result. -/
theorem executeEntrySetsOnlyItsRegisters : Obligations.ExecuteEntrySetsOnlyItsRegisters := by
  refine fun s start hlegal => ⟨fun heven => ?_, fun hodd => ?_⟩
  · rw [s.enter_even heven]
    have hsp : s.stackReset.x sp = u32 ((s.cfg.memSize : Int) - 4) := by
      rw [s.stackReset_x, if_pos (.inr rfl)]
    have hfp : s.stackReset.x fp = s.stackReset.x sp := by
      rw [hsp, s.stackReset_x, if_pos (.inl rfl)]
    have hothers : KeepsRegs s s.stackReset [fp, sp] := fun r hr => by
      rw [s.stackReset_x, if_neg (by simpa using hr)]
    have hip : (BitVec.ofNat 31 (start.toNat / 2)).toNat = start.toNat / 2 := by
      have := start.isLt
      rw [BitVec.toNat_ofNat]
      omega
    exact ⟨(congrArg BitVec.toNat hsp).trans (Config.stackTop_toNat hlegal), hfp, hothers, hip, rfl, rfl,
      fun _ => rfl, rfl, fun _ => rfl, rfl, rfl, rfl⟩
  · rw [s.enter_odd hodd]
    exact ⟨⟨rfl, rfl, rfl, rfl, rfl⟩, ⟨fun _ _ => rfl, fun _ => rfl, rfl, fun _ => rfl, rfl⟩, rfl⟩

/-! ### The host's flush and counter (spec/70_reset_and_hazards.md R367, R368) -/

/-- Settles O58: each act writes its one field. -/
theorem hostFlushAndCounterReset : Obligations.HostFlushAndCounterReset := fun s =>
  ⟨s.flushTlb_slot, fun r _ => s.flushTlb_x r, s.flushTlb_sr, s.flushTlb_cs, s.flushTlb_byte,
    s.flushTlb_ip, s.flushTlb_icount, ⟨rfl, rfl, rfl, rfl, rfl⟩, s.resetIcount_icount,
    ⟨fun r _ => s.resetIcount_x r, s.resetIcount_sr, s.resetIcount_cs, s.resetIcount_byte,
      s.resetIcount_tlb, rfl, rfl, rfl, rfl, rfl⟩, s.resetIcount_ip⟩

end Sys2Proof.Machine
end

section
/-! PROOF. The stack and frame family: a store below a lowered pointer and a load at a pointer, in both
modes; the internal push and pop; and, over sequences of these, the calls and the return. -/

namespace Sys2Proof.Machine

/-! ### What is kept, along two stretches of an instruction -/

theorem KeepsRegs.trans {s t u : State} {l : List Reg} (h : KeepsRegs s t l)
    (h' : KeepsRegs t u []) : KeepsRegs s u l :=
  fun r hr => (h' r List.not_mem_nil).trans (h r hr)

theorem KeepsMemory.trans {s t u : State} (h : KeepsMemory s t) (h' : KeepsMemory t u) :
    KeepsMemory s u := fun a => (h' a).trans (h a)

theorem keepsMemory_of_mem_eq {s t : State} (h : t.mem = s.mem) : KeepsMemory s t := fun a => by
  rw [State.byte, h, State.byte]

theorem StoresAt.trans {s t u : State} {p n : Nat} {v : Word} (h : StoresAt s t p n v)
    (h' : KeepsMemory t u) : StoresAt s u p n v := by
  obtain ⟨hin, hout⟩ := h
  exact ⟨fun k hk => (h' _).trans (hin k hk), fun a ha => (h' a).trans (hout a ha)⟩

theorem assembled_congr {s t : State} (hcfg : t.cfg = s.cfg) (h : KeepsMemory s t) (p n : Nat) :
    assembled t p n = assembled s p n := by
  simp only [assembled, hcfg, h _]

/-- The control fields hold the special registers. -/
theorem SameControl.keepsSpecials {s t : State} (h : SameControl s t) : KeepsSpecials s t :=
  fun j => by rw [State.sr, h.sregs, State.sr]

theorem SameControl.keepsControl {s t : State} (h : SameControl s t) : KeepsControl s t :=
  ⟨h.run, h.result, h.cfg, h.free, h.trace⟩

/-- The end of an instruction that kept the control fields and completes at the word `n`. -/
theorem SameControl.complete_at {s t : State} (h : SameControl s t) (n : Nat) :
    (n < 2 ^ 31 → KeepsControl s (t.complete n) ∧ Completes s (t.complete n) n) ∧
    (2 ^ 31 ≤ n → Faulted s (t.complete n) .ipOutOfRange) := by
  constructor
  · intro hlt
    have hip := t.advance_ip_toNat (n := n) (by omega) (by omega)
    rw [State.complete_inRange _ (by omega) (by omega)]
    exact ⟨h.keepsControl, Int.ofNat.inj hip, congrArg (· + 1) h.icount⟩
  · intro hle
    rw [State.complete_outOfRange _ (by omega)]
    exact h.faulted _

/-! ### A store through a register just written (spec/40_execution_loop.md R141) -/

section
variable {s s1 : State} {r : Reg} {p : Word} {ea : Nat} {w : Width} {v : Word}

/-- The register keeps its new value, and the store changes its bytes alone. -/
theorem State.memWrite_setX_fits {q : Nat} (ht : (s.setX r p).target ea .write = .ok q s1)
    (hfit : q + w.bytes ≤ s.cfg.memSize) :
    ∃ t, (s.setX r p).memWrite ea w v = .ok () t ∧ t.x r = p ∧ StoresAt s t q w.bytes v ∧
      KeepsRegs s t [r] ∧ t.tlb = s1.tlb ∧ SameControl s t := by
  have ho := State.target_ok_onlyTlb ht
  refine ⟨_, State.memWrite_fits v ht hfit, (ho.x r).trans (s.setX_x_same r p),
    s.setMem_storesAt _ q w v rfl, fun j hj => ?_, rfl, ?_⟩
  · exact (ho.x j).trans (s.setX_x_other p (by simpa using hj))
  · exact (SameControl.setX s r p).trans (ho.sameControl.trans (.setMem s1 _))

/-- Where the store faults, the register keeps its new value and no byte changes. -/
theorem State.memWrite_setX_raise {k : FaultKind}
    (h : (s.setX r p).memWrite ea w v = .raise k s1) :
    s1.x r = p ∧ KeepsRegs s s1 [r] ∧ KeepsMemory s s1 ∧ SameControl s s1 := by
  have ho := State.memWrite_raise_onlyTlb h
  obtain ⟨-, -, -, hmem⟩ := ho.keeps
  refine ⟨(ho.x r).trans (s.setX_x_same r p), fun j hj => ?_, hmem, ?_⟩
  · exact (ho.x j).trans (s.setX_x_other p (by simpa using hj))
  · exact (SameControl.setX s r p).trans ho.sameControl

end

/-- A long read through the accessor is R61's sum, and the read changes the TLB at most. -/
theorem State.memRead_long_fits {s s1 : State} {a q : Nat} (ht : s.target a .read = .ok q s1)
    (hfit : q + 4 ≤ s.cfg.memSize) :
    ∃ v, s.memRead a .long = .ok v s1 ∧ v.toNat = assembled s q 4 ∧ OnlyTlb s s1 :=
  ⟨_, State.memRead_fits ht hfit, s.load_assembled q .long, State.target_ok_onlyTlb ht⟩

/-! ### The internal push and pop (spec/40_execution_loop.md R141, R142) -/

theorem State.pop32_of_read {s s1 : State} {v : Word}
    (h : s.memRead (s.x sp).toNat .long = .ok v s1) :
    s.pop32 = .ok v (s1.setX sp (u32 ((s.x sp).toNat + 4))) := by
  rw [State.pop32, h, Res.ok_andThen, (State.memRead_ok_onlyTlb h).x]

theorem State.pop32_of_raise {s s1 : State} {k : FaultKind}
    (h : s.memRead (s.x sp).toNat .long = .raise k s1) : s.pop32 = .raise k s1 := by
  rw [State.pop32, h, Res.raise_andThen]

/-- Settles O18: a push is a store through the SP just lowered, and a pop a read at SP, which raises SP
only where it goes through. -/
theorem internalPushAndPop : Obligations.InternalPushAndPop := by
  intro s v p
  have hpush : s.push32 v = (s.setX sp p).memWrite p.toNat .long v := s.push32_eq v
  refine ⟨fun q s1 ht hfit => ?_, fun k s1 h => ?_, fun q s1 ht hfit => ?_, fun k s1 h => ?_⟩
  · obtain ⟨t, ht, hsp, hst, hregs, htlb, hcontrol⟩ :=
      State.memWrite_setX_fits (w := .long) ht hfit
    exact ⟨t, hpush.trans ht, hsp, hst, hregs, hcontrol.keepsSpecials, hcontrol.cs, htlb,
      hcontrol.ip, hcontrol.icount, hcontrol.keepsControl⟩
  · obtain ⟨hsp, hregs, hmem, -⟩ := State.memWrite_setX_raise h
    exact ⟨hpush.trans h, hsp, hregs, hmem⟩
  · obtain ⟨r, hread, hr, ho⟩ := State.memRead_long_fits ht hfit
    obtain ⟨-, hsregs, hcs, hmem⟩ := ho.keeps
    have hcontrol := ho.sameControl
    refine ⟨r, _, State.pop32_of_read hread, hr, s1.setX_x_same sp _, fun j hj => ?_, hsregs, hcs,
      hmem, rfl, hcontrol.ip, hcontrol.icount, hcontrol.keepsControl⟩
    exact (s1.setX_x_other _ (by simpa using hj)).trans (ho.x j)
  · obtain ⟨hregs, -, -, hmem⟩ := (State.memRead_raise_onlyTlb h).keeps
    exact ⟨State.pop32_of_raise h, hregs, hmem⟩

/-! ### Push and Pop (spec/45_stack.md R250, R251) -/

/-- Settles O25: Push is a store through the pointer just lowered, and then the end of the
instruction. -/
theorem pushStoresBelowItsPointer : Obligations.PushStoresBelowItsPointer := by
  intro s a b p
  have hpush : exec (.push a b) s = finish (((s.setX a p).memWrite p.toNat .long (s.x b)).andThen
    fun _ s1 => .ok (s.seqIp 1) s1) := rfl
  refine ⟨fun q s1 ht hfit => ?_, fun k s1 h => ?_⟩
  · obtain ⟨t, ht, ha, hst, hregs, htlb, hcontrol⟩ :=
      State.memWrite_setX_fits (w := .long) (v := s.x b) ht hfit
    rw [ht, Res.ok_andThen, finish_ok] at hpush
    obtain ⟨hregs', hsregs', hcs', hmem', htlb'⟩ := t.complete_keeps (s.seqIp 1)
    exact ⟨_, hpush, (hregs' a List.not_mem_nil).trans ha, hst.trans hmem', hregs.trans hregs',
      fun j => (hsregs' j).trans (hcontrol.keepsSpecials j), hcs'.trans hcontrol.cs,
      htlb'.trans htlb, hcontrol.complete_seq 1⟩
  · obtain ⟨ha, hregs, hmem, hcontrol⟩ := State.memWrite_setX_raise h
    rw [h, Res.raise_andThen, finish_raise] at hpush
    exact ⟨_, hpush, ha, hregs, hcontrol.keepsSpecials, hcontrol.cs, hmem, rfl, hcontrol.faulted k⟩

/-- Settles O26: Pop reads at its pointer and then writes `x[B]` and the pointer, in this order, and
ends. -/
theorem popLoadsAtItsPointer : Obligations.PopLoadsAtItsPointer := by
  intro s a b
  have hpop : exec (.pop a b) s = finish ((s.memRead (s.x a).toNat .long).andThen fun v s1 =>
    .ok (s.seqIp 1) (s1.popVia a b (u32 ((s.x a).toNat + 4)) v)) := rfl
  refine ⟨fun q s1 ht hfit => ?_, fun k s1 h => ?_⟩
  · obtain ⟨v, hread, hv, ho⟩ := State.memRead_long_fits ht hfit
    rw [hread, Res.ok_andThen, finish_ok] at hpop
    generalize u32 ((s.x a).toNat + 4) = p at hpop ⊢
    obtain ⟨-, hsregs, hcs, hmem⟩ := ho.keeps
    obtain ⟨hregs', hsregs', hcs', hmem', htlb'⟩ := (s1.popVia a b p v).complete_keeps (s.seqIp 1)
    have hx (r : Reg) : ((s1.popVia a b p v).complete (s.seqIp 1)).x r =
        if r = a then p else if r = b then v else s.x r := by
      rw [hregs' r List.not_mem_nil, State.popVia_x, ho.x]
    have hcontrol : SameControl s (s1.popVia a b p v) :=
      ho.sameControl.trans ((SameControl.setX s1 b v).trans (.setX _ a p))
    refine ⟨_, hpop, ?_, fun hba => ?_, fun r hr => ?_, fun j => (hsregs' j).trans (hsregs j),
      hcs'.trans hcs, hmem.trans hmem', htlb', hcontrol.complete_seq 1⟩
    · rw [hx, if_pos rfl]
    · rw [hx, if_neg hba, if_pos rfl, hv]
    · have hne : r ≠ a ∧ r ≠ b := by simpa using hr
      rw [hx, if_neg hne.1, if_neg hne.2]
  · have ho := State.memRead_raise_onlyTlb h
    obtain ⟨hregs, hsregs, hcs, hmem⟩ := ho.keeps
    rw [h, Res.raise_andThen, finish_raise] at hpop
    exact ⟨_, hpop, hregs, hsregs, hcs, hmem, rfl, ho.sameControl.faulted k⟩

/-! ### The three pushes of a call (spec/44_jump_call_return.md R233 to R235) -/

/-- `t` is `s` after `k` pushes, as far as the registers and the control fields go. -/
structure Pushed (s : State) (k : Nat) (t : State) : Prop where
  control : SameControl s t
  sp_eq : t.x sp = s.below k
  others : KeepsRegs s t [sp]

theorem Pushed.none (s : State) : Pushed s 0 s := ⟨.refl s, s.below_zero.symm, fun _ _ => rfl⟩

/-- One push more. -/
theorem Pushed.push {s t u : State} {k : Nat} {v : Word} (h : Pushed s k t)
    (hu : t.push32 v = .ok () u) : Pushed s (k + 1) u := by
  obtain ⟨hcontrol, hx⟩ := State.push32_ok hu
  refine ⟨h.control.trans hcontrol, ?_, fun r hr => ?_⟩
  · rw [hx, if_pos rfl, h.sp_eq, s.u32_below_sub]
  · rw [hx, if_neg (by simpa using hr), h.others r hr]

/-- Both calls push a frame with the next instruction's word index and then jump to their target. -/
theorem exec_call_target {i : Instr} {target : Word} {words : Nat} (s : State)
    (hi : (∃ a, i = .jsr a ∧ target = s.x a ∧ words = 1) ∨ i = .jsra target ∧ words = 3) :
    exec i s =
      finish ((s.callFrame (s.ip.toNat + words)).andThen fun _ s1 => jumpTo target s1) := by
  obtain ⟨a, rfl, rfl, rfl⟩ | ⟨rfl, rfl⟩ := hi <;> rfl

section
variable {s s1 s2 s3 : State} {r : Nat} {k : FaultKind}

theorem State.callFrame_raise_first (h1 : s.push32 0#32 = .raise k s1) :
    s.callFrame r = .raise k s1 := by
  rw [State.callFrame, h1, Res.raise_andThen]

theorem State.callFrame_raise_second (h1 : s.push32 0#32 = .ok () s1)
    (h2 : s1.push32 (BitVec.ofNat 32 r) = .raise k s2) : s.callFrame r = .raise k s2 := by
  rw [State.callFrame, h1, Res.ok_andThen, h2, Res.raise_andThen]

theorem State.callFrame_raise_third (h1 : s.push32 0#32 = .ok () s1)
    (h2 : s1.push32 (BitVec.ofNat 32 r) = .ok () s2) (h3 : s2.push32 (s.x fp) = .raise k s3) :
    s.callFrame r = .raise k s3 := by
  rw [State.callFrame, h1, Res.ok_andThen, h2, Res.ok_andThen, h3, Res.raise_andThen]

theorem State.callFrame_ok (h1 : s.push32 0#32 = .ok () s1)
    (h2 : s1.push32 (BitVec.ofNat 32 r) = .ok () s2) (h3 : s2.push32 (s.x fp) = .ok () s3) :
    s.callFrame r = .ok () (s3.setX fp (s3.x sp)) := by
  rw [State.callFrame, h1, Res.ok_andThen, h2, Res.ok_andThen, h3, Res.ok_andThen]

end

/-- Where `JumpTo` ends an instruction that kept the control fields: the jump writes no register, byte or
slot. -/
theorem SameControl.finish_jumpTo {s u : State} (h : SameControl s u) (v : Word) :
    ∃ t, finish (jumpTo v u) = .next t ∧ KeepsRegs u t [] ∧ KeepsSpecials u t ∧ t.cs = u.cs ∧
      KeepsMemory u t ∧ t.tlb = u.tlb ∧
      (v.toNat % 2 = 0 → KeepsControl s t ∧ Completes s t (v.toNat / 2)) ∧
      (v.toNat % 2 = 1 → Faulted s t .jumpToUnalignedAddress) := by
  rcases Nat.mod_two_eq_zero_or_one v.toNat with heven | hodd
  · obtain ⟨hregs, hsregs, hcs, hmem, htlb⟩ := u.complete_keeps (v.toNat / 2 : Nat)
    rw [jumpTo_even u heven, finish_ok]
    have hword : v.toNat / 2 < 2 ^ 31 := by have := v.isLt; omega
    exact ⟨_, rfl, hregs, hsregs, hcs, hmem, htlb, fun _ => (h.complete_at _).1 hword,
      fun hodd => by omega⟩
  · rw [jumpTo_odd u hodd, finish_raise]
    exact ⟨_, rfl, fun _ _ => rfl, fun _ => rfl, rfl, fun _ => rfl, rfl, fun heven => by omega,
      fun _ => h.faulted _⟩

/-- Settles O19: after three pushes SP is 12 lower, FP is set to it, and the jump ends the call. -/
theorem callsPushTheirFrame : Obligations.CallsPushTheirFrame := by
  intro s s1 s2 s3 i target words hi h1 h2 h3
  have hpushed : Pushed s 3 s3 := (((Pushed.none s).push h1).push h2).push h3
  have hcontrol : SameControl s (s3.setX fp (s3.x sp)) := hpushed.control.trans (.setX s3 fp _)
  obtain ⟨t, ht, hregs, hsregs, hcs, hmem, htlb, hend⟩ := hcontrol.finish_jumpTo target
  have hx (r : Reg) : t.x r = if r = fp then s3.x sp else s3.x r := by
    rw [hregs r List.not_mem_nil, State.setX_x]
  have htsp : t.x sp = s3.x sp := (hx sp).trans (if_neg (by decide))
  refine ⟨t, ?_, htsp.trans hpushed.sp_eq, ?_, fun r hr => ?_,
    fun j => (hsregs j).trans (hcontrol.keepsSpecials j), hcs.trans hcontrol.cs, hmem, htlb, hend⟩
  · rw [exec_call_target s hi, State.callFrame_ok h1 h2 h3, Res.ok_andThen, ht]
  · rw [hx, if_pos rfl, htsp]
  · have hne : r ≠ fp ∧ r ≠ sp := by simpa using hr
    rw [hx, if_neg hne.1, hpushed.others r (by simpa using hne.2)]

/-- A call whose frame faults ends in the fault, with the frame's writes so far kept. -/
theorem call_faults {i : Instr} {s u : State} {words : Nat} {k : FaultKind}
    (hi : (∃ a, i = .jsr a ∧ words = 1) ∨ (∃ v, i = .jsra v) ∧ words = 3)
    (hu : SameControl s u) (h : s.callFrame (s.ip.toNat + words) = .raise k u) :
    ∃ t, exec i s = .next t ∧ NothingWritten u t ∧ Faulted s t k := by
  obtain ⟨v, hcall⟩ := exec_call s hi
  rw [h, Res.raise_andThen, finish_raise] at hcall
  exact ⟨_, hcall, ⟨fun _ _ => rfl, fun _ => rfl, rfl, fun _ => rfl, rfl⟩, hu.faulted k⟩

/-- Settles O20: the first push that faults is the end of the frame and of the call. -/
theorem faultingCallsKeepEarlierPushes : Obligations.FaultingCallsKeepEarlierPushes := by
  refine fun s i words hi k => ⟨fun s1 h1 => ?_, fun s1 s2 h1 h2 => ?_, fun s1 s2 s3 h1 h2 h3 => ?_⟩
  · exact call_faults hi (State.push32_raise h1).1 (State.callFrame_raise_first h1)
  · have hpushed := (Pushed.none s).push h1
    exact call_faults hi (hpushed.control.trans (State.push32_raise h2).1)
      (State.callFrame_raise_second h1 h2)
  · have hpushed := ((Pushed.none s).push h1).push h2
    exact call_faults hi (hpushed.control.trans (State.push32_raise h3).1)
      (State.callFrame_raise_third h1 h2 h3)

/-! ### The frame in physical memory -/

theorem State.FrameFits.of_words {s : State} (h1 : (s.below 1).toNat + 4 ≤ s.cfg.memSize)
    (h2 : (s.below 2).toNat + 4 ≤ s.cfg.memSize) (h3 : (s.below 3).toNat + 4 ≤ s.cfg.memSize) :
    s.FrameFits
  | 0, _ => h1
  | 1, _ => h2
  | 2, _ => h3

/-- Two words of a frame do not overlap, even where SP wraps below 0. -/
theorem State.below_apart (s : State) {j k : Nat} (hjk : j < k) (hk : k ≤ 3) :
    (s.below j).toNat + 4 ≤ (s.below k).toNat ∨ (s.below k).toNat + 4 ≤ (s.below j).toNat := by
  have hj := s.below_toNat j
  have hk := s.below_toNat k
  omega

/-- The state after the three pushes of `CallFrame(r)`: `State.withFrame` before FP is set. -/
def State.frameWords (s : State) (r : Nat) : State :=
  ((s.pushAt (s.below 1) 0#32).pushAt (s.below 2) (BitVec.ofNat 32 r)).pushAt (s.below 3) (s.x fp)

section
variable (s : State) (r : Nat)

theorem State.frameWords_cfg : (s.frameWords r).cfg = s.cfg := rfl

theorem State.frameWords_tlb : (s.frameWords r).tlb = s.tlb := rfl

/-- In physical mode the three pushes of a frame that fits go through. -/
theorem State.pushes_physical (hm : s.cfg.mode = .physical) (hfit : s.FrameFits) :
    ∃ s1 s2, s.push32 0#32 = .ok () s1 ∧ s1.push32 (BitVec.ofNat 32 r) = .ok () s2 ∧
      s2.push32 (s.x fp) = .ok () (s.frameWords r) := by
  refine ⟨s.pushAt (s.below 1) 0#32,
    (s.pushAt (s.below 1) 0#32).pushAt (s.below 2) (BitVec.ofNat 32 r), ?_, ?_, ?_⟩
  · exact State.push32_physical hm hfit _ (k := 0) (by decide) rfl s.below_zero.symm
  · exact State.push32_physical hm hfit _ (k := 1) (by decide) rfl (State.pushAt_sp _ _ _)
  · exact State.push32_physical hm hfit _ (k := 2) (by decide) rfl (State.pushAt_sp _ _ _)

/-- The two pushes after it leave the placeholder as it was pushed. -/
theorem State.load_frameWords_placeholder :
    (s.frameWords r).mem.load s.cfg.endian (s.below 1).toNat .long = 0#32 :=
  (Memory.load_store_outside _ _ _ _ _ _ _ (s.below_apart (by decide) (by decide))).trans <|
    (Memory.load_store_outside _ _ _ _ _ _ _ (s.below_apart (by decide) (by decide))).trans
      (Memory.load_store_long _ _ _ _)

/-- The frame's three words, as R61's sums. -/
theorem State.assembled_frameWords (hr : r < 2 ^ 32) :
    assembled (s.frameWords r) (s.below 1).toNat 4 = 0 ∧
      assembled (s.frameWords r) (s.below 2).toNat 4 = r ∧
      assembled (s.frameWords r) (s.below 3).toNat 4 = (s.x fp).toNat := by
  have hsum (k : Nat) := (s.frameWords r).load_assembled (s.below k).toNat .long
  have h1 := congrArg BitVec.toNat (s.load_frameWords_placeholder r)
  have h2 := congrArg BitVec.toNat (s.load_withFrame_returnIp r)
  have h3 := congrArg BitVec.toNat (s.load_withFrame_fp r)
  rw [BitVec.toNat_ofNat, Nat.mod_eq_of_lt hr] at h2
  exact ⟨(hsum 1).symm.trans h1, (hsum 2).symm.trans h2, (hsum 3).symm.trans h3⟩

/-- Every byte outside the frame's three words is as before the call. -/
theorem State.byte_frameWords_outside {a : Nat}
    (h : ∀ k ∈ [1, 2, 3], a < (s.below k).toNat ∨ (s.below k).toNat + 4 ≤ a) :
    (s.frameWords r).byte a = s.byte a :=
  (Memory.read_store_outside _ _ _ _ _ _ (h 3 (by decide))).trans <|
    (Memory.read_store_outside _ _ _ _ _ _ (h 2 (by decide))).trans
      (Memory.read_store_outside _ _ _ _ _ _ (h 1 (by decide)))

end

/-- No instruction writes the parameters. -/
theorem exec_cfg {i : Instr} {s t : State} (h : exec i s = .next t) : t.cfg = s.cfg := by
  obtain ⟨u, hu, hmicros⟩ := exec_runs i s
  obtain rfl : u = t := by injection hu.symm.trans h
  exact hmicros.cfg_eq

/-- Settles O21: in physical mode the three pushes go through, so the call ends as with any frame, and
memory is what they stored. -/
theorem callFrameInPhysicalMemory : Obligations.CallFrameInPhysicalMemory := by
  intro s i target words hm hi q hq1 hq2 hq3
  have hwords : s.ip.toNat + words < 2 ^ 32 := by
    have hip := s.ip.isLt
    have hle : words ≤ 3 := by obtain ⟨a, -, -, rfl⟩ | ⟨-, rfl⟩ := hi <;> decide
    omega
  obtain ⟨s1, s2, h1, h2, h3⟩ := s.pushes_physical (s.ip.toNat + words) hm (State.FrameFits.of_words hq1 hq2 hq3)
  obtain ⟨t, ht, hsp, hfp, hregs, hsregs, hcs, hmem, htlb, hend⟩ :=
    callsPushTheirFrame s s1 s2 _ i target words hi h1 h2 h3
  have hsum := assembled_congr ((exec_cfg ht).trans (s.frameWords_cfg _).symm) hmem
  obtain ⟨hw1, hw2, hw3⟩ := s.assembled_frameWords _ hwords
  exact ⟨t, ht, (hsum _ 4).trans hw1, (hsum _ 4).trans hw2, (hsum _ 4).trans hw3,
    congrArg BitVec.toNat (hfp.trans hsp), congrArg BitVec.toNat hsp, hregs, hsregs, hcs,
    htlb.trans (s.frameWords_tlb _), fun a ha => (hmem a).trans (s.byte_frameWords_outside _ ha), hend⟩

/-! ### The three pops of a return (spec/44_jump_call_return.md R236) -/

/-- `t` is within the Ret of `s`, with SP `n` above the old FP: no register but FP and SP, no byte and no
control field differs. -/
structure Returning (s : State) (n : Nat) (t : State) : Prop where
  control : SameControl s t
  mem : KeepsMemory s t
  sp_eq : t.x sp = u32 ((s.x fp).toNat + n)
  others : KeepsRegs s t [fp, sp]

theorem Returning.start (s : State) : Returning s 0 (s.setX sp (s.x fp)) where
  control := .setX s sp _
  mem _ := rfl
  sp_eq := (s.setX_x_same sp _).trans (by simp [u32])
  others r hr := by
    have hne : r ≠ fp ∧ r ≠ sp := by simpa using hr
    exact s.setX_x_other _ hne.2

section
variable {s t u : State} {n : Nat} (h : Returning s n t)
include h

theorem Returning.setFp (f : Word) : Returning s n (t.setX fp f) where
  control := h.control.trans (.setX t fp f)
  mem := h.mem
  sp_eq := (t.setX_x_other f (by decide)).trans h.sp_eq
  others r hr := by
    have hne : r ≠ fp ∧ r ≠ sp := by simpa using hr
    exact (t.setX_x_other f hne.1).trans (h.others r hr)

/-- A pop that goes through raises SP by 4 and leaves FP. -/
theorem Returning.pop {v : Word} (hu : t.pop32 = .ok v u) :
    Returning s (n + 4) u ∧ u.x fp = t.x fp := by
  obtain ⟨hcontrol, hmem, hx⟩ := State.pop32_ok hu
  refine ⟨⟨h.control.trans hcontrol, h.mem.trans (keepsMemory_of_mem_eq hmem), ?_, fun r hr => ?_⟩,
    (hx fp).trans (if_neg (by decide))⟩
  · rw [hx, if_pos rfl, h.sp_eq]
    exact u32_congr (by simp only [u32, BitVec.toNat_ofInt]; omega)
  · have hne : r ≠ fp ∧ r ≠ sp := by simpa using hr
    rw [hx, if_neg hne.2, h.others r hr]

/-- A pop that faults leaves SP and FP. -/
theorem Returning.raise {k : FaultKind} (hu : t.pop32 = .raise k u) :
    Returning s n u ∧ u.x fp = t.x fp := by
  obtain ⟨hcontrol, hmem, hx⟩ := State.pop32_raise hu
  exact ⟨⟨h.control.trans hcontrol, h.mem.trans (keepsMemory_of_mem_eq hmem), (hx sp).trans h.sp_eq,
    fun r hr => (hx r).trans (h.others r hr)⟩, hx fp⟩

end

section
variable {s s1 s2 s3 : State} {f r z : Word} {k : FaultKind}

theorem exec_ret_raise_first (h1 : (s.setX sp (s.x fp)).pop32 = .raise k s1) :
    exec .ret s = .next (s1.takeFault k) := by
  rw [exec, execRet, h1, Res.raise_andThen, finish_raise]

theorem exec_ret_raise_second (h1 : (s.setX sp (s.x fp)).pop32 = .ok f s1)
    (h2 : (s1.setX fp f).pop32 = .raise k s2) : exec .ret s = .next (s2.takeFault k) := by
  rw [exec, execRet, h1, Res.ok_andThen, h2, Res.raise_andThen, finish_raise]

theorem exec_ret_raise_third (h1 : (s.setX sp (s.x fp)).pop32 = .ok f s1)
    (h2 : (s1.setX fp f).pop32 = .ok r s2) (h3 : s2.pop32 = .raise k s3) :
    exec .ret s = .next (s3.takeFault k) := by
  rw [exec, execRet, h1, Res.ok_andThen, h2, Res.ok_andThen, h3, Res.raise_andThen, finish_raise]

theorem exec_ret_ok (h1 : (s.setX sp (s.x fp)).pop32 = .ok f s1)
    (h2 : (s1.setX fp f).pop32 = .ok r s2) (h3 : s2.pop32 = .ok z s3) :
    exec .ret s = .next (s3.complete r.toNat) := by
  rw [exec, execRet, h1, Res.ok_andThen, h2, Res.ok_andThen, h3, Res.ok_andThen, finish_ok]

/-- The first two pops: SP is 8 above the old FP, and FP the first word popped. -/
theorem Returning.of_two_pops (h1 : (s.setX sp (s.x fp)).pop32 = .ok f s1)
    (h2 : (s1.setX fp f).pop32 = .ok r s2) : Returning s 8 s2 ∧ s2.x fp = f := by
  obtain ⟨hpop1, -⟩ := (Returning.start s).pop h1
  obtain ⟨hpop2, hfp⟩ := (hpop1.setFp f).pop h2
  exact ⟨hpop2, hfp.trans (s1.setX_x_same fp f)⟩

end

/-- Settles O22: after three pops SP is 12 above the old FP and FP the first word popped, and the second
word popped is where Ret completes. -/
theorem returnPopsTheFrame : Obligations.ReturnPopsTheFrame := by
  intro s s1 s2 s3 f r z h1 h2 h3
  obtain ⟨hpop2, hfp2⟩ := Returning.of_two_pops h1 h2
  obtain ⟨hpop3, hfp3⟩ := hpop2.pop h3
  obtain ⟨hregs, hsregs, hcs, hmem, htlb⟩ := s3.complete_keeps r.toNat
  exact ⟨_, exec_ret_ok h1 h2 h3, (hregs fp List.not_mem_nil).trans (hfp3.trans hfp2),
    (hregs sp List.not_mem_nil).trans hpop3.sp_eq, hpop3.others.trans hregs,
    fun j => (hsregs j).trans (hpop3.control.keepsSpecials j), hcs.trans hpop3.control.cs,
    hpop3.mem.trans hmem, htlb, hpop3.control.complete_at r.toNat⟩

/-- Settles O23: a pop that faults leaves SP and FP as the writes before it did, and the fault keeps
them. -/
theorem faultingReturnsKeepEarlierPops : Obligations.FaultingReturnsKeepEarlierPops := by
  refine fun s k => ⟨fun s1 h1 => ?_, fun s1 s2 f h1 h2 => ?_, fun s1 s2 s3 f r h1 h2 h3 => ?_⟩
  · obtain ⟨hcontrol, hmem, hx⟩ := State.pop32_raise h1
    refine ⟨_, exec_ret_raise_first h1, (hx sp).trans (s.setX_x_same sp _), fun j hj => ?_,
      keepsMemory_of_mem_eq hmem, ((SameControl.setX s sp _).trans hcontrol).faulted k⟩
    exact (hx j).trans (s.setX_x_other _ (by simpa using hj))
  · obtain ⟨hpop1, -⟩ := (Returning.start s).pop h1
    obtain ⟨hraise, hfp⟩ := (hpop1.setFp f).raise h2
    exact ⟨_, exec_ret_raise_second h1 h2, hfp.trans (s1.setX_x_same fp f), hraise.sp_eq,
      hraise.others, hraise.mem, hraise.control.faulted k⟩
  · obtain ⟨hpop2, hfp2⟩ := Returning.of_two_pops h1 h2
    obtain ⟨hraise, hfp⟩ := hpop2.raise h3
    exact ⟨_, exec_ret_raise_third h1 h2 h3, hfp.trans hfp2, hraise.sp_eq, hraise.others,
      hraise.mem, hraise.control.faulted k⟩

end Sys2Proof.Machine
end
